-- ==== Sys2Proof/Word.lean ====
section
/-! DEFINITION. The words of the HuffZip core and its plainest arithmetic (spec/00_scope.md R9, R10).
Everything that is a number in the spec (counts, lengths, indices) is a `Nat`: R9 says that no operation
wraps around. Only what the spec treats as bits is a bit vector. -/

namespace Sys2Proof

/-- A byte: the unit of `IBUF`, `OBUF` and `PBUF`, and a symbol (R7: "one byte value (0–255)"). -/
abbrev Byte := BitVec 8

/-- The 8-bit word written to register `CMD` (R22, R90). -/
abbrev CmdWord := BitVec 8

/-- `ceil8(x) = (x + 7) div 8` (R9). -/
def ceil8 (x : Nat) : Nat := (x + 7) / 8

/-- The 256 symbol values in ascending order: `for s in 0..255 ascending` (R10). -/
def symbols : List Nat := List.range 256

/-- The size of the node arena: `NODE_MAX = 511` (R8). -/
def nodeMax : Nat := 511

end Sys2Proof
end

