-- ==== Sys2Proof/Syntax.lean ====
section
/-! DEFINITION. The command set (spec/30_encoding.md R91): one constructor per row of spec/opcode_table.json.
R93: "Every operand of every command is implicit", so no constructor has an argument. -/

namespace Sys2Proof

/-- The ten commands of the core (R91). -/
inductive Instr
  /-- `0x01`: count the bytes of the input (R110). -/
  | freq
  /-- `0x02`: build the tree from the frequency table (R120). -/
  | build
  /-- `0x03`: derive the code of every symbol from the tree (R140). -/
  | assign
  /-- `0x04`: encode the input bytes into the packed payload (R150). -/
  | pack
  /-- `0x05`: write the artifact to the output buffer (R162). -/
  | ser
  /-- `0x06`: parse the header of the artifact in the input buffer (R164). -/
  | deser
  /-- `0x07`: decode the payload into the output buffer (R180). -/
  | walk
  /-- `0x08`: the encode path, raw input to artifact (R193). -/
  | encode
  /-- `0x09`: the decode path, artifact to original bytes (R194). -/
  | decode
  /-- `0x0A`: forget everything derived (R195). -/
  | clear
  deriving DecidableEq, Repr, Inhabited

end Sys2Proof
end

