-- ==== Sys2Proof/Config.lean ====
section
/-! DEFINITION. What an implementation fixes (the open parameters of spec/00_scope.md R7) and the free values
(what the spec marks "unspecified": R12, spec/93_implementation_defined.md U1 to U7).

The parameters are plain data and stand in `State.params`, so that every statement about all states is a statement
about all parameter values; no step changes them. The free values are opaque: no proof can see what they are. -/

namespace Sys2Proof

/-- The open parameters of R7. `CMAX` and `NB_W` are derived. `BUS_BINDING` is outside the spec (R4, R61). -/
structure Params where
  /-- `CNT_W`: width in bits of an occurrence count, a node weight, a byte length. -/
  cntW : Nat
  /-- `IN_CAP`: capacity of `IBUF` in bytes. -/
  inCap : Nat
  /-- `OUT_CAP`: capacity of `OBUF` in bytes. -/
  outCap : Nat
  /-- `PAY_CAP`: capacity of `PBUF` in bytes. -/
  payCap : Nat
  deriving DecidableEq, Repr, Inhabited

/-- `CMAX = 2^CNT_W - 1`, the largest count (R7). -/
def Params.cmax (p : Params) : Nat := 2 ^ p.cntW - 1

/-- `NB_W = CNT_W + 8`, the width of `NBITS` (R7). -/
def Params.nbW (p : Params) : Nat := p.cntW + 8

/-- The suggested values of R7. DESIGN CHOICE (log entry 1): the reset state uses them; "No rule depends on the
suggested values". -/
def Params.suggested : Params := ⟨32, 65536, 131072, 65536⟩

namespace Config

/-- Free value (log entry 3): the byte of `IBUF` at an address that the host has not written since the reset numbered
by the first argument (U1, U6: "any value"). -/
opaque freeByte : Nat → Nat → BitVec 8

/-- Free value (log entry 4): what a host read of unspecified contents, or any read while the core is busy, returns
(R61, R63, U1 to U5, U7). The first argument is the counter `State.tick`, which every read advances; the second
numbers the components of a record. -/
opaque freeRead : Nat → Nat → Nat

/-- Free value (log entry 5): what a unit of the core would find in an entry of a table or of `PBUF` that its command
has not been given (U2, U3, U5). Arguments: the reset number, the address, the component. No run reaches such a read:
the prerequisites of R191 see to it. -/
opaque freeCell : Nat → Nat → Nat → Nat

end Config

end Sys2Proof
end

