-- ==== Sys2Proof/WellFormed.lean ====
section
/-! DEFINITION. Which terms are well formed: command words (spec/30_encoding.md R90, R92), commands (R93: no operand,
so every command is) and parameters (spec/00_scope.md R7). -/

namespace Sys2Proof

/-- `RSV`, bits `[7:4]` of a command word (R90). -/
def CmdWord.rsv (w : CmdWord) : BitVec 4 := w.extractLsb' 4 4

/-- `OP`, bits `[3:0]` of a command word (R90). -/
def CmdWord.op (w : CmdWord) : BitVec 4 := w.extractLsb' 0 4

/-- The reserved field is 0 (R90: "reserved, must be 0"). -/
def CmdWord.reservedClear (w : CmdWord) : Bool := CmdWord.rsv w == 0

/-- The opcode is one of the ten of R91. -/
def CmdWord.opAssigned (w : CmdWord) : Bool := 1 ≤ (CmdWord.op w).toNat && (CmdWord.op w).toNat ≤ 10

/-- A command word is legal (R92: every word other than `0x01` to `0x0A` is illegal). -/
def CmdWord.wellFormed (w : CmdWord) : Bool := CmdWord.reservedClear w && CmdWord.opAssigned w

/-- A command has no operand (R93), so nothing about it can be ill formed. -/
def Instr.wellFormed : Instr → Bool
  | .freq | .build | .assign | .pack | .ser | .deser | .walk | .encode | .decode | .clear => true

/-- `CNT_W >= 1` (R7). -/
def Params.widthOk (p : Params) : Bool := 1 ≤ p.cntW

/-- `1 <= IN_CAP <= CMAX` (R7). -/
def Params.inCapOk (p : Params) : Bool := 1 ≤ p.inCap && p.inCap ≤ p.cmax

/-- `1 <= OUT_CAP <= CMAX` (R7). -/
def Params.outCapOk (p : Params) : Bool := 1 ≤ p.outCap && p.outCap ≤ p.cmax

/-- `1 <= PAY_CAP <= CMAX` (R7). -/
def Params.payCapOk (p : Params) : Bool := 1 ≤ p.payCap && p.payCap ≤ p.cmax

/-- The constraints of R7 on the parameters. -/
def Params.wellFormed (p : Params) : Bool := p.widthOk && p.inCapOk && p.outCapOk && p.payCapOk

end Sys2Proof
end

