-- ==== Sys2Proof/Decode.lean ====
section
/-! DEFINITION. Decoding and encoding of command words (spec/30_encoding.md R90 to R92), total on any bytes. -/

namespace Sys2Proof

/-- Why a command word is illegal (R92), or that there is no word at all. -/
inductive Illegal
  /-- `RSV != 0`. -/
  | reservedBits
  /-- `OP = 0x0`: "illegal on purpose, so that a stray write of zero starts nothing". -/
  | opcodeZero
  /-- `OP` is `0xB` to `0xF`. -/
  | opcodeUnassigned
  /-- No byte was given to the decoder (the hardware always gives one). -/
  | noWord
  deriving DecidableEq, Repr

/-- The opcode map of R91 on the field `OP`. -/
def decodeOp (op : Nat) : Except Illegal Instr :=
  match op with
  | 0x0 => .error .opcodeZero
  | 0x1 => .ok .freq
  | 0x2 => .ok .build
  | 0x3 => .ok .assign
  | 0x4 => .ok .pack
  | 0x5 => .ok .ser
  | 0x6 => .ok .deser
  | 0x7 => .ok .walk
  | 0x8 => .ok .encode
  | 0x9 => .ok .decode
  | 0xA => .ok .clear
  | _ => .error .opcodeUnassigned

/-- The command a word stands for (R90 to R92). -/
def decodeWord (w : CmdWord) : Except Illegal Instr :=
  if CmdWord.rsv w = 0 then decodeOp (CmdWord.op w).toNat else .error .reservedBits

/-- The first command of a sequence of bytes, with the rest: every command is one byte (R90: "one fixed length"). -/
def decode : List Byte → Except Illegal (Instr × List Byte)
  | [] => .error .noWord
  | w :: rest =>
    match decodeWord w with
    | .ok i => .ok (i, rest)
    | .error e => .error e

/-- The word of a command (R91). -/
def encodeWord : Instr → CmdWord
  | .freq => 0x01
  | .build => 0x02
  | .assign => 0x03
  | .pack => 0x04
  | .ser => 0x05
  | .deser => 0x06
  | .walk => 0x07
  | .encode => 0x08
  | .decode => 0x09
  | .clear => 0x0A

/-- The bytes of a command: its one word. -/
def encode (i : Instr) : List Byte := [encodeWord i]

/-- A row of the opcode map: `w` selects it when `w & mask = match` (R91). -/
structure OpcodeRow where
  pattern : CmdWord
  mask : CmdWord
  instr : Instr
  deriving DecidableEq, Repr

/-- The opcode map of R91: "For every row `mask = 0xFF`". -/
def opcodeMap : List OpcodeRow :=
  [⟨0x01, 0xFF, .freq⟩, ⟨0x02, 0xFF, .build⟩, ⟨0x03, 0xFF, .assign⟩, ⟨0x04, 0xFF, .pack⟩, ⟨0x05, 0xFF, .ser⟩,
   ⟨0x06, 0xFF, .deser⟩, ⟨0x07, 0xFF, .walk⟩, ⟨0x08, 0xFF, .encode⟩, ⟨0x09, 0xFF, .decode⟩, ⟨0x0A, 0xFF, .clear⟩]

/-- A word selects a row. -/
def OpcodeRow.selects (r : OpcodeRow) (w : CmdWord) : Bool := w &&& r.mask == r.pattern

/-- The bytes of an instruction whose bits are the low `nbits` of `w`, one byte at least (the bits above are 0), first
byte lowest. -/
def tableBytes (nbits w : Nat) : List Byte :=
  (List.range (max 1 ((nbits + 7) / 8))).map fun k => BitVec.ofNat 8 (w % 2 ^ nbits / 256 ^ k)

/-- The host's question: the command the decoder reads from an instruction whose bits are `w`. -/
def decodeTableWord (nbits w : Nat) : Option Instr :=
  match decode (tableBytes nbits w) with
  | .ok (i, _) => some i
  | .error _ => none

end Sys2Proof
end

