-- ==== Sys2Proof/Machine/State.lean ====
section
/-! DEFINITION. The state of one core (spec/10_state.md R20 to R44), the host port that drives it
(spec/20_memory.md R61), the reasons to stop, and the state after reset. All of it is plain data. -/

namespace Sys2Proof.Machine

/-- A sparse table or buffer: (address, unit) pairs with strictly rising addresses (`Store.wf`). An address that is
not listed holds unspecified contents (R35, R44), so no entry can equal what an unlisted address reads as. -/
abbrev Store (α : Type) := List (Nat × α)

/-- A byte buffer (R39 to R41). -/
abbrev Memory := List Host.Cell

/-- The seven unit operations (R1, R91). -/
inductive UnitOp
  | freq | build | assign | pack | ser | deser | walk
  deriving DecidableEq, Repr

/-- The five levels of derived data (R34). -/
inductive Level
  | freq | tree | code | pay | out
  deriving DecidableEq, Repr

/-- The error codes that a rule of the core or HUFFZIP names (R200); code 0, "none", is `none : Option ErrCode`. -/
inductive ErrCode
  /-- 1: the input is empty (R201). -/
  | emptyInput
  /-- 2: set aside for host software; no rule of the core raises it (R202). -/
  | ioUnavailable
  /-- 3: a malformed header, or a payload that ends too early (R203). -/
  | corruptStream
  /-- 4: a word that is no command (R204). -/
  | illegalCommand
  /-- 5: a command whose prerequisite does not hold (R205). -/
  | sequence
  /-- 6: something does not fit its buffer (R206). -/
  | capacity
  deriving DecidableEq, Repr

/-- `STATE`, bits `[1:0]` of `STATUS` (R23). While the core is busy it holds the running command (R42: the phase
sequencer) and how many more host transactions land before that command ends: the duration of R238, which nothing
bounds. -/
inductive RunState
  | idle
  | busy (cmd : Instr) (window : Nat)
  | done
  | error
  deriving DecidableEq, Repr

/-- `ORIGIN`, bit 7 of `STATUS` (R23). -/
inductive Origin
  /-- 0: counted from `IBUF` by `FREQ`. -/
  | enc
  /-- 1: parsed from an artifact header by `DESER`. -/
  | dec
  deriving DecidableEq, Repr

/-- `KIND` of a node record (R37). -/
inductive NodeKind
  /-- 0. -/
  | leaf
  /-- 1. -/
  | internal
  deriving DecidableEq, Repr

/-- An entry of `NODET` (R37). -/
structure Node where
  kind : NodeKind
  sym : Byte
  left : Nat
  right : Nat
  weight : Nat
  deriving DecidableEq, Repr

/-- An entry of `CODET` (R38): `bits[j]` is the code's bit number `j`. -/
structure Code where
  len : Nat
  bits : BitVec 255
  deriving DecidableEq, Repr

/-- Level 0 (R34): `FREQ_V`, `TOTAL`, `NSYM`, `PAY_OFF`, `ORIGIN`, `FREQT`. -/
structure FreqLevel where
  valid : Bool
  total : Nat
  nsym : Nat
  payOff : Nat
  origin : Origin
  freqt : Store Nat
  deriving DecidableEq, Repr

/-- Level 1 (R34): `TREE_V`, `ROOT`, `NNODES`, `NODET`. -/
structure TreeLevel where
  valid : Bool
  root : Nat
  nnodes : Nat
  nodet : Store Node
  deriving DecidableEq, Repr

/-- Level 2 (R34): `CODE_V`, `CODET`. -/
structure CodeLevel where
  valid : Bool
  codet : Store Code
  deriving DecidableEq, Repr

/-- Level 3 (R34): `PAY_V`, `NBITS`, `PAY_LEN`, `PBUF`. -/
structure PayLevel where
  valid : Bool
  nbits : Nat
  payLen : Nat
  pbuf : Memory
  deriving DecidableEq, Repr

/-- Level 4 (R34): `OUT_V`, `OUT_LEN`, `OBUF`. -/
structure OutLevel where
  valid : Bool
  outLen : Nat
  obuf : Memory
  deriving DecidableEq, Repr

/-- An invalid level 0 (R35): flag and registers 0, contents unspecified (nothing listed). -/
def FreqLevel.invalid : FreqLevel := ⟨false, 0, 0, 0, .enc, []⟩
/-- An invalid level 1 (R35). -/
def TreeLevel.invalid : TreeLevel := ⟨false, 0, 0, []⟩
/-- An invalid level 2 (R35). -/
def CodeLevel.invalid : CodeLevel := ⟨false, []⟩
/-- An invalid level 3 (R35). -/
def PayLevel.invalid : PayLevel := ⟨false, 0, 0, []⟩
/-- An invalid level 4 (R35). -/
def OutLevel.invalid : OutLevel := ⟨false, 0, []⟩

/-- The address spaces of a `MemRead` or `MemWrite` (R60, R61); registers have transactions of their own. -/
inductive Space
  | ibuf | obuf | pbuf | freqt | nodet | codet
  deriving DecidableEq, Repr

/-- One access unit of a space (R60), moved whole (R69). -/
inductive Datum
  | byte (b : Byte)
  | count (c : Nat)
  | node (n : Node)
  | code (c : Code)
  deriving DecidableEq, Repr

/-- The host transactions (R61). -/
inductive Txn
  | regRead (n : BitVec 8)
  | regWrite (n : BitVec 8) (v : Nat)
  | memRead (sp : Space) (a : Nat)
  | memWrite (sp : Space) (a : Nat) (b : Byte)
  | reset
  deriving DecidableEq, Repr

/-- A pending host transaction. `window` matters only for a `CMD` write that is accepted: it is the number of the
transactions after it that land while the command still runs (R196: "any number from zero up"; DESIGN CHOICE, log 6). -/
structure HostOp where
  txn : Txn
  window : Nat
  deriving DecidableEq, Repr

/-- What a read transaction returned to the host. -/
inductive Reply
  | reg (v : Nat)
  | datum (d : Datum)
  deriving DecidableEq, Repr

/-- The state of one core and its host port. -/
structure State where
  /-- The open parameters (R7); no step changes them. -/
  params : Params
  /-- `STATE` (R23), with the running command while busy. -/
  stt : RunState
  /-- `PHASE` (R23): the unit most recently started; `none` reads as 0. -/
  phase : Option UnitOp
  /-- `ERR` (R24); `none` reads as 0. -/
  err : Option ErrCode
  /-- `IN_LEN` (R25). -/
  inLen : Nat
  /-- `IBUF` (R39). -/
  ibuf : Memory
  /-- Level 0. -/
  freq : FreqLevel
  /-- Level 1. -/
  tree : TreeLevel
  /-- Level 2. -/
  code : CodeLevel
  /-- Level 3. -/
  pay : PayLevel
  /-- Level 4. -/
  out : OutLevel
  /-- The model's own: the transactions the host has yet to make, in order (R71). -/
  host : List HostOp
  /-- The model's own: what the host's reads have returned, newest first. -/
  replies : List Reply
  /-- The model's own: the counter of the free values of reads. -/
  tick : Nat
  /-- The model's own: the number of the last reset, which selects the unspecified contents of `IBUF`. -/
  fill : Nat
  deriving DecidableEq, Repr

/-- Why the machine stops with a fault: there is no such reason. spec/93_implementation_defined.md: "Nothing in this
spec has treatment `stuck`"; an error is the way a command ends (R208), a next state. -/
inductive Fault
  deriving DecidableEq, Repr

/-- Why the model gives no meaning. -/
inductive Refusal
  /-- Raised by an arm of `exec` for a command that has no meaning yet (safe: nothing can be proved of it). -/
  | notModelled (mnemonic : String)
  deriving DecidableEq, Repr

/-- The state after reset (R44, R230): registers 0, `STATE = IDLE`, contents unspecified. The parameters are the
suggested ones (log entry 1); the host port is empty (log entry 2); the two counters start at values of the model's
(log entries 3, 4). -/
def State.reset : State :=
  { params := .suggested
    stt := .idle
    phase := none
    err := none
    inLen := 0
    ibuf := []
    freq := .invalid
    tree := .invalid
    code := .invalid
    pay := .invalid
    out := .invalid
    host := []
    replies := []
    tick := 1
    fill := 0 }

end Sys2Proof.Machine
end

