-- ==== Sys2Proof/Machine/Flags.lean ====
section
/-! DEFINITION. Codes and flags: `STATUS` as a word (spec/10_state.md R23), `ERR` as a number (R200), the valid flags
of the five levels and `Invalidate` (R34, R35). The core has no other condition code (R34). -/

namespace Sys2Proof.Machine

/-- The opcode of a unit, which is also its value in the field `PHASE` (R91). -/
def UnitOp.opcode : UnitOp → Nat
  | .freq => 1
  | .build => 2
  | .assign => 3
  | .pack => 4
  | .ser => 5
  | .deser => 6
  | .walk => 7

/-- The level a unit writes (R91, R34). -/
def UnitOp.level : UnitOp → Level
  | .freq => .freq
  | .build => .tree
  | .assign => .code
  | .pack => .pay
  | .ser => .out
  | .deser => .freq
  | .walk => .out

/-- The number of a level (R34). -/
def Level.index : Level → Nat
  | .freq => 0
  | .tree => 1
  | .code => 2
  | .pay => 3
  | .out => 4

/-- The numbers of `ERR` (R200). -/
def ErrCode.number : ErrCode → Nat
  | .emptyInput => 1
  | .ioUnavailable => 2
  | .corruptStream => 3
  | .illegalCommand => 4
  | .sequence => 5
  | .capacity => 6

/-- `STATE` as the number in bits `[1:0]` of `STATUS` (R23). -/
def RunState.number : RunState → Nat
  | .idle => 0
  | .busy _ _ => 1
  | .done => 2
  | .error => 3

/-- `STATE = BUSY`. -/
def RunState.isBusy : RunState → Bool
  | .busy _ _ => true
  | .idle | .done | .error => false

/-- `ORIGIN` as a bit (R23). -/
def Origin.number : Origin → Nat
  | .enc => 0
  | .dec => 1

/-- `PHASE` as a number: 0 if no unit has run since reset or `CLEAR` (R23). -/
def phaseNumber : Option UnitOp → Nat
  | none => 0
  | some u => u.opcode

/-- `ERR` as a number: 0 for no error (R200). -/
def errNumber : Option ErrCode → Nat
  | none => 0
  | some e => e.number

/-- `STATUS` as a word (R23): `STATE + 4*FREQ_V + 8*TREE_V + 16*CODE_V + 32*PAY_V + 64*OUT_V + 128*ORIGIN + 256*PHASE`. -/
def State.status (s : State) : BitVec 16 :=
  BitVec.ofNat 16
    (s.stt.number + 4 * s.freq.valid.toNat + 8 * s.tree.valid.toNat + 16 * s.code.valid.toNat + 32 * s.pay.valid.toNat
      + 64 * s.out.valid.toNat + 128 * s.freq.origin.number + 256 * phaseNumber s.phase)

/-- The valid flag of a level (R34). -/
def State.flag (s : State) : Level → Bool
  | .freq => s.freq.valid
  | .tree => s.tree.valid
  | .code => s.code.valid
  | .pay => s.pay.valid
  | .out => s.out.valid

/-- The flag of a level is written to 1, the last act of a successful unit operation (R34, R192). -/
def State.setFlag (l : Level) (s : State) : State :=
  match l with
  | .freq => { s with freq := { s.freq with valid := true } }
  | .tree => { s with tree := { s.tree with valid := true } }
  | .code => { s with code := { s.code with valid := true } }
  | .pay => { s with pay := { s.pay with valid := true } }
  | .out => { s with out := { s.out with valid := true } }

/-- Every level `j` with `lo ≤ j ≤ hi` becomes invalid: flag 0, registers 0, contents unspecified (R35). -/
def State.invalidateRange (lo hi : Nat) (s : State) : State :=
  { s with
    freq := if lo ≤ 0 then .invalid else s.freq
    tree := if lo ≤ 1 ∧ 1 ≤ hi then .invalid else s.tree
    code := if lo ≤ 2 ∧ 2 ≤ hi then .invalid else s.code
    pay := if lo ≤ 3 ∧ 3 ≤ hi then .invalid else s.pay
    out := if lo ≤ 4 ∧ 4 ≤ hi then .invalid else s.out }

/-- `Invalidate(k)` (R35): level `k` and all above. -/
def State.invalidate (l : Level) (s : State) : State := s.invalidateRange l.index 4

/-- "`Invalidate` of levels 0 to 3", the variant of a host write to `IBUF` or `IN_LEN` (R35, R64). -/
def State.invalidateInput (s : State) : State := s.invalidateRange 0 3

end Sys2Proof.Machine
end

