-- ==== Sys2Proof/Machine/Ops.lean ====
section
/-! DEFINITION. The shared operations: reading and writing a table or a buffer, reading an entry as the core does,
how an error is entered and left (spec/60_exceptions.md R208, R210), and the unit wrapper (spec/46_commands.md R192). -/

namespace Sys2Proof.Machine

/-! ### Tables and buffers -/

/-- The unit stored at an address; `none` where the contents are unspecified. -/
def Store.read {α : Type} : Store α → Nat → Option α
  | [], _ => none
  | (k, v) :: rest, a => if k = a then some v else Store.read rest a

/-- Stores a unit at an address, keeping the addresses strictly rising. -/
def Store.write {α : Type} : Store α → Nat → α → Store α
  | [], a, v => [(a, v)]
  | (k, w) :: rest, a, v =>
    if a < k then (a, v) :: (k, w) :: rest
    else if a = k then (a, v) :: rest
    else (k, w) :: Store.write rest a v

/-- The units of a list at consecutive addresses from `base`, and nothing else. -/
def Store.ofList {α : Type} (base : Nat) : List α → Store α
  | [] => []
  | v :: vs => (base, v) :: Store.ofList (base + 1) vs

/-- The canonical form: addresses strictly rising. (An unlisted address reads as `none`, which no entry is.) -/
abbrev Store.wf {α : Type} (m : Store α) : Prop := (m.map Prod.fst).Pairwise (· < ·)

/-- The canonical form of a byte buffer. -/
abbrev Memory.wf (m : Memory) : Prop := Store.wf m

/-! ### Entries as the core reads them

Where nothing is listed the contents are unspecified, and the core finds a free value. -/

/-- `IBUF[a]` (R39). A byte the host has not written since reset is any value, the same at every reading (log 3). -/
def State.inByte (s : State) (a : Nat) : Byte := (Store.read s.ibuf a).getD (Config.freeByte s.fill a)

/-- `FREQT[x]` (R36). -/
def State.count (s : State) (x : Nat) : Nat := (Store.read s.freq.freqt x).getD (Config.freeCell s.fill x 0)

/-- A node record of free components, each of its width (R37). -/
def freeNode (f : Nat → Nat) (p : Params) : Node :=
  { kind := if f 1 % 2 = 0 then .leaf else .internal
    sym := BitVec.ofNat 8 (f 2)
    left := f 3 % 512
    right := f 4 % 512
    weight := f 5 % 2 ^ p.cntW }

/-- A code record of free components, each of its width (R38). -/
def freeCode (f : Nat → Nat) : Code := { len := f 6 % 256, bits := BitVec.ofNat 255 (f 7) }

/-- `NODET[i]` (R37). -/
def State.node (s : State) (i : Nat) : Node :=
  (Store.read s.tree.nodet i).getD (freeNode (Config.freeCell s.fill i) s.params)

/-- `CODET[x]` (R38). -/
def State.codeOf (s : State) (x : Nat) : Code := (Store.read s.code.codet x).getD (freeCode (Config.freeCell s.fill x))

/-- `PBUF[a]` (R41). -/
def State.payByte (s : State) (a : Nat) : Byte :=
  (Store.read s.pay.pbuf a).getD (BitVec.ofNat 8 (Config.freeCell s.fill a 8))

/-- `OBUF[a]` (R40); no command reads it, the statements do. -/
def State.outByte (s : State) (a : Nat) : Byte :=
  (Store.read s.out.obuf a).getD (BitVec.ofNat 8 (Config.freeCell s.fill a 9))

/-! ### Acceptance, errors, recovery -/

/-- A command is accepted: `STATE <- BUSY; ERR <- 0` (R190). This is also the recovery from an error (R210: "an
accepted command clears `ERR`"). `window` is how many host transactions land before the command ends. -/
def State.accept (i : Instr) (window : Nat) (s : State) : State := { s with stt := .busy i window, err := none }

/-- How an error is entered (R208): `STATE <- ERROR; ERR <- code`, and nothing else. "Nothing is pushed or saved
anywhere else": there is no handler, and the core waits for the next `CMD` write. A rejected command does this alone
(R190); for a failed unit the wrapper has already invalidated the unit's level. -/
def State.enterError (e : ErrCode) (s : State) : State := { s with stt := .error, err := some e }

/-- A command ends without error: `STATE <- DONE`; `ERR` stays 0 (R192). -/
def State.finishDone (s : State) : State := { s with stt := .done }

/-! ### The unit wrapper -/

/-- How the body of a unit ends: the new contents of its level, or `raise E`. -/
abbrev BodyResult := Except ErrCode State

/-- The first two lines of the unit wrapper (R192): `PHASE <- op(u)`, then `Invalidate(lv(u))`. -/
def State.startUnit (u : UnitOp) (s : State) : State := ({ s with phase := some u }).invalidate u.level

/-- `RunUnit(u)` (R192) with the unit's body: the state it leaves and the error, if the body raised one. A body that
raises leaves nothing behind: what it may have written of its level is invalidated again. -/
def runUnit (u : UnitOp) (body : State → BodyResult) (s : State) : State × Option ErrCode :=
  match body (s.startUnit u) with
  | .ok t => (t.setFlag u.level, none)
  | .error e => ((s.startUnit u).invalidate u.level, some e)

/-- The end of a command (R192, R193): `STATE <- DONE`, or `STATE <- ERROR; ERR <- code(E)`. -/
def endCommand : State × Option ErrCode → State
  | (s, none) => s.finishDone
  | (s, some e) => s.enterError e

/-- Two phases of a composite command (R193): the second runs only if the first has succeeded. -/
def andThen (r : State × Option ErrCode) (next : State → State × Option ErrCode) : State × Option ErrCode :=
  match r with
  | (s, none) => next s
  | (s, some e) => (s, some e)

end Sys2Proof.Machine
end

