-- ==== Sys2Proof/Machine/Operands.lean ====
section
/-! DEFINITION. The implicit operands of the commands (spec/30_encoding.md R93) and their prerequisites
(spec/46_commands.md R191). No command word carries an operand. -/

namespace Sys2Proof.Machine

/-- `IBUF[0..IN_LEN)`: the input of `FREQ`, `PACK` and `DESER`, in ascending address order (R69, R113). -/
def State.inputBytes (s : State) : List Byte := (List.range s.inLen).map s.inByte

/-- `PBUF[0..PAY_LEN)`: the payload that `SER` copies (R162). -/
def State.payloadBytes (s : State) : List Byte := (List.range s.pay.payLen).map s.payByte

/-- `OBUF[0..OUT_LEN)`: the result (R40). -/
def State.outputBytes (s : State) : List Byte := (List.range s.out.outLen).map s.outByte

/-- The number of payload bits on hand, `8 * (IN_LEN - PAY_OFF)` (R180). -/
def State.availBits (s : State) : Nat := 8 * (s.inLen - s.freq.payOff)

/-- Payload bit `k` of the decoder: bit `7 - (k mod 8)` of `IBUF[PAY_OFF + (k div 8)]` (R182, R66). -/
def State.payloadBit (s : State) (k : Nat) : Bool := (s.inByte (s.freq.payOff + k / 8)).getLsbD (7 - k % 8)

/-- All payload bits on hand, in the order they are consumed (R182). -/
def State.payloadBits (s : State) : List Bool := (List.range s.availBits).map s.payloadBit

/-- A code as the bit string `BITS[0] BITS[1] ... BITS[LEN-1]` (R38, R11). -/
def Code.path (c : Code) : List Bool := (List.range c.len).map c.bits.getLsbD

/-- The prerequisite of a command (R191). -/
def State.prereq (s : State) : Instr → Bool
  | .freq => true
  | .build => s.freq.valid
  | .assign => s.tree.valid
  | .pack => s.code.valid && s.freq.origin == .enc
  | .ser => s.pay.valid
  | .deser => true
  | .walk => s.tree.valid && s.freq.origin == .dec
  | .encode => true
  | .decode => true
  | .clear => true

/-- What the write of a legal command word does (R190), given what the command does once accepted: ignored while busy;
rejected with `SequenceError` if its prerequisite does not hold; else accepted and run to its end. -/
def runCommand (i : Instr) (finish : State → State) (s : State) : Host.Outcome State Fault Refusal :=
  if s.stt.isBusy then .next s
  else if s.prereq i then .next (finish (s.accept i 0))
  else .next (s.enterError .sequence)

end Sys2Proof.Machine
end

