-- ==== Sys2Proof/Machine/BitDecoder.lean ====
section
/-! DEFINITION. The bit decoder, command `WALK` (spec/45_bit_decoder.md R180 to R186). -/

namespace Sys2Proof.Machine

/-- One transition of the state machine (R181): left on 0, right on 1. -/
def descend (node : Nat → Node) (cur : Nat) (bit : Bool) : Nat := if bit then (node cur).right else (node cur).left

/-- The state machine of R180 and R181 on the payload bits that are left, the cursor and the number of symbols still to
emit. It stops as soon as that number is 0, without a look at the bits (R183); `none` is `raise CorruptStreamError`:
the bits are exhausted first (R185). -/
def walkBits (node : Nat → Node) (root : Nat) : List Bool → Nat → Nat → Option (List Byte)
  | _, _, 0 => some []
  | [], _, _ + 1 => none
  | bit :: bits, cur, missing + 1 =>
    match (node (descend node cur bit)).kind with
    | .leaf => (walkBits node root bits root missing).map ((node (descend node cur bit)).sym :: ·)
    | .internal => walkBits node root bits (descend node cur bit) (missing + 1)

/-- What `WALK` emits: the one symbol `TOTAL` times if the root is a leaf, no payload bit read (R184); else the output
of the state machine. -/
def State.decoded (s : State) : Option (List Byte) :=
  match (s.node s.tree.root).kind with
  | .leaf => some (List.replicate s.freq.total (s.node s.tree.root).sym)
  | .internal => walkBits s.node s.tree.root s.payloadBits s.tree.root s.freq.total

/-- The body of `WALK` (R180): the capacity test comes first (R186). -/
def walkBody (s : State) : BodyResult :=
  if s.freq.total > s.params.outCap then .error .capacity
  else
    match s.decoded with
    | none => .error .corruptStream
    | some bytes => .ok { s with out := { s.out with obuf := Store.ofList 0 bytes, outLen := s.freq.total } }

/-- `WALK` once accepted. -/
def finishWalk (s : State) : State := endCommand (runUnit .walk walkBody s)

/-- `WALK` (R180). -/
def execWalk (s : State) : Host.Outcome State Fault Refusal := runCommand .walk finishWalk s

end Sys2Proof.Machine
end

