-- ==== Sys2Proof/Machine/BitEncoder.lean ====
section
/-! DEFINITION. The bit encoder, command `PACK` (spec/43_bit_encoder.md R150 to R155). -/

namespace Sys2Proof.Machine

/-- The bitstream: the codes of the input bytes, one after the other, nothing in between (R151). -/
def State.codeStream (s : State) : List Bool := s.inputBytes.flatMap fun b => (s.codeOf b.toNat).path

/-- The bit length computed before packing: the sum over all symbols of `FREQT[s] * CODET[s].LEN` (R150, R154). -/
def State.streamLength (s : State) : Nat := (symbols.map fun x => s.count x * (s.codeOf x).len).sum

/-- The shift accumulator of R150: each bit enters `acc` at bit 0 and earlier bits move toward bit 7; every eighth
completes a byte (R152); a last partial byte is completed with zero bits (R153). -/
def packInto (acc : Byte) (nacc : Nat) : List Bool → List Byte
  | [] => if nacc = 0 then [] else [acc <<< (8 - nacc)]
  | b :: rest =>
    if nacc + 1 = 8 then (acc <<< 1 ||| BitVec.ofNat 8 b.toNat) :: packInto 0 0 rest
    else packInto (acc <<< 1 ||| BitVec.ofNat 8 b.toNat) (nacc + 1) rest

/-- The packed byte sequence of a bitstream (R150). -/
def packBits (bits : List Bool) : List Byte := packInto 0 0 bits

/-- The body of `PACK` (R150): the capacity test comes before any byte of `PBUF` is written (R155). -/
def packBody (s : State) : BodyResult :=
  if ceil8 s.streamLength > s.params.payCap then .error .capacity
  else
    .ok { s with
      pay := { s.pay with
        nbits := s.streamLength
        payLen := (packBits s.codeStream).length
        pbuf := Store.ofList 0 (packBits s.codeStream) } }

/-- `PACK` once accepted. -/
def finishPack (s : State) : State := endCommand (runUnit .pack packBody s)

/-- `PACK` (R150). -/
def execPack (s : State) : Host.Outcome State Fault Refusal := runCommand .pack finishPack s

end Sys2Proof.Machine
end

