-- ==== Sys2Proof/Machine/CodeTable.lean ====
section
/-! DEFINITION. The code-table generator, command `ASSIGN` (spec/42_code_assigner.md R140 to R145). -/

namespace Sys2Proof.Machine

/-- A bit sequence as the number whose bit `j` is its bit number `j` (R38). -/
def bitsToNat : List Bool → Nat
  | [] => 0
  | b :: rest => b.toNat + 2 * bitsToNat rest

/-- The code record of a path: `LEN = len(path)`, `BITS[j] = path bit j`, 0 above (R38, R140). -/
def Code.ofPath (path : List Bool) : Code := ⟨path.length, BitVec.ofNat 255 (bitsToNat path)⟩

/-- The record of a symbol without a code: `LEN = 0`, `BITS` all zero (R38). -/
def Code.empty : Code := ⟨0, 0⟩

/-- `visit(i, path)` of R140: the codes recorded below node `i`, left before right (R144). The first argument bounds
the depth; a valid arena is at most 255 deep (R8, R140; DESIGN CHOICE, log 9). -/
def visit (node : Nat → Node) : Nat → Nat → List Bool → List (Byte × List Bool)
  | 0, _, _ => []
  | depth + 1, i, path =>
    match (node i).kind with
    | .leaf => [((node i).sym, path)]
    | .internal =>
      visit node depth (node i).left (path ++ [false]) ++ visit node depth (node i).right (path ++ [true])

/-- The codes of the tree in the order they are recorded (R140); a root that is a leaf gets the code `"0"` (R142). -/
def treeCodes (node : Nat → Node) (root : Nat) : List (Byte × List Bool) :=
  match (node root).kind with
  | .leaf => [((node root).sym, [false])]
  | .internal => visit node 256 root []

/-- `CODET` from the codes recorded: all 256 entries (R140). -/
def codeTable (codes : List (Byte × List Bool)) : Store Code :=
  codes.foldl (fun t e => Store.write t e.1.toNat (Code.ofPath e.2)) (Store.ofList 0 (symbols.map fun _ => Code.empty))

/-- The body of `ASSIGN` (R140). -/
def assignBody (s : State) : BodyResult :=
  .ok { s with code := { s.code with codet := codeTable (treeCodes s.node s.tree.root) } }

/-- `ASSIGN` once accepted. -/
def finishAssign (s : State) : State := endCommand (runUnit .assign assignBody s)

/-- `ASSIGN` (R140). -/
def execAssign (s : State) : Host.Outcome State Fault Refusal := runCommand .assign finishAssign s

end Sys2Proof.Machine
end

