-- ==== Sys2Proof/Machine/Frequency.lean ====
section
/-! DEFINITION. The frequency counter, command `FREQ` (spec/40_frequency_counter.md R110 to R113). -/

namespace Sys2Proof.Machine

/-- The number of positions of the input that hold symbol `x` (R111); R113 allows any order of counting. -/
def occurrences (input : List Byte) (x : Nat) : Nat := input.countP fun b => b.toNat == x

/-- `FREQT` after counting: all 256 entries, 0 for a symbol that does not occur (R110). -/
def countTable (input : List Byte) : Store Nat := Store.ofList 0 (symbols.map (occurrences input))

/-- The number of symbols with a non-zero count (R28, R110). -/
def distinctSymbols (count : Nat → Nat) : Nat := symbols.countP fun x => count x != 0

/-- The body of `FREQ` (R110). -/
def freqBody (s : State) : BodyResult :=
  if s.inLen > s.params.inCap then .error .capacity
  else if s.inLen = 0 then .error .emptyInput
  else
    .ok { s with
      freq := { s.freq with
        freqt := countTable s.inputBytes
        total := s.inLen
        nsym := distinctSymbols (occurrences s.inputBytes)
        payOff := 0
        origin := .enc } }

/-- `FREQ` once accepted. -/
def finishFreq (s : State) : State := endCommand (runUnit .freq freqBody s)

/-- `FREQ` (R110). -/
def execFreq (s : State) : Host.Outcome State Fault Refusal := runCommand .freq finishFreq s

end Sys2Proof.Machine
end

