-- ==== Sys2Proof/Machine/Container.lean ====
section
/-! DEFINITION. The container serializer and deserializer, commands `SER` and `DESER` (spec/44_container.md R160 to
R171). -/

namespace Sys2Proof.Machine

/-- `LF = 0x0A` (R10). -/
def byteLF : Byte := 0x0A

/-- `SP = 0x20` (R10). -/
def byteSP : Byte := 0x20

/-- The ASCII byte of a decimal digit: `'0'..'9' = 0x30..0x39` (R10). -/
def digitByte (d : Nat) : Byte := BitVec.ofNat 8 (0x30 + d)

/-! ### Writer -/

/-- The decimal digits of a number, most significant first, no leading zero (R161). The first argument bounds the
number of digits. -/
def decDigits : Nat → Nat → List Byte
  | 0, _ => []
  | fuel + 1, v => if v < 10 then [digitByte v] else decDigits fuel (v / 10) ++ [digitByte (v % 10)]

/-- `dec(v)` (R161). -/
def dec (v : Nat) : List Byte := decDigits (v + 1) v

/-- `entry_line = dec(sym) SP dec(freq) LF` (R160). -/
def entryLine (sym freq : Nat) : List Byte := dec sym ++ [byteSP] ++ dec freq ++ [byteLF]

/-- `count_line = dec(N) LF` (R160). -/
def countLine (n : Nat) : List Byte := dec n ++ [byteLF]

/-- The header of a frequency table: the count line, then one entry line for each symbol with a non-zero count, in
ascending order of symbol value (R162, R163). -/
def header (nsym : Nat) (count : Nat → Nat) : List Byte :=
  countLine nsym ++ (symbols.filter fun x => count x != 0).flatMap fun x => entryLine x (count x)

/-- The body of `SER` (R162). -/
def serBody (s : State) : BodyResult :=
  if (header s.freq.nsym s.count).length + s.pay.payLen > s.params.outCap then .error .capacity
  else
    .ok { s with
      out := { s.out with
        obuf := Store.ofList 0 (header s.freq.nsym s.count ++ s.payloadBytes)
        outLen := (header s.freq.nsym s.count).length + s.pay.payLen } }

/-- `SER` once accepted. -/
def finishSer (s : State) : State := endCommand (runUnit .ser serBody s)

/-- `SER` (R162). -/
def execSer (s : State) : Host.Outcome State Fault Refusal := runCommand .ser finishSer s

/-! ### Reader

The parser works on the bytes from position `pos` to `IN_LEN`, so "`pos >= IN_LEN`" is the empty list and no byte
beyond `IN_LEN - 1` is read (R165). `none` is `raise CorruptStreamError`. -/

/-- `is_digit(c)` (R165). -/
def isDigit (c : Byte) : Bool := 0x30 ≤ c.toNat && c.toNat ≤ 0x39

/-- The digit loop of `parse_uint(limit)` (R165): the value so far, tested against the limit at every digit. -/
def parseDigits (limit : Nat) (v : Nat) : List Byte → Option (Nat × List Byte)
  | [] => some (v, [])
  | c :: rest =>
    if isDigit c then
      if v * 10 + (c.toNat - 0x30) > limit then none else parseDigits limit (v * 10 + (c.toNat - 0x30)) rest
    else some (v, c :: rest)

/-- A field starts with the digit `0` and another digit follows (R165: "leading zero"). -/
def leadingZero : List Byte → Bool
  | c :: d :: _ => c == 0x30 && isDigit d
  | _ => false

/-- `parse_uint(limit)` (R165). -/
def parseUint (limit : Nat) (input : List Byte) : Option (Nat × List Byte) :=
  match input with
  | [] => none
  | c :: _ =>
    if !isDigit c then none
    else if leadingZero input then none
    else parseDigits limit 0 input

/-- `expect(b)` (R165). -/
def expectByte (b : Byte) : List Byte → Option (List Byte)
  | [] => none
  | c :: rest => if c = b then some rest else none

/-- `FREQT` while the entry lines are read: all 256 entries, 0 at first (R164). -/
def zeroCounts : Store Nat := Store.ofList 0 (symbols.map fun _ => 0)

/-- One entry line (R164): the symbol and its frequency, which is not 0. -/
def parseEntry (cmax : Nat) (input : List Byte) : Option (Nat × Nat × List Byte) :=
  (parseUint 255 input).bind fun (x, r1) =>
  (expectByte byteSP r1).bind fun r2 =>
  (parseUint cmax r2).bind fun (f, r3) =>
  if f = 0 then none else
  (expectByte byteLF r3).map fun r4 => (x, f, r4)

/-- The `repeat n times` loop of R164: a symbol listed twice and a sum above `CMAX` are errors. -/
def parseEntries (cmax : Nat) : Nat → List Byte → Store Nat → Nat → Option (Store Nat × Nat × List Byte)
  | 0, rest, table, total => some (table, total, rest)
  | n + 1, input, table, total =>
    match parseEntry cmax input with
    | none => none
    | some (x, f, rest) =>
      if Store.read table x != some 0 then none
      else if total + f > cmax then none
      else parseEntries cmax n rest (Store.write table x f) (total + f)

/-- What the header of an artifact says, and the bytes after it. -/
structure ParsedHeader where
  nsym : Nat
  table : Store Nat
  total : Nat
  rest : List Byte
  deriving DecidableEq, Repr

/-- The header parser of R164. -/
def parseHeader (cmax : Nat) (input : List Byte) : Option ParsedHeader :=
  (parseUint 256 input).bind fun (n, r1) =>
  if n = 0 then none else
  (expectByte byteLF r1).bind fun r2 =>
  (parseEntries cmax n r2 zeroCounts 0).map fun (table, total, rest) => ⟨n, table, total, rest⟩

/-- The body of `DESER` (R164). -/
def deserBody (s : State) : BodyResult :=
  if s.inLen > s.params.inCap then .error .capacity
  else
    match parseHeader s.params.cmax s.inputBytes with
    | none => .error .corruptStream
    | some h =>
      .ok { s with
        freq := { s.freq with
          freqt := h.table
          nsym := h.nsym
          total := h.total
          payOff := s.inLen - h.rest.length
          origin := .dec } }

/-- `DESER` once accepted. -/
def finishDeser (s : State) : State := endCommand (runUnit .deser deserBody s)

/-- `DESER` (R164). -/
def execDeser (s : State) : Host.Outcome State Fault Refusal := runCommand .deser finishDeser s

end Sys2Proof.Machine
end

