-- ==== Sys2Proof/Machine/Tree.lean ====
section
/-! DEFINITION. The Huffman tree builder and its priority queue, command `BUILD` (spec/41_tree_builder.md R120 to
R131). R126 leaves the form of the queue open; here it is a list sorted by the key of R122. -/

namespace Sys2Proof.Machine

/-- A leaf record (R37). -/
def Node.leafOf (x : Nat) (weight : Nat) : Node := ⟨.leaf, BitVec.ofNat 8 x, 0, 0, weight⟩

/-- An internal record (R37, R123). -/
def Node.internalOf (left right weight : Nat) : Node := ⟨.internal, 0, left, right, weight⟩

/-- A key of the priority queue: weight, then arena index (R122). -/
abbrev Key := Nat × Nat

/-- The order of keys: lower weight first, among equal weights the lower index (R122). -/
def Key.before (a b : Key) : Bool := a.1 < b.1 || (a.1 == b.1 && a.2 < b.2)

/-- `PQ.insert` (R126). -/
def Key.insert (k : Key) : List Key → List Key
  | [] => [k]
  | h :: rest => if Key.before k h then k :: h :: rest else h :: Key.insert k rest

/-- The leaves, one for each symbol with a non-zero count, in ascending order of symbol value (R121). -/
def leaves (count : Nat → Nat) : List Node :=
  (symbols.filter fun x => count x != 0).map fun x => Node.leafOf x (count x)

/-- The queue after the leaf loop: every leaf inserted, in index order (R120). -/
def leafQueue (nodes : List Node) : List Key :=
  (nodes.zipIdx.map fun e => (e.1.weight, e.2)).foldl (fun q k => Key.insert k q) []

/-- The rounds of R123 on the arena so far and the queue: while the queue has two members, the two least keys `a`, `b`
are extracted and one internal node `LEFT = a`, `RIGHT = b` is created at the next free index and inserted. The first
argument bounds the rounds; each takes one member off the queue (R124; log 9). -/
def combine : Nat → List Node → List Key → List Node × List Key
  | fuel + 1, arena, a :: b :: rest =>
    combine fuel (arena ++ [Node.internalOf a.2 b.2 (a.1 + b.1)]) (Key.insert (a.1 + b.1, arena.length) rest)
  | _, arena, queue => (arena, queue)

/-- The arena of a frequency table and the queue that is left (R120). -/
def buildArena (count : Nat → Nat) : List Node × List Key :=
  combine (leaves count).length (leaves count) (leafQueue (leaves count))

/-- `ROOT <- PQ.extract_min()` (R124). The queue is never empty for a table with a symbol (R120, R45); for the empty
table, which no run reaches, the spec gives no root and the value is free (log 5). -/
def rootOf (fill : Nat) : List Key → Nat
  | k :: _ => k.2
  | [] => Config.freeCell fill nodeMax 10 % 512

/-- The body of `BUILD` (R120). -/
def buildBody (s : State) : BodyResult :=
  .ok { s with
    tree := { s.tree with
      nodet := Store.ofList 0 (buildArena s.count).1
      root := rootOf s.fill (buildArena s.count).2
      nnodes := (buildArena s.count).1.length } }

/-- `BUILD` once accepted. -/
def finishBuild (s : State) : State := endCommand (runUnit .build buildBody s)

/-- `BUILD` (R120). -/
def execBuild (s : State) : Host.Outcome State Fault Refusal := runCommand .build finishBuild s

end Sys2Proof.Machine
end

