-- ==== Sys2Proof/Machine/Commands.lean ====
section
/-! DEFINITION. The composite commands `ENCODE` and `DECODE` and the command `CLEAR` (spec/46_commands.md R193 to
R195). -/

namespace Sys2Proof.Machine

/-- The five phases of `ENCODE` (R193): `FREQ`, `BUILD`, `ASSIGN`, `PACK`, `SER`, up to the first that fails. -/
def encodePath (s : State) : State × Option ErrCode :=
  andThen (andThen (andThen (andThen (runUnit .freq freqBody s)
    (runUnit .build buildBody)) (runUnit .assign assignBody)) (runUnit .pack packBody)) (runUnit .ser serBody)

/-- `ENCODE` once accepted. -/
def finishEncode (s : State) : State := endCommand (encodePath s)

/-- `ENCODE` (R193). -/
def execEncode (s : State) : Host.Outcome State Fault Refusal := runCommand .encode finishEncode s

/-- The three phases of `DECODE` (R194): `DESER`, `BUILD`, `WALK`, up to the first that fails. -/
def decodePath (s : State) : State × Option ErrCode :=
  andThen (andThen (runUnit .deser deserBody s) (runUnit .build buildBody)) (runUnit .walk walkBody)

/-- `DECODE` once accepted. -/
def finishDecode (s : State) : State := endCommand (decodePath s)

/-- `DECODE` (R194). -/
def execDecode (s : State) : Host.Outcome State Fault Refusal := runCommand .decode finishDecode s

/-- `CLEAR` once accepted (R195): all levels invalid, `PHASE`, `ERR` 0, `STATE = IDLE`. -/
def finishClear (s : State) : State := { s.invalidate .freq with phase := none, err := none, stt := .idle }

/-- `CLEAR` (R195). -/
def execClear (s : State) : Host.Outcome State Fault Refusal := runCommand .clear finishClear s

/-- A running command comes to its end (R190, R192 to R195). -/
def finish : Instr → State → State
  | .freq => finishFreq
  | .build => finishBuild
  | .assign => finishAssign
  | .pack => finishPack
  | .ser => finishSer
  | .deser => finishDeser
  | .walk => finishWalk
  | .encode => finishEncode
  | .decode => finishDecode
  | .clear => finishClear

end Sys2Proof.Machine
end

