-- ==== Sys2Proof/Machine/Dispatch.lean ====
section
/-! DEFINITION. What each command does when its word is written to `CMD` (spec/46_commands.md R190). -/

namespace Sys2Proof.Machine

/-- The meaning of a command in a state: one arm per command. -/
def exec (i : Instr) (s : State) : Host.Outcome State Fault Refusal :=
  match i with
  | .freq => Sys2Proof.Machine.execFreq s
  | .build => Sys2Proof.Machine.execBuild s
  | .assign => Sys2Proof.Machine.execAssign s
  | .pack => Sys2Proof.Machine.execPack s
  | .ser => Sys2Proof.Machine.execSer s
  | .deser => Sys2Proof.Machine.execDeser s
  | .walk => Sys2Proof.Machine.execWalk s
  | .encode => Sys2Proof.Machine.execEncode s
  | .decode => Sys2Proof.Machine.execDecode s
  | .clear => Sys2Proof.Machine.execClear s

end Sys2Proof.Machine
end

