-- ==== Sys2Proof/Machine/HostPort.lean ====
section
/-! DEFINITION. The host transactions (spec/20_memory.md R60 to R64), while the core is not busy and while it is. -/

namespace Sys2Proof.Machine

/-! ### Register numbers (R21) -/

def regCMD : BitVec 8 := 0x00
def regSTATUS : BitVec 8 := 0x01
def regERR : BitVec 8 := 0x02
def regINLEN : BitVec 8 := 0x03
def regOUTLEN : BitVec 8 := 0x04
def regTOTAL : BitVec 8 := 0x05
def regNSYM : BitVec 8 := 0x06
def regPAYOFF : BitVec 8 := 0x07
def regROOT : BitVec 8 := 0x08
def regNNODES : BitVec 8 := 0x09
def regNBITS : BitVec 8 := 0x0A
def regPAYLEN : BitVec 8 := 0x0B

/-- The value of a register (R21 to R33): `CMD` reads 0, a reserved number reads 0. -/
def State.regValue (s : State) (n : BitVec 8) : Nat :=
  match n.toNat with
  | 0x00 => 0
  | 0x01 => s.status.toNat
  | 0x02 => errNumber s.err
  | 0x03 => s.inLen
  | 0x04 => s.out.outLen
  | 0x05 => s.freq.total
  | 0x06 => s.freq.nsym
  | 0x07 => s.freq.payOff
  | 0x08 => s.tree.root
  | 0x09 => s.tree.nnodes
  | 0x0A => s.pay.nbits
  | 0x0B => s.pay.payLen
  | _ => 0

/-- The width of a register (R21). A reserved number has none; the widest is taken for the free value of R63
(DESIGN CHOICE, log 14). -/
def regWidth (p : Params) (n : BitVec 8) : Nat :=
  match n.toNat with
  | 0x00 => 8
  | 0x01 => 16
  | 0x02 => 8
  | 0x03 => p.cntW
  | 0x04 => p.cntW
  | 0x05 => p.cntW
  | 0x06 => 9
  | 0x07 => p.cntW
  | 0x08 => 9
  | 0x09 => 9
  | 0x0A => p.nbW
  | 0x0B => p.cntW
  | _ => p.nbW

/-! ### Spaces (R60) -/

/-- The number of units of a space (R60). -/
def Space.size (p : Params) : Space → Nat
  | .ibuf => p.inCap
  | .obuf => p.outCap
  | .pbuf => p.payCap
  | .freqt => 256
  | .nodet => nodeMax
  | .codet => 256

/-- The unit 0 of a space: what an out-of-range read returns (R62). -/
def Space.zero : Space → Datum
  | .ibuf | .obuf | .pbuf => .byte 0
  | .freqt => .count 0
  | .nodet => .node ⟨.leaf, 0, 0, 0, 0⟩
  | .codet => .code ⟨0, 0⟩

/-- A unit of a space with free components, each of its width (R61: "an unspecified value"; log 4). -/
def Space.free (p : Params) (f : Nat → Nat) : Space → Datum
  | .ibuf | .obuf | .pbuf => .byte (BitVec.ofNat 8 (f 0))
  | .freqt => .count (f 0 % 2 ^ p.cntW)
  | .nodet => .node (freeNode f p)
  | .codet => .code (freeCode f)

/-- The unit of a space, where its contents are specified: a byte of `IBUF` the host has written (R39), an entry of a
table or buffer whose flag is 1 (R35), within the part the level's registers name (R37, R40, R41). -/
def State.specified (s : State) (sp : Space) (a : Nat) : Option Datum :=
  match sp with
  | .ibuf => (Store.read s.ibuf a).map .byte
  | .obuf => if s.out.valid && a < s.out.outLen then (Store.read s.out.obuf a).map .byte else none
  | .pbuf => if s.pay.valid && a < s.pay.payLen then (Store.read s.pay.pbuf a).map .byte else none
  | .freqt => if s.freq.valid then (Store.read s.freq.freqt a).map .count else none
  | .nodet => if s.tree.valid && a < s.tree.nnodes then (Store.read s.tree.nodet a).map .node else none
  | .codet => if s.code.valid then (Store.read s.code.codet a).map .code else none

/-- What `MemRead(S, a)` returns while the core is not busy (R61, R62). -/
def State.unitValue (s : State) (sp : Space) (a : Nat) : Datum :=
  if a < sp.size s.params then (s.specified sp a).getD (sp.free s.params (Config.freeRead s.tick)) else sp.zero

/-! ### Effects -/

/-- A read returns a value to the host and does nothing else (R69); the counter of free values advances. -/
def State.reply (r : Reply) (s : State) : State := { s with replies := r :: s.replies, tick := s.tick + 1 }

/-- `RegWrite(0x03, v)`: `IN_LEN <- v`, a value of `CNT_W` bits (a wider one is cut:
DESIGN CHOICE, log 7), then `Invalidate` of levels 0 to 3 (R61, R64). -/
def State.writeInLen (v : Nat) (s : State) : State := ({ s with inLen := v % 2 ^ s.params.cntW }).invalidateInput

/-- `MemWrite(IBUF, a, b)` (R61, R64); ignored at or above `IN_CAP` (R62). -/
def State.writeInput (a : Nat) (b : Byte) (s : State) : State :=
  if a < s.params.inCap then ({ s with ibuf := Store.write s.ibuf a b }).invalidateInput else s

/-- `Reset` (R230, R44): the core is as after reset, whatever it was doing. The parameters are wired and stay; the host
keeps what it has read and what it has yet to do; unspecified contents are new ones. -/
def State.resetCore (s : State) : State :=
  { State.reset with params := s.params, host := s.host, replies := s.replies, tick := s.tick + 1, fill := s.tick }

/-- A command word is presented while the core is not busy (R190). If transactions of the host are to land while the
command runs, an accepted command is left running; else it runs to its end at once (R63, R196 allow both). -/
def State.present (w : CmdWord) (window : Nat) (s : State) : Host.Outcome State Fault Refusal :=
  match decodeWord w with
  | .error _ => .next (s.enterError .illegalCommand)
  | .ok i => if window ≠ 0 && s.prereq i then .next (s.accept i window) else exec i s

/-- A transaction while the core is not busy (R61, R62). -/
def State.serve (op : HostOp) (s : State) : Host.Outcome State Fault Refusal :=
  match op.txn with
  | .regRead n => .next (s.reply (.reg (s.regValue n)))
  | .regWrite n v =>
    if n = regCMD then s.present (BitVec.ofNat 8 v) op.window
    else if n = regINLEN then .next (s.writeInLen v)
    else .next s
  | .memRead sp a => .next (s.reply (.datum (s.unitValue sp a)))
  | .memWrite sp a b => if sp = .ibuf then .next (s.writeInput a b) else .next s
  | .reset => .next s.resetCore

/-- What a register read returns while the core is busy (R63): `STATUS` has bits `[1:0]` equal to 1 and the rest free;
everything else is free. -/
def State.busyRegValue (s : State) (n : BitVec 8) : Nat :=
  if n = regSTATUS then 1 + 4 * (Config.freeRead s.tick 0 % 2 ^ 14)
  else Config.freeRead s.tick 0 % 2 ^ regWidth s.params n

/-- A transaction while the core is busy (R63): reads learn nothing but `BUSY`, every write is ignored, `Reset` acts. -/
def State.serveBusy (op : HostOp) (s : State) : State :=
  match op.txn with
  | .regRead n => s.reply (.reg (s.busyRegValue n))
  | .memRead sp _ => s.reply (.datum (sp.free s.params (Config.freeRead s.tick)))
  | .regWrite _ _ => s
  | .memWrite _ _ _ => s
  | .reset => s.resetCore

/-- One event while the command `cmd` runs: a transaction that still lands in the command's time (`window` of them
are to come), else the end of the command. Every accepted command ends (R239): with no transaction pending it ends
at once. -/
def State.runBusy (cmd : Instr) (window : Nat) (s : State) : State :=
  match window, s.host with
  | n + 1, op :: rest => ({ s with stt := .busy cmd n, host := rest }).serveBusy op
  | _, _ => finish cmd s

/-- One event while the core is not busy: the host's next transaction; without one, nothing happens (R212, R231). -/
def State.runIdle (s : State) : Host.Outcome State Fault Refusal :=
  match s.host with
  | [] => .next s
  | op :: rest => ({ s with host := rest }).serve op

end Sys2Proof.Machine
end

