-- ==== Sys2Proof/Machine/Step.lean ====
section
/-! DEFINITION. One step of the machine: one event at the host port or the end of the running command. -/

namespace Sys2Proof.Machine

/-- One step (R61, R63, R190, R196). -/
def step (s : State) : Host.Outcome State Fault Refusal :=
  match s.stt with
  | .busy cmd window => .next (s.runBusy cmd window)
  | .idle | .done | .error => s.runIdle

/-- The state in which the host's very next transaction writes the word `w` to `CMD`, with a command that ends at
once. If the core is busy, that transaction lands while it is. -/
def State.withFetchWord (s : State) (nbits w : Nat) : State :=
  { s with
    host := ⟨.regWrite regCMD (w % 2 ^ nbits), 0⟩ :: s.host
    stt :=
      match s.stt with
      | .busy cmd window => .busy cmd (window + 1)
      | .idle => .idle
      | .done => .done
      | .error => .error }

end Sys2Proof.Machine
end

