-- ==== Sys2Proof/Machine/Heap.lean ====
section
/-! DEFINITION. The heap realisation of the priority queue of `BUILD` (spec/41_tree_builder.md R127, R128), beside the
sorted list of `Machine/Tree.lean`, which the machine runs: R126 says that both give the same arena. -/

namespace Sys2Proof.Machine

/-- The heap array `HEAP[0..HSIZE)`, each member with its key (R127). `HSIZE` is the length. -/
abbrev Heap := List Key

/-- `key(HEAP[k])`. -/
def Heap.at (h : Heap) (k : Nat) : Key := h.getD k (0, 0)

/-- `(k - 1) div 2`, the parent of position `k > 0` (R127). -/
def Heap.parent (k : Nat) : Nat := (k - 1) / 2

/-- `swap HEAP[i], HEAP[j]`. -/
def Heap.swap (h : Heap) (i j : Nat) : Heap := (h.set i (h.at j)).set j (h.at i)

/-- The loop of `insert` (R127). The first argument bounds the rounds; each goes to a parent. -/
def Heap.up : Nat → Nat → Heap → Heap
  | fuel + 1, k, h =>
    if k ≠ 0 ∧ Key.before (h.at k) (h.at (Heap.parent k)) = true then
      Heap.up fuel (Heap.parent k) (h.swap k (Heap.parent k))
    else h
  | 0, _, h => h

/-- `insert` (R127). -/
def Heap.push (h : Heap) (x : Key) : Heap := Heap.up h.length h.length (h ++ [x])

/-- `m` of R128: the least of `k` and its children, `2k + 1` looked at before `2k + 2`. -/
def Heap.least (h : Heap) (k : Nat) : Nat :=
  let m := if 2 * k + 1 < h.length ∧ Key.before (h.at (2 * k + 1)) (h.at k) = true then 2 * k + 1 else k
  if 2 * k + 2 < h.length ∧ Key.before (h.at (2 * k + 2)) (h.at m) = true then 2 * k + 2 else m

/-- The loop of `extract_min` (R128). The first argument bounds the rounds; each goes to a child. -/
def Heap.down : Nat → Nat → Heap → Heap
  | fuel + 1, k, h => if h.least k = k then h else Heap.down fuel (h.least k) (h.swap k (h.least k))
  | 0, _, h => h

/-- `extract_min` (R128): the member at the top and what is left; none of an empty heap. -/
def Heap.pop : Heap → Option (Key × Heap)
  | [] => none
  | [r] => some (r, [])
  | r :: h :: t => some (r, Heap.down (h :: t).length 0 ((h :: t).getLast (by simp) :: (h :: t).dropLast))

/-- The heap property (R127). -/
def Heap.Ordered (h : Heap) : Prop :=
  ∀ k, 0 < k → k < h.length → Key.before (h.at (Heap.parent k)) (h.at k) = true

/-- The rounds of R120 with the heap in the place of the queue. -/
def combineByHeap : Nat → List Node → Heap → List Node × Heap
  | fuel + 1, arena, heap =>
    match heap.pop with
    | none => (arena, heap)
    | some (a, heap') =>
      match heap'.pop with
      | none => (arena, heap)
      | some (b, rest) =>
        combineByHeap fuel (arena ++ [Node.internalOf a.2 b.2 (a.1 + b.1)]) (rest.push (a.1 + b.1, arena.length))
  | 0, arena, heap => (arena, heap)

/-- The arena of a frequency table and the heap that is left, with the heap realisation throughout (R120, R127, R128). -/
def buildArenaByHeap (count : Nat → Nat) : List Node × Heap :=
  combineByHeap (leaves count).length (leaves count)
    (((leaves count).zipIdx.map fun e => (e.1.weight, e.2)).foldl Heap.push [])

end Sys2Proof.Machine
end

