-- ==== Sys2Proof/Machine/Stack.lean ====
section
/-! DEFINITION. The traversal of `ASSIGN` with the explicit stack of spec/42_code_assigner.md R144 (R42: its scratch),
beside the recursive `visit` of `Machine/CodeTable.lean`, which the machine runs: R144 says that both give the same
`CODET`. -/

namespace Sys2Proof.Machine

/-- An entry of the traversal stack: arena index, length, path (R144, R42). -/
structure StackEntry where
  index : Nat
  length : Nat
  path : List Bool
  deriving DecidableEq, Repr

/-- What the traversal works on: the stack, its top first, and `CODET` as written so far. -/
structure Traversal where
  stack : List StackEntry
  codet : Store Code
  deriving DecidableEq, Repr

/-- `code path` with the length that the entry carries (R38, R140). -/
def StackEntry.code (e : StackEntry) : Code := ⟨e.length, BitVec.ofNat 255 (bitsToNat e.path)⟩

/-- The entry of the left child on 0, of the right child on 1: one longer, one bit more on the path (R144, R141). -/
def StackEntry.child (node : Nat → Node) (e : StackEntry) (bit : Bool) : StackEntry :=
  ⟨if bit then (node e.index).right else (node e.index).left, e.length + 1, e.path ++ [bit]⟩

/-- One round of R144: pop; for a leaf write the code; for an internal node push the right child and then the left, "so
that the left child is popped first". On the empty stack nothing is left to do. -/
def Traversal.round (node : Nat → Node) (t : Traversal) : Traversal :=
  match t.stack with
  | [] => t
  | e :: rest =>
    match (node e.index).kind with
    | .leaf => ⟨rest, Store.write t.codet (node e.index).sym.toNat e.code⟩
    | .internal => ⟨e.child node false :: e.child node true :: rest, t.codet⟩

/-- A number of rounds. -/
def Traversal.rounds (node : Nat → Node) : Nat → Traversal → Traversal
  | 0, t => t
  | k + 1, t => Traversal.rounds node k (t.round node)

/-- `push (ROOT, 0, "")`, with every code empty (R144, R140). -/
def Traversal.start (root : Nat) : Traversal := ⟨[⟨root, 0, []⟩], Store.ofList 0 (symbols.map fun _ => Code.empty)⟩

/-- `CODET` as the traversal with the stack writes it: a root that is a leaf gets the code `"0"` (R142); else the rounds
run until the stack is empty, each on another node of the arena. -/
def codeTableByStack (node : Nat → Node) (root : Nat) : Store Code :=
  match (node root).kind with
  | .leaf => Store.write (Traversal.start root).codet (node root).sym.toNat (Code.ofPath [false])
  | .internal => ((Traversal.start root).rounds node nodeMax).codet

end Sys2Proof.Machine
end

