-- ==== Sys2Proof/Machine/Script.lean ====
section
/-! DEFINITION. The host-script notation (spec/30_encoding.md R95, R96): each line as the host transactions it stands
for. `polls` is the number of `BUSY` polls that `WAIT` makes, the duration of the command as the host sees it. -/

namespace Sys2Proof.Machine.Script

/-- A transaction that is not an accepted `CMD` write, or one whose command ends at once. -/
def op (t : Txn) : HostOp := ⟨t, 0⟩

/-- `RESET`. -/
def reset : HostOp := op .reset
/-- `WRI a, b`. -/
def wri (a : Nat) (b : Byte) : HostOp := op (.memWrite .ibuf a b)
/-- `WRR name, v`. -/
def wrr (n : BitVec 8) (v : Nat) : HostOp := op (.regWrite n v)
/-- `CMDW w`. -/
def cmdw (w : CmdWord) (polls : Nat) : HostOp := ⟨.regWrite regCMD w.toNat, polls⟩
/-- `CMD m`. -/
def cmd (i : Instr) (polls : Nat) : HostOp := cmdw (encodeWord i) polls
/-- `RDR name`. -/
def rdr (n : BitVec 8) : HostOp := op (.regRead n)
/-- `RD S[a]`. -/
def rd (sp : Space) (a : Nat) : HostOp := op (.memRead sp a)
/-- `WAIT`: `polls` reads that return `BUSY` and the one that does not. -/
def wait (polls : Nat) : List HostOp := List.replicate (polls + 1) (rdr regSTATUS)
/-- `LOAD b0 b1 ...` (R96). -/
def load (bytes : List Byte) : List HostOp :=
  (bytes.zipIdx.map fun e => wri e.2 e.1) ++ [wrr regINLEN bytes.length]
/-- `RUN m` (R96). -/
def run (i : Instr) (polls : Nat) : List HostOp := cmd i polls :: wait polls
/-- The reads of `EXPECT STATUS = v, ERR = e` (R96). -/
def expect : List HostOp := [rdr regSTATUS, rdr regERR]
/-- `DUMP` of `n` bytes (R96). -/
def dump (n : Nat) : List HostOp := rdr regOUTLEN :: (List.range n).map (rd .obuf)

end Sys2Proof.Machine.Script
end

