-- ==== Sys2Proof/Safety.lean ====
section
/-! DEFINITION. The invariants of the core (spec/10_state.md R45, spec/41_tree_builder.md R131) and the terms in which
the statements speak: paths in the tree, the text of an artifact, sequences of commands. -/

namespace Sys2Proof.Machine

/-! ### Paths in the tree -/

/-- The node reached from a node by a sequence of descents, left on 0, right on 1 (R141, R181). -/
def follow (node : Nat → Node) (start : Nat) (path : List Bool) : Nat := path.foldl (descend node) start

/-- The path leads from the root to a leaf with symbol `x` "and passes through no other leaf" (R145). -/
def LeafPath (node : Nat → Node) (root : Nat) (path : List Bool) (x : Byte) : Prop :=
  (∀ k < path.length, (node (follow node root (path.take k))).kind = .internal)
    ∧ (node (follow node root path)).kind = .leaf ∧ (node (follow node root path)).sym = x

/-- The path stays on internal nodes to its end: the bits run out "part-way down" or at the root (R185). -/
def InnerPath (node : Nat → Node) (root : Nat) (path : List Bool) : Prop :=
  ∀ k ≤ path.length, (node (follow node root (path.take k))).kind = .internal

/-- Node `i` is in the priority queue just before the internal node `j` is made: it exists, and no internal node made
earlier has taken it as a child (R120, R126). `n` is the number of leaves. -/
def Queued (node : Nat → Node) (n j i : Nat) : Prop :=
  i < j ∧ ∀ k, n ≤ k → k < j → (node k).left ≠ i ∧ (node k).right ≠ i

/-- The key of node `i` comes before the key of node `j` (R122). -/
def KeyBefore (node : Nat → Node) (i j : Nat) : Prop :=
  (node i).weight < (node j).weight ∨ (node i).weight = (node j).weight ∧ i < j

/-! ### The text of an artifact -/

/-- The entries of a header are admissible (R160, R166): 1 to 256 of them, symbols up to 255 and each listed once,
frequencies from 1 to `CMAX`, their sum at most `CMAX`. -/
structure ValidEntries (cmax : Nat) (entries : List (Nat × Nat)) : Prop where
  some_entry : 1 ≤ entries.length
  at_most_256 : entries.length ≤ 256
  symbol_range : ∀ e ∈ entries, e.1 ≤ 255
  freq_range : ∀ e ∈ entries, 1 ≤ e.2 ∧ e.2 ≤ cmax
  listed_once : (entries.map Prod.fst).Nodup
  sum_range : (entries.map Prod.snd).sum ≤ cmax

/-- `count_line entry_line{N}` (R160). -/
def headerText (entries : List (Nat × Nat)) : List Byte :=
  countLine entries.length ++ entries.flatMap fun e => entryLine e.1 e.2

/-- The frequency that a list of entries gives a symbol; 0 if it is not listed. -/
def freqOf (entries : List (Nat × Nat)) (x : Nat) : Nat := (entries.lookup x).getD 0

/-- Bit `k` of a sequence of bytes, the most significant bit of each byte first (R66, R152, R182). -/
def streamBit (bytes : List Byte) (k : Nat) : Bool := (bytes.getD (k / 8) 0).getLsbD (7 - k % 8)

/-- The payload of an artifact begins with the paths of `steps`, one for each symbol to decode, each from the root of the
tree that `BUILD` makes of the header's table to the leaf of the symbol beside it (R120, R181, R182, R183). -/
def PayloadPaths (entries : List (Nat × Nat)) (payload : List Byte) (steps : List (List Bool × Byte)) : Prop :=
  ∃ (node : Nat → Node) (surplus : List Bool),
    (∀ i < 2 * entries.length - 1, (buildArena (freqOf entries)).1[i]? = some (node i))
    ∧ (∀ e ∈ steps, LeafPath node (2 * entries.length - 2) e.1 e.2)
    ∧ steps.length = (entries.map Prod.snd).sum
    ∧ (List.range (8 * payload.length)).map (streamBit payload) = steps.flatMap Prod.fst ++ surplus

/-! ### What a state holds of its input and of its host port -/

/-- The parts of the state that no command writes: the parameters, `IN_LEN`, `IBUF` (every byte of it, R69: "never
written by the core"), the host port, and the model's counters of free values (log 3, 4). -/
structure SameHostSide (s t : State) : Prop where
  params : t.params = s.params
  inLen : t.inLen = s.inLen
  ibuf : t.ibuf = s.ibuf
  inByte : ∀ a, t.inByte a = s.inByte a
  host : t.host = s.host
  replies : t.replies = s.replies
  tick : t.tick = s.tick
  fill : t.fill = s.fill

/-- A transaction that returns a value to the host (R61). -/
def Txn.isRead : Txn → Bool
  | .regRead _ => true
  | .memRead _ _ => true
  | .regWrite _ _ => false
  | .memWrite _ _ _ => false
  | .reset => false

/-- The results of a command: everything a host can learn of the core but its input (R198). -/
structure SameOutcome (s t : State) : Prop where
  stt : t.stt = s.stt
  phase : t.phase = s.phase
  err : t.err = s.err
  freq : t.freq = s.freq
  tree : t.tree = s.tree
  code : t.code = s.code
  pay : t.pay = s.pay
  out : t.out = s.out

/-- Every level from `lo` up is invalid. -/
def InvalidFrom (lo : Nat) (s : State) : Prop :=
  (lo ≤ 0 → s.freq = .invalid) ∧ (lo ≤ 1 → s.tree = .invalid) ∧ (lo ≤ 2 → s.code = .invalid)
    ∧ (lo ≤ 3 → s.pay = .invalid) ∧ (lo ≤ 4 → s.out = .invalid)

/-- Every level below `hi` is the same in both states. -/
def SameBelow (hi : Nat) (s t : State) : Prop :=
  (0 < hi → t.freq = s.freq) ∧ (1 < hi → t.tree = s.tree) ∧ (2 < hi → t.code = s.code)
    ∧ (3 < hi → t.pay = s.pay) ∧ (4 < hi → t.out = s.out)

/-- The command of a unit (R91). -/
def UnitOp.command : UnitOp → Instr
  | .freq => .freq
  | .build => .build
  | .assign => .assign
  | .pack => .pack
  | .ser => .ser
  | .deser => .deser
  | .walk => .walk

/-- Commands one after the other, each awaited, stopped at the first that ends in `ERROR` (R199). -/
def execAll : List Instr → State → State
  | [], s => s
  | i :: rest, s =>
    match exec i s with
    | .next t => if t.stt = .error then t else execAll rest t
    | .fault _ => s
    | .refused _ => s

/-! ### Invariants (R45) -/

/-- Every table and buffer is in canonical form and lists only addresses of its space (R60). -/
structure StoresOk (s : State) : Prop where
  ibuf : Memory.wf s.ibuf ∧ ∀ e ∈ s.ibuf, e.1 < s.params.inCap
  freqt : Store.wf s.freq.freqt ∧ ∀ e ∈ s.freq.freqt, e.1 < 256
  nodet : Store.wf s.tree.nodet ∧ ∀ e ∈ s.tree.nodet, e.1 < nodeMax
  codet : Store.wf s.code.codet ∧ ∀ e ∈ s.code.codet, e.1 < 256
  pbuf : Memory.wf s.pay.pbuf ∧ ∀ e ∈ s.pay.pbuf, e.1 < s.params.payCap
  obuf : Memory.wf s.out.obuf ∧ ∀ e ∈ s.out.obuf, e.1 < s.params.outCap

/-- What `FREQ_V = 1` implies (R45 item 3, R36). -/
structure FreqFacts (s : State) : Prop where
  inLen : s.inLen ≤ s.params.inCap
  written : ∀ x < 256, (Store.read s.freq.freqt x).isSome
  nsym : s.freq.nsym = distinctSymbols s.count
  nsym_range : 1 ≤ s.freq.nsym ∧ s.freq.nsym ≤ 256
  total : s.freq.total = (symbols.map s.count).sum
  total_range : 1 ≤ s.freq.total ∧ s.freq.total ≤ s.params.cmax
  counted : s.freq.origin = .enc →
    (∀ x < 256, s.count x = occurrences s.inputBytes x) ∧ s.freq.total = s.inLen ∧ s.freq.payOff = 0
  parsed : s.freq.origin = .dec → 0 < s.freq.payOff ∧ s.freq.payOff ≤ s.inLen

/-- What `TREE_V = 1` implies (R45 item 4) and the shape of a valid arena (R131). -/
structure TreeFacts (s : State) : Prop where
  written : ∀ i < s.tree.nnodes, (Store.read s.tree.nodet i).isSome
  nnodes : s.tree.nnodes = 2 * s.freq.nsym - 1
  root : s.tree.root = 2 * s.freq.nsym - 2
  root_weight : (s.node s.tree.root).weight = s.freq.total
  weights : ∀ i < s.tree.nnodes, 1 ≤ (s.node i).weight ∧ (s.node i).weight ≤ s.freq.total
  leaves : (List.range s.freq.nsym).map s.node = leaves s.count
  internal : ∀ j < s.tree.nnodes, s.freq.nsym ≤ j →
    (s.node j).kind = .internal ∧ (s.node j).sym = 0 ∧ (s.node j).left < j ∧ (s.node j).right < j
      ∧ (s.node j).left ≠ (s.node j).right
      ∧ (s.node j).weight = (s.node (s.node j).left).weight + (s.node (s.node j).right).weight
  one_parent : ∀ i < s.tree.root, ∃ j < s.tree.nnodes, s.freq.nsym ≤ j ∧ ((s.node j).left = i ∨ (s.node j).right = i)
    ∧ ∀ k < s.tree.nnodes, s.freq.nsym ≤ k → ((s.node k).left = i ∨ (s.node k).right = i) → k = j

/-- What `CODE_V = 1` implies (R45 item 5, R38, R143). `zero_above` says `BITS[j] = 0` for `j >= LEN`. -/
structure CodeFacts (s : State) : Prop where
  written : ∀ x < 256, (Store.read s.code.codet x).isSome
  coded : ∀ x < 256, 0 < (s.codeOf x).len ↔ 0 < s.count x
  len_range : ∀ x < 256, (s.codeOf x).len ≤ 255
  zero_above : ∀ x < 256, (s.codeOf x).bits.toNat < 2 ^ (s.codeOf x).len
  lengths : 2 ≤ s.freq.nsym → ∀ x < 256, (s.codeOf x).len ≤ s.freq.nsym - 1
  prefix_free : 2 ≤ s.freq.nsym → ∀ x < 256, ∀ y < 256, 0 < s.count x → 0 < s.count y → x ≠ y →
    ¬ (s.codeOf x).path <+: (s.codeOf y).path
  single : s.freq.nsym = 1 → ∀ x < 256, 0 < s.count x → (s.codeOf x).path = [false]

/-- What `PAY_V = 1` implies (R45 item 6). -/
structure PayFacts (s : State) : Prop where
  written : ∀ a < s.pay.payLen, (Store.read s.pay.pbuf a).isSome
  nbits : s.pay.nbits = s.streamLength
  payLen : s.pay.payLen = ceil8 s.pay.nbits ∧ s.pay.payLen ≤ s.params.payCap

/-- What `OUT_V = 1` implies (R45 item 7). -/
structure OutFacts (s : State) : Prop where
  written : ∀ a < s.out.outLen, (Store.read s.out.obuf a).isSome
  outLen : s.out.outLen ≤ s.params.outCap

/-- The invariants of R45, with the shape of the arena (R131), the canonical form of every table and buffer, and, while
a command runs, its prerequisite. -/
structure Inv (s : State) : Prop where
  params : s.params.wellFormed = true
  inLen : s.inLen ≤ s.params.cmax
  stores : StoresOk s
  tree_needs_freq : s.tree.valid = true → s.freq.valid = true
  code_needs_tree : s.code.valid = true → s.tree.valid = true
  pay_needs_code : s.pay.valid = true → s.code.valid = true ∧ s.freq.origin = .enc
  freq_cleared : s.freq.valid = false → s.freq = .invalid
  tree_cleared : s.tree.valid = false → s.tree = .invalid
  code_cleared : s.code.valid = false → s.code = .invalid
  pay_cleared : s.pay.valid = false → s.pay = .invalid
  out_cleared : s.out.valid = false → s.out = .invalid
  freq : s.freq.valid = true → FreqFacts s
  tree : s.tree.valid = true → TreeFacts s
  code : s.code.valid = true → CodeFacts s
  pay : s.pay.valid = true → PayFacts s
  out : s.out.valid = true → OutFacts s
  error_iff : s.stt = .error ↔ s.err ≠ none
  err_raised : s.err ≠ some .ioUnavailable
  running : ∀ cmd window, s.stt = .busy cmd window → s.prereq cmd = true

end Sys2Proof.Machine
end

