-- ==== Sys2Proof/Certificates/Slice0/Obligations.lean ====
section
/-! DEFINITION. The statements for the provers, in the order of the spec: encoding, acceptance, the host port, the
units, the composite commands, the invariants. Each docstring names the rule it formalises. Where a docstring says
"the spec's own inference", the spec marks its sentence "[derived: …]" or "[from general knowledge, …]". -/

open Sys2Proof Sys2Proof.Machine

/-! ### Encoding -/

/-- R91: the ten words of the opcode map stand for the ten commands. -/
def Obligations.OpcodeMapDecodes : Prop :=
  decodeWord 0x01 = .ok .freq ∧ decodeWord 0x02 = .ok .build ∧ decodeWord 0x03 = .ok .assign
    ∧ decodeWord 0x04 = .ok .pack ∧ decodeWord 0x05 = .ok .ser ∧ decodeWord 0x06 = .ok .deser
    ∧ decodeWord 0x07 = .ok .walk ∧ decodeWord 0x08 = .ok .encode ∧ decodeWord 0x09 = .ok .decode
    ∧ decodeWord 0x0A = .ok .clear
    ∧ ∀ w i, decodeWord w = .ok i ↔ ∃ r ∈ opcodeMap, r.selects w = true ∧ r.instr = i

/-- R92: the illegal words are exactly `0x00` and `0x0B` to `0xFF`. -/
def Obligations.IllegalWordsAreTheOthers : Prop :=
  ∀ w : CmdWord, (∃ e, decodeWord w = .error e) ↔ (w.toNat = 0x00 ∨ 0x0B ≤ w.toNat)

/-- Decoding an encoded command gives it back with the bytes that follow, and a command has one word only (R90, R91). -/
def Obligations.DecodeEncodeAgree : Prop :=
  (∀ (i : Instr) (rest : List Byte), decode (encode i ++ rest) = .ok (i, rest))
    ∧ ∀ (w : CmdWord) (i : Instr), decodeWord w = .ok i → w = encodeWord i

/-! ### Acceptance -/

/-- A `CMD` write that carries a legal word and whose command ends at once runs `exec` of the decoded command, after the
transaction has left the host's queue (R61, R190). `withFetchWord` sets up exactly that, in every state, busy or not.
The queue and the time a command takes are the model's choice (log 2, 6). -/
def Obligations.StepRunsDecodedCommand : Prop :=
  (∀ (s : State) (v : Nat) (i : Instr) (rest : List HostOp), s.stt.isBusy = false →
      s.host = ⟨.regWrite regCMD v, 0⟩ :: rest → decodeWord (BitVec.ofNat 8 v) = .ok i →
      step s = exec i { s with host := rest })
    ∧ ∀ (s : State) (w : Nat) (i : Instr), decodeTableWord 8 w = some i → step (s.withFetchWord 8 w) = exec i s

/-- R204: an illegal word written while the core is not busy is rejected: `STATE` and `ERR` change and nothing else. -/
def Obligations.IllegalWordIsRejected : Prop :=
  ∀ (s : State) (v window : Nat) (rest : List HostOp), s.stt.isBusy = false →
    s.host = ⟨.regWrite regCMD v, window⟩ :: rest → (v % 256 = 0x00 ∨ 0x0B ≤ v % 256) →
    step s = .next { s with host := rest, stt := .error, err := some .illegalCommand }

/-- R191, R205: each command is started exactly when its prerequisite holds; else it is rejected with `SequenceError`,
and nothing but `STATE` and `ERR` changes. -/
def Obligations.PrerequisitesDecide : Prop :=
  ∀ s : State, s.stt.isBusy = false →
    (∀ i : Instr, (∃ t, exec i s = .next t ∧ t.err = some .sequence) →
      exec i s = .next { s with stt := .error, err := some .sequence })
    ∧ ((∃ t, exec .build s = .next t ∧ t.err = some .sequence) ↔ s.freq.valid = false)
    ∧ ((∃ t, exec .assign s = .next t ∧ t.err = some .sequence) ↔ s.tree.valid = false)
    ∧ ((∃ t, exec .pack s = .next t ∧ t.err = some .sequence) ↔ (s.code.valid = false ∨ s.freq.origin = .dec))
    ∧ ((∃ t, exec .ser s = .next t ∧ t.err = some .sequence) ↔ s.pay.valid = false)
    ∧ ((∃ t, exec .walk s = .next t ∧ t.err = some .sequence) ↔ (s.tree.valid = false ∨ s.freq.origin = .enc))
    ∧ ∀ i ∈ [Instr.freq, .deser, .encode, .decode, .clear], ∀ t, exec i s = .next t → t.err ≠ some .sequence

/-- R190: what a write to `CMD` does, in the order of the rule's tests; the value's low byte is the word (R61). `n` is how
many transactions land while the command runs (R196: any number from zero up; log 6): with none, the command runs to its
end in this step. -/
def Obligations.CommandWriteFollowsTheAcceptanceRule : Prop :=
  ∀ (s : State) (v n : Nat) (rest : List HostOp), s.host = ⟨.regWrite regCMD v, n⟩ :: rest →
    (∀ cmd m, s.stt = .busy cmd (m + 1) → step s = .next { s with stt := .busy cmd m, host := rest })
    ∧ (s.stt.isBusy = false → ∀ e, decodeWord (BitVec.ofNat 8 v) = .error e →
      step s = .next { s with host := rest, stt := .error, err := some .illegalCommand })
    ∧ (s.stt.isBusy = false → ∀ i, decodeWord (BitVec.ofNat 8 v) = .ok i → s.prereq i = false →
      step s = .next { s with host := rest, stt := .error, err := some .sequence })
    ∧ (s.stt.isBusy = false → ∀ i, decodeWord (BitVec.ofNat 8 v) = .ok i → s.prereq i = true →
      (n = 0 → ∃ t, step s = .next t ∧ t = finish i { s with host := rest, stt := .busy i 0, err := none }
        ∧ t.stt.isBusy = false)
      ∧ (n ≠ 0 → step s = .next { s with host := rest, stt := .busy i n, err := none }))

/-- R63: while the core is busy, every write is ignored (to `CMD`, `IN_LEN` or `IBUF` like any other), a read of `STATUS`
returns a value whose bits `[1:0]` are 1, any other read some value, no read changes anything, and `Reset` acts.
That a command still running is `busy cmd (n + 1)`, with `n + 1` transactions to land before it ends, and that each
transaction takes one off, is the model's choice (log 6), and so is the counter that a read advances (log 4). -/
def Obligations.BusyCoreShowsOnlyBusy : Prop :=
  ∀ (s : State) (cmd : Instr) (n k : Nat) (t : Txn) (rest : List HostOp), s.stt = .busy cmd (n + 1) →
    s.host = ⟨t, k⟩ :: rest →
    (((∃ r v, t = .regWrite r v) ∨ ∃ sp a b, t = .memWrite sp a b) →
      step s = .next { s with stt := .busy cmd n, host := rest })
    ∧ (((∃ r, t = .regRead r) ∨ ∃ sp a, t = .memRead sp a) → ∃ r : Reply,
      step s = .next { s with stt := .busy cmd n, host := rest, replies := r :: s.replies, tick := s.tick + 1 }
      ∧ (t = .regRead regSTATUS → ∃ v, r = .reg v ∧ v % 4 = 1 ∧ v < 2 ^ 16))
    ∧ (t = .reset → ∃ u, step s = .next u ∧ u.stt = .idle ∧ InvalidFrom 0 u ∧ u.err = none ∧ u.phase = none
      ∧ u.inLen = 0 ∧ u.ibuf = [] ∧ u.host = rest)

/-- R196, R63: how many transactions of the host land while a command runs makes no difference to the command. The host
writes `CMD` and makes the reads and writes `ops` before the command ends; the core is then as if the command had been
one step, and the host has the replies that it had, one more for each of its reads, and nothing else. The window and the
counter of free values, which each read advances, are the model's choice (log 6, 4). -/
def Obligations.BusyWindowIsUnobserved : Prop :=
  ∀ (s : State) (v : Nat) (i : Instr) (ops rest : List HostOp), s.stt.isBusy = false → ops ≠ [] →
    decodeWord (BitVec.ofNat 8 v) = .ok i → s.prereq i = true →
    s.host = ⟨.regWrite regCMD v, ops.length⟩ :: (ops ++ rest) → (∀ op ∈ ops, op.txn ≠ .reset) →
    ∃ t u : State, Sys2Proof.core.run (ops.length + 2) s = .next t ∧ exec i { s with host := rest } = .next u
      ∧ ∃ replies : List Reply, replies.length = ops.countP (fun op => op.txn.isRead)
        ∧ t = { u with replies := replies ++ s.replies, tick := s.tick + replies.length }

/-! ### The host port -/

/-- R230: `Reset` in any state, also in the middle of a command: registers 0, `IDLE`, contents unspecified, no error
report. (If the command's time is over before the transaction lands, one step ends the command and the next resets:
log 6. That the parameters and the host's side stay is log 10.) -/
def Obligations.ResetAbandonsEverything : Prop :=
  ∀ (s : State) (k : Nat) (rest : List HostOp), s.host = ⟨.reset, k⟩ :: rest →
    ∃ t : State, ((∀ cmd, s.stt ≠ .busy cmd 0) → step s = .next t)
      ∧ ((∃ cmd, s.stt = .busy cmd 0) → Sys2Proof.core.run 2 s = .next t)
      ∧ t.stt = .idle ∧ t.status = 0x0000 ∧ t.err = none ∧ t.inLen = 0
      ∧ InvalidFrom 0 t ∧ (∀ n : BitVec 8, t.regValue n = 0) ∧ (∀ sp a, t.specified sp a = none)
      ∧ t.params = s.params ∧ t.host = rest ∧ t.replies = s.replies

/-- R44: the state after reset. -/
def Obligations.ResetState : Prop :=
  State.reset.stt = .idle ∧ State.reset.status = 0x0000 ∧ State.reset.err = none ∧ State.reset.phase = none
    ∧ State.reset.inLen = 0 ∧ InvalidFrom 0 State.reset ∧ (∀ n : BitVec 8, State.reset.regValue n = 0)
    ∧ ∀ sp a, State.reset.specified sp a = none

/-- R23: the fields of `STATUS`. -/
def Obligations.StatusFields : Prop :=
  ∀ s : State,
    s.status.extractLsb' 0 2 = BitVec.ofNat 2 s.stt.number
    ∧ s.status.getLsbD 2 = s.freq.valid ∧ s.status.getLsbD 3 = s.tree.valid ∧ s.status.getLsbD 4 = s.code.valid
    ∧ s.status.getLsbD 5 = s.pay.valid ∧ s.status.getLsbD 6 = s.out.valid
    ∧ s.status.getLsbD 7 = (s.freq.origin == .dec)
    ∧ s.status.extractLsb' 8 4 = BitVec.ofNat 4 (phaseNumber s.phase)
    ∧ s.status.extractLsb' 12 4 = 0

/-- R21: a register read returns the register's value; `CMD` and the reserved numbers read 0. It has no side effect on
the core (R69). The counter that every read advances is the model's (log 4). -/
def Obligations.RegisterReads : Prop :=
  ∀ (s : State) (n : BitVec 8) (k : Nat) (rest : List HostOp), s.stt.isBusy = false →
    s.host = ⟨.regRead n, k⟩ :: rest →
    ∃ v : Nat,
      step s = .next { s with host := rest, replies := .reg v :: s.replies, tick := s.tick + 1 }
      ∧ (n = 0x00 → v = 0) ∧ (n = 0x01 → v = s.status.toNat) ∧ (n = 0x02 → v = errNumber s.err)
      ∧ (n = 0x03 → v = s.inLen) ∧ (n = 0x04 → v = s.out.outLen) ∧ (n = 0x05 → v = s.freq.total)
      ∧ (n = 0x06 → v = s.freq.nsym) ∧ (n = 0x07 → v = s.freq.payOff) ∧ (n = 0x08 → v = s.tree.root)
      ∧ (n = 0x09 → v = s.tree.nnodes) ∧ (n = 0x0A → v = s.pay.nbits) ∧ (n = 0x0B → v = s.pay.payLen)
      ∧ (0x0C ≤ n.toNat → v = 0)

/-- R61, R62, R35: a buffer or table read returns the unit where its contents are specified, 0 where the address is out
of range, and changes nothing of the core. The counter that every read advances is the model's (log 4). -/
def Obligations.MemoryReads : Prop :=
  ∀ (s : State) (sp : Space) (a k : Nat) (rest : List HostOp), s.stt.isBusy = false →
    s.host = ⟨.memRead sp a, k⟩ :: rest →
    ∃ d : Datum,
      step s = .next { s with host := rest, replies := .datum d :: s.replies, tick := s.tick + 1 }
      ∧ (sp.size s.params ≤ a → d = sp.zero)
      ∧ (a < sp.size s.params → ∀ e, s.specified sp a = some e → d = e)

/-- R64: a host write to `IBUF` (in range) or to `IN_LEN` stores the value and invalidates levels 0 to 3, level 4,
`STATE`, `ERR` and `PHASE` stay. A value for `IN_LEN` is one of its width (R21); a wider one is not the spec's (log 7). -/
def Obligations.HostWritesInvalidate : Prop :=
  ∀ (s : State) (k : Nat) (rest : List HostOp), s.stt.isBusy = false →
    (∀ a b, s.host = ⟨.memWrite .ibuf a b, k⟩ :: rest → a < s.params.inCap →
      ∃ t : State,
        step s = .next t ∧ t.inByte a = b ∧ (∀ c, c ≠ a → Store.read t.ibuf c = Store.read s.ibuf c)
        ∧ t = { s with
          host := rest, ibuf := t.ibuf, freq := .invalid, tree := .invalid, code := .invalid, pay := .invalid })
    ∧ (∀ v, s.host = ⟨.regWrite regINLEN v, k⟩ :: rest → v ≤ s.params.cmax →
      step s = .next { s with
        host := rest, inLen := v, freq := .invalid, tree := .invalid, code := .invalid, pay := .invalid })

/-- R62, R21: an access out of range is ignored if it is a write and returns 0 if it is a read; reserved register numbers
behave the same way. The counter that every read advances is the model's (log 4). -/
def Obligations.OutOfRangeAccesses : Prop :=
  ∀ (s : State) (k : Nat) (rest : List HostOp), s.stt.isBusy = false →
    (∀ sp a b, s.host = ⟨.memWrite sp a b, k⟩ :: rest → sp.size s.params ≤ a → step s = .next { s with host := rest })
    ∧ (∀ sp a, s.host = ⟨.memRead sp a, k⟩ :: rest → sp.size s.params ≤ a →
      step s = .next { s with host := rest, replies := .datum sp.zero :: s.replies, tick := s.tick + 1 })
    ∧ (∀ n v, s.host = ⟨.regWrite n v, k⟩ :: rest → 0x0C ≤ n.toNat → step s = .next { s with host := rest })
    ∧ (∀ n, s.host = ⟨.regRead n, k⟩ :: rest → 0x0C ≤ n.toNat →
      step s = .next { s with host := rest, replies := .reg 0 :: s.replies, tick := s.tick + 1 })

/-- R61, R21: writes to a space that the host may only read, and to a read-only register, are ignored. -/
def Obligations.ReadOnlyWritesAreIgnored : Prop :=
  ∀ (s : State) (k : Nat) (rest : List HostOp), s.stt.isBusy = false →
    (∀ sp a b, s.host = ⟨.memWrite sp a b, k⟩ :: rest → sp ≠ .ibuf → step s = .next { s with host := rest })
    ∧ (∀ n v, s.host = ⟨.regWrite n v, k⟩ :: rest → n ≠ 0x00 → n ≠ 0x03 → step s = .next { s with host := rest })

/-- R39: "a byte the host has written keeps its value until the host writes it again or reset occurs", whatever the step
is, and no command writes `IBUF`. -/
def Obligations.WrittenInputByteIsKept : Prop :=
  ∀ (s t : State) (a : Nat) (b : Byte), step s = .next t → Store.read s.ibuf a = some b →
    (∀ op rest, s.host = op :: rest → op.txn ≠ .reset ∧ ∀ c, op.txn ≠ .memWrite .ibuf a c) →
    Store.read t.ibuf a = some b ∧ t.inByte a = b

/-- R212, R231: nothing happens in the core that a transaction did not cause. That a machine whose host does nothing
steps to itself is the model's choice (log 2). -/
def Obligations.NothingHappensByItself : Prop :=
  ∀ s : State, s.stt.isBusy = false → s.host = [] → step s = .next s

/-- R239, the spec's own inference: every accepted command ends without any action of the host. That it ends within the
transactions of its window is the model's choice (log 6). -/
def Obligations.EveryCommandEnds : Prop :=
  (∀ (s : State) (cmd : Instr) (n : Nat), s.stt = .busy cmd n →
    ∃ k ≤ n + 1, ∃ t : State, Sys2Proof.core.run k s = .next t ∧ t.stt.isBusy = false)
    ∧ ∀ (s : State) (cmd : Instr) (n : Nat), s.stt = .busy cmd n → s.host = [] →
      ∃ t : State, step s = .next t ∧ t.stt.isBusy = false

/-- No step stops the machine: an error is the way a command ends (R208), and "Nothing in this spec has treatment
`stuck`". -/
def Obligations.EveryStepHasANextState : Prop :=
  (∀ s : State, ∃ t : State, step s = .next t) ∧ ∀ (i : Instr) (s : State), ∃ t : State, exec i s = .next t

/-! ### Levels, frames, errors -/

/-- R35: `Invalidate(k)` and its variant for levels 0 to 3. -/
def Obligations.InvalidateClearsLevelsFrom : Prop :=
  ∀ (l : Level) (s : State),
    InvalidFrom l.index (s.invalidate l) ∧ SameBelow l.index s (s.invalidate l)
    ∧ SameHostSide s (s.invalidate l) ∧ (s.invalidate l).stt = s.stt ∧ (s.invalidate l).err = s.err
    ∧ (s.invalidate l).phase = s.phase
    ∧ s.invalidateInput = { s with freq := .invalid, tree := .invalid, code := .invalid, pay := .invalid }

/-- The frame of every command, whatever its outcome: the parameters, `IN_LEN`, every byte of `IBUF` and the host port
are unchanged (R21, R39, R60: written by the core "never"). -/
def Obligations.CommandsKeepTheInput : Prop :=
  ∀ (i : Instr) (s t : State), exec i s = .next t → SameHostSide s t

/-- R192, R208: the frame of the seven unit commands. An accepted one keeps every level below its own; on failure
its level and all above are invalid, on success its level is valid and all above are invalid; `PHASE` is its opcode. -/
def Obligations.UnitCommandsTouchTheirLevelUp : Prop :=
  ∀ (u : UnitOp) (s t : State), s.stt.isBusy = false → s.prereq u.command = true → exec u.command s = .next t →
    SameBelow u.level.index s t ∧ InvalidFrom (u.level.index + 1) t ∧ t.phase = some u
    ∧ ((t.stt = .done ∧ t.err = none ∧ t.flag u.level = true)
      ∨ (t.stt = .error ∧ (∃ e, t.err = some e) ∧ InvalidFrom u.level.index t))

/-! ### `FREQ` -/

/-- R110, R111: `FREQ` counts the input. -/
def Obligations.FreqCountsTheInput : Prop :=
  ∀ s : State, s.stt.isBusy = false → 1 ≤ s.inLen → s.inLen ≤ s.params.inCap →
    ∃ t : State, exec .freq s = .next t ∧ t.stt = .done ∧ t.err = none ∧ t.status = 0x0106
      ∧ (∀ x < 256, t.specified .freqt x = some (.count ((List.range s.inLen).countP fun i => (s.inByte i).toNat == x)))
      ∧ t.freq.total = s.inLen ∧ t.freq.nsym = distinctSymbols t.count ∧ t.freq.payOff = 0 ∧ t.freq.origin = .enc
      ∧ (symbols.map t.count).sum = s.inLen
      ∧ InvalidFrom 1 t ∧ SameHostSide s t

/-- R110, R112: the two errors of `FREQ`, with all five flags 0. -/
def Obligations.FreqFails : Prop :=
  ∀ s : State, s.stt.isBusy = false →
    (s.params.inCap < s.inLen →
      exec .freq s = .next { s with
        stt := .error, err := some .capacity, phase := some .freq, freq := .invalid, tree := .invalid, code := .invalid,
        pay := .invalid, out := .invalid })
    ∧ (s.inLen = 0 →
      exec .freq s = .next { s with
        stt := .error, err := some .emptyInput, phase := some .freq, freq := .invalid, tree := .invalid, code := .invalid,
        pay := .invalid, out := .invalid })

/-! ### `BUILD` -/

/-- R120, R121: `BUILD` succeeds and makes a valid arena. Its size, its root and its shape are the spec's own inference
(R124, R130, R131). -/
def Obligations.BuildMakesAValidArena : Prop :=
  ∀ s : State, Inv s → s.stt.isBusy = false → s.freq.valid = true →
    ∃ t : State, exec .build s = .next t ∧ t.stt = .done ∧ t.err = none ∧ t.phase = some .build ∧ t.tree.valid = true
      ∧ t.tree.nnodes = 2 * s.freq.nsym - 1 ∧ t.tree.root = 2 * s.freq.nsym - 2
      ∧ (t.node t.tree.root).weight = s.freq.total ∧ TreeFacts t
      ∧ t.freq = s.freq ∧ InvalidFrom 2 t ∧ SameHostSide s t

/-- R122, R123: each internal node is made of the two nodes of least key in the queue at that time, the least as its left
child, the next as its right child, with the sum of their weights and no symbol. -/
def Obligations.BuildCombinesTheTwoLeastKeys : Prop :=
  ∀ s : State, Inv s → s.stt.isBusy = false → s.freq.valid = true →
    ∃ t : State, exec .build s = .next t ∧ t.tree.valid = true
      ∧ ∀ j, s.freq.nsym ≤ j → j < t.tree.nnodes →
        Queued t.node s.freq.nsym j (t.node j).left ∧ Queued t.node s.freq.nsym j (t.node j).right
        ∧ (∀ i, Queued t.node s.freq.nsym j i → i ≠ (t.node j).left → KeyBefore t.node (t.node j).left i)
        ∧ (∀ i, Queued t.node s.freq.nsym j i → i ≠ (t.node j).left → i ≠ (t.node j).right →
            KeyBefore t.node (t.node j).right i)
        ∧ (t.node j).left ≠ (t.node j).right ∧ (t.node j).kind = .internal ∧ (t.node j).sym = 0
        ∧ (t.node j).weight = (t.node (t.node j).left).weight + (t.node (t.node j).right).weight

/-- R125: one distinct symbol gives a single leaf as the root. -/
def Obligations.BuildOfOneSymbolIsALeaf : Prop :=
  ∀ (s : State) (x : Nat), s.stt.isBusy = false → s.freq.valid = true → x < 256 → s.count x ≠ 0 →
    (∀ y < 256, y ≠ x → s.count y = 0) →
    ∃ t : State, exec .build s = .next t ∧ t.stt = .done ∧ t.tree.root = 0 ∧ t.tree.nnodes = 1
      ∧ t.node 0 = ⟨.leaf, BitVec.ofNat 8 x, 0, 0, s.count x⟩

/-- R129, the spec's own inference: `BUILD` reads nothing but `FREQT`: from equal tables it makes the same arena, on
whichever path. -/
def Obligations.SameTableSameTree : Prop :=
  ∀ s s' t t' : State, s.stt.isBusy = false → s'.stt.isBusy = false → s.freq.valid = true → s'.freq.valid = true →
    (∀ x < 256, ∃ c, Store.read s.freq.freqt x = some c ∧ Store.read s'.freq.freqt x = some c) →
    (∃ x < 256, s.count x ≠ 0) → exec .build s = .next t → exec .build s' = .next t' → t'.tree = t.tree

/-- R127, R128: `insert` and `extract_min` keep the heap property and the members, and what `extract_min` takes is the
least of them (R126). The heap is the spec's own ("from general knowledge, not in source"); the machine runs a sorted
list (log 15). -/
def Obligations.HeapOperationsKeepTheHeap : Prop :=
  (∀ (h : Heap) (x : Key), h.Ordered → (h.map Prod.snd).Nodup → x.2 ∉ h.map Prod.snd →
    (h.push x).Ordered ∧ (h.push x).Perm (x :: h))
  ∧ ∀ h : Heap, h.Ordered → (h.map Prod.snd).Nodup → h ≠ [] →
    ∃ r rest, h.pop = some (r, rest) ∧ Heap.Ordered rest ∧ h.Perm (r :: rest)
      ∧ ∀ e ∈ rest, r.1 < e.1 ∨ r.1 = e.1 ∧ r.2 < e.2

/-- R126, the spec's own inference: with the heap of R127 and R128 in the place of the sorted list, `BUILD` makes the same
arena, with the same root, from every table. -/
def Obligations.HeapBuildsTheSameArena : Prop := ∀ count : Nat → Nat, buildArenaByHeap count = buildArena count

/-! ### `ASSIGN` -/

/-- R140, R141: with two symbols or more, `ASSIGN` gives each symbol of the table the path from the root to its leaf
(R145, the spec's own inference). The stack of R144 makes the same `CODET`, one round for each node, and never holds more
than 256 entries (the spec's own inference; the machine runs the recursive `visit`: log 13, 15). -/
def Obligations.AssignGivesLeafPaths : Prop :=
  ∀ s : State, Inv s → s.stt.isBusy = false → s.tree.valid = true → 2 ≤ s.freq.nsym →
    ∃ t : State, exec .assign s = .next t ∧ t.stt = .done ∧ t.err = none ∧ t.phase = some .assign ∧ t.code.valid = true
      ∧ (∀ x < 256, 0 < s.count x → LeafPath s.node s.tree.root (t.codeOf x).path (BitVec.ofNat 8 x))
      ∧ (∀ x < 256, s.count x = 0 → t.codeOf x = ⟨0, 0⟩)
      ∧ t.code.codet = codeTableByStack s.node s.tree.root
      ∧ ((Traversal.start s.tree.root).rounds s.node s.tree.nnodes).stack = []
      ∧ (∀ k, ((Traversal.start s.tree.root).rounds s.node k).stack.length ≤ 256)
      ∧ t.freq = s.freq ∧ t.tree = s.tree ∧ InvalidFrom 3 t ∧ SameHostSide s t

/-- R143, the spec's own inference: the symbols with a code are those of the table; with two symbols or more no code is a
prefix of another, and every code has between 1 and `NSYM - 1` bits. -/
def Obligations.AssignedCodesArePrefixFree : Prop :=
  ∀ s : State, Inv s → s.stt.isBusy = false → s.tree.valid = true →
    ∃ t : State, exec .assign s = .next t ∧ t.stt = .done
      ∧ (∀ x < 256, 0 < (t.codeOf x).len ↔ 0 < s.count x)
      ∧ (2 ≤ s.freq.nsym →
        (∀ x < 256, 0 < s.count x → 1 ≤ (t.codeOf x).len ∧ (t.codeOf x).len ≤ s.freq.nsym - 1)
        ∧ ∀ x < 256, ∀ y < 256, 0 < s.count x → 0 < s.count y → x ≠ y →
          ¬ (t.codeOf x).path <+: (t.codeOf y).path)
      ∧ (s.freq.nsym = 1 → ∀ x < 256, 0 < s.count x → (t.codeOf x).path = [false])

/-- R142: if the root is a leaf, its symbol gets the code `"0"`, and no other symbol gets one; the traversal with the stack
of R144 makes the same `CODET`. -/
def Obligations.AssignOfALeafRoot : Prop :=
  ∀ s : State, s.stt.isBusy = false → s.tree.valid = true → (s.node s.tree.root).kind = .leaf →
    ∃ t : State, exec .assign s = .next t ∧ t.stt = .done
      ∧ t.codeOf (s.node s.tree.root).sym.toNat = ⟨1, 0⟩ ∧ (t.codeOf (s.node s.tree.root).sym.toNat).path = [false]
      ∧ (∀ x < 256, x ≠ (s.node s.tree.root).sym.toNat → t.codeOf x = ⟨0, 0⟩)
      ∧ t.code.codet = codeTableByStack s.node s.tree.root

/-- R143, the spec's own inference ("from general knowledge, not in source"): the code lengths of two symbols or more
satisfy the Kraft equality (scaled by `2^255`). -/
def Obligations.AssignedCodesMeetKraft : Prop :=
  ∀ s t : State, Inv s → s.stt.isBusy = false → s.tree.valid = true → 2 ≤ s.freq.nsym → exec .assign s = .next t →
    ((symbols.filter fun x => s.count x != 0).map fun x => 2 ^ (255 - (t.codeOf x).len)).sum = 2 ^ 255

/-! ### `PACK` -/

/-- R151, R152, R153: `PACK` stores the codes of the input bytes one after the other, most significant bit first, and
completes the last byte with zero bits. -/
def Obligations.PackStoresTheBitstream : Prop :=
  ∀ s : State, Inv s → s.stt.isBusy = false → s.code.valid = true → s.freq.origin = .enc →
    ceil8 (s.inputBytes.flatMap fun b => (s.codeOf b.toNat).path).length ≤ s.params.payCap →
    ∃ t : State, exec .pack s = .next t ∧ t.stt = .done ∧ t.err = none ∧ t.status = 0x043E
      ∧ t.pay.nbits = (s.inputBytes.flatMap fun b => (s.codeOf b.toNat).path).length
      ∧ t.pay.payLen = ceil8 t.pay.nbits
      ∧ (∀ k < t.pay.nbits,
          (t.payByte (k / 8)).getLsbD (7 - k % 8) = (s.inputBytes.flatMap fun b => (s.codeOf b.toNat).path).getD k false)
      ∧ (∀ k, t.pay.nbits ≤ k → k < 8 * t.pay.payLen → (t.payByte (k / 8)).getLsbD (7 - k % 8) = false)
      ∧ (∀ a < t.pay.payLen, t.specified .pbuf a = some (.byte (t.payByte a)))
      ∧ t.freq = s.freq ∧ t.tree = s.tree ∧ t.code = s.code ∧ InvalidFrom 4 t ∧ SameHostSide s t

/-- R154: the length of the payload in bits is the sum over the input bytes of their code lengths, which is the sum over
the symbols of `FREQT[s] * CODET[s].LEN`. -/
def Obligations.PackLengthIsTheSumOfCodeLengths : Prop :=
  ∀ s t : State, Inv s → s.stt.isBusy = false → s.code.valid = true → s.freq.origin = .enc → exec .pack s = .next t →
    t.pay.valid = true →
    t.pay.nbits = (s.inputBytes.map fun b => (s.codeOf b.toNat).len).sum
    ∧ t.pay.nbits = (symbols.map fun x => s.count x * (s.codeOf x).len).sum
    ∧ t.pay.payLen = ceil8 t.pay.nbits ∧ 8 * t.pay.payLen - t.pay.nbits ≤ 7

/-- R155: a payload that does not fit `PBUF` is a `CapacityError`, and level 3 is left invalid. -/
def Obligations.PackFails : Prop :=
  ∀ s : State, s.stt.isBusy = false → s.code.valid = true → s.freq.origin = .enc →
    s.params.payCap < ceil8 (symbols.map fun x => s.count x * (s.codeOf x).len).sum →
    exec .pack s = .next { s with
      stt := .error, err := some .capacity, phase := some .pack, pay := .invalid, out := .invalid }

/-! ### The text of the header -/

/-- R161: `dec(v)` consists of digits, has no leading zero unless it is `0` itself, and denotes `v`, most significant
digit first. -/
def Obligations.DecimalTextIsShortest : Prop :=
  ∀ v : Nat,
    (∀ b ∈ dec v, 0x30 ≤ b.toNat ∧ b.toNat ≤ 0x39)
    ∧ (dec v).foldl (fun acc b => acc * 10 + (b.toNat - 0x30)) 0 = v
    ∧ (v = 0 → dec v = [0x30]) ∧ (v ≠ 0 → (dec v).head? ≠ some 0x30) ∧ dec v ≠ []

/-- R165: "The accepted fields are exactly the outputs of `dec` for values `0..limit`", a field is the longest run of
digits, and `expect(b)` reads one fixed byte. -/
def Obligations.ParsedFieldsAreExactlyDecimalText : Prop :=
  (∀ (limit v : Nat) (input rest : List Byte),
    parseUint limit input = some (v, rest) ↔
      input = dec v ++ rest ∧ v ≤ limit ∧ ∀ c ∈ rest.head?, ¬ (0x30 ≤ c.toNat ∧ c.toNat ≤ 0x39))
    ∧ ∀ (b : Byte) (input rest : List Byte), expectByte b input = some rest ↔ input = b :: rest

/-! ### `SER` -/

/-- R162, R160, R163: `SER` writes the header (the count line, then one line for each symbol of the table in ascending
order) and behind it the payload. -/
def Obligations.SerWritesTheArtifact : Prop :=
  ∀ s : State, Inv s → s.stt.isBusy = false → s.pay.valid = true →
    (headerText ((symbols.filter fun x => s.count x != 0).map fun x => (x, s.count x))).length + s.pay.payLen
      ≤ s.params.outCap →
    ∃ t : State, exec .ser s = .next t ∧ t.stt = .done ∧ t.err = none ∧ t.status = 0x057E
      ∧ t.outputBytes =
          headerText ((symbols.filter fun x => s.count x != 0).map fun x => (x, s.count x)) ++ s.payloadBytes
      ∧ t.out.outLen = t.outputBytes.length
      ∧ (∀ a < t.out.outLen, t.specified .obuf a = some (.byte (t.outByte a)))
      ∧ t.freq = s.freq ∧ t.tree = s.tree ∧ t.code = s.code ∧ t.pay = s.pay ∧ SameHostSide s t

/-- R162, R206: an artifact that does not fit `OBUF` is a `CapacityError`; levels 0 to 3 stay. -/
def Obligations.SerFails : Prop :=
  ∀ s : State, s.stt.isBusy = false → s.pay.valid = true →
    s.params.outCap < (header s.freq.nsym s.count).length + s.pay.payLen →
    exec .ser s = .next { s with stt := .error, err := some .capacity, phase := some .ser, out := .invalid }

/-! ### `DESER` -/

/-- R164, R167, R168: `DESER` accepts every admissible header, whatever the order of its lines, and takes its table from
it; the payload begins right after it. -/
def Obligations.DeserParsesTheHeader : Prop :=
  ∀ (s : State) (entries : List (Nat × Nat)) (payload : List Byte), s.stt.isBusy = false →
    s.inLen ≤ s.params.inCap → ValidEntries s.params.cmax entries → s.inputBytes = headerText entries ++ payload →
    ∃ t : State, exec .deser s = .next t ∧ t.stt = .done ∧ t.err = none ∧ t.status = 0x0686
      ∧ t.freq.nsym = entries.length ∧ t.freq.total = (entries.map Prod.snd).sum
      ∧ (∀ x < 256, t.specified .freqt x = some (.count (freqOf entries x)))
      ∧ t.freq.payOff = (headerText entries).length ∧ t.freq.origin = .dec
      ∧ InvalidFrom 1 t ∧ SameHostSide s t

/-- R166: every other input is a `CorruptStreamError`, with all five flags 0; R164: an input longer than `IBUF` is a
`CapacityError`. -/
def Obligations.DeserRejectsEverythingElse : Prop :=
  ∀ s : State, s.stt.isBusy = false →
    (s.inLen ≤ s.params.inCap →
      (¬ ∃ entries payload, ValidEntries s.params.cmax entries ∧ s.inputBytes = headerText entries ++ payload) →
      exec .deser s = .next { s with
        stt := .error, err := some .corruptStream, phase := some .deser, freq := .invalid, tree := .invalid,
        code := .invalid, pay := .invalid, out := .invalid })
    ∧ (s.params.inCap < s.inLen →
      exec .deser s = .next { s with
        stt := .error, err := some .capacity, phase := some .deser, freq := .invalid, tree := .invalid, code := .invalid,
        pay := .invalid, out := .invalid })

/-- R171, the spec's own inference: the header that `SER` writes for a counted table is accepted by `DESER`, which finds the same table, `NSYM` and
`TOTAL`, and the payload at the header's length. -/
def Obligations.DeserReadsWhatSerWrites : Prop :=
  ∀ s t s' : State, Inv s → s.stt.isBusy = false → s.pay.valid = true → exec .ser s = .next t → t.stt = .done →
    s'.stt.isBusy = false → s'.params = s.params → s'.inLen ≤ s'.params.inCap → s'.inputBytes = t.outputBytes →
    ∃ t' : State, exec .deser s' = .next t' ∧ t'.stt = .done
      ∧ (∀ x < 256, t'.count x = s.count x) ∧ t'.freq.nsym = s.freq.nsym ∧ t'.freq.total = s.freq.total
      ∧ t'.freq.payOff + s.pay.payLen = t.out.outLen ∧ t'.freq.origin = .dec

/-! ### `WALK` -/

/-- R181, R182, R183: if the payload begins with `TOTAL` paths that each lead from the root to a leaf, `WALK` emits the
symbols of those leaves in order, whatever bits follow. -/
def Obligations.WalkEmitsTheLeavesReached : Prop :=
  ∀ (s : State) (steps : List (List Bool × Byte)) (surplus : List Bool), s.stt.isBusy = false → s.tree.valid = true →
    s.freq.origin = .dec → (s.node s.tree.root).kind = .internal → s.freq.total ≤ s.params.outCap →
    (∀ e ∈ steps, LeafPath s.node s.tree.root e.1 e.2) → steps.length = s.freq.total →
    s.payloadBits = steps.flatMap Prod.fst ++ surplus →
    ∃ t : State, exec .walk s = .next t ∧ t.stt = .done ∧ t.err = none ∧ t.phase = some .walk ∧ t.out.valid = true
      ∧ t.outputBytes = steps.map Prod.snd ∧ t.out.outLen = s.freq.total
      ∧ (∀ a < t.out.outLen, t.specified .obuf a = some (.byte (t.outByte a)))
      ∧ t.freq = s.freq ∧ t.tree = s.tree ∧ t.code = s.code ∧ t.pay = s.pay ∧ SameHostSide s t

/-- R185: if the payload bits run out before `TOTAL` symbols have been emitted, at the root or part-way down, `WALK` ends
with `CorruptStreamError` and level 4 is invalid. -/
def Obligations.WalkRunsOutOfBits : Prop :=
  ∀ (s : State) (steps : List (List Bool × Byte)) (tail : List Bool), s.stt.isBusy = false → s.tree.valid = true →
    s.freq.origin = .dec → s.freq.total ≤ s.params.outCap →
    (∀ e ∈ steps, LeafPath s.node s.tree.root e.1 e.2) → steps.length < s.freq.total →
    InnerPath s.node s.tree.root tail → s.payloadBits = steps.flatMap Prod.fst ++ tail →
    exec .walk s = .next { s with
      stt := .error, err := some .corruptStream, phase := some .walk, out := .invalid }

/-- R184: if the root is a leaf, `WALK` emits its symbol `TOTAL` times, whatever the payload is. -/
def Obligations.WalkOfALeafRoot : Prop :=
  ∀ s : State, s.stt.isBusy = false → s.tree.valid = true → s.freq.origin = .dec →
    (s.node s.tree.root).kind = .leaf → s.freq.total ≤ s.params.outCap →
    ∃ t : State, exec .walk s = .next t ∧ t.stt = .done ∧ t.err = none
      ∧ t.outputBytes = List.replicate s.freq.total (s.node s.tree.root).sym ∧ t.out.outLen = s.freq.total
      ∧ t.freq = s.freq ∧ t.tree = s.tree ∧ t.code = s.code ∧ t.pay = s.pay

/-- R186: a declared output that does not fit `OBUF` is a `CapacityError`, before any payload bit is read. -/
def Obligations.WalkFailsOnCapacity : Prop :=
  ∀ s : State, s.stt.isBusy = false → s.tree.valid = true → s.freq.origin = .dec → s.params.outCap < s.freq.total →
    exec .walk s = .next { s with stt := .error, err := some .capacity, phase := some .walk, out := .invalid }

/-! ### Composite commands -/

/-- R193: `ENCODE` succeeds when the buffers are large enough, and leaves an artifact: the header of the counted table,
and behind it the payload: the codes of the input bytes one after the other, most significant bit first (R151, R152),
completed to a byte with zero bits (R153). `CODE_MAX = 255` bits a symbol (R8) and the header bound of R170 (the spec's own inference) make the
conditions ones on the state alone. -/
def Obligations.EncodeCompletes : Prop :=
  ∀ s : State, s.params.wellFormed = true → s.stt.isBusy = false → 1 ≤ s.inLen → s.inLen ≤ s.params.inCap →
    255 * s.inLen ≤ 8 * s.params.payCap →
    s.params.payCap + (4 + 256 * (5 + (dec s.params.cmax).length)) ≤ s.params.outCap →
    ∃ t : State, exec .encode s = .next t ∧ t.stt = .done ∧ t.err = none ∧ t.status = 0x057E
      ∧ t.freq.total = s.inLen ∧ t.freq.payOff = 0 ∧ (∀ x < 256, t.count x = occurrences s.inputBytes x)
      ∧ t.tree.nnodes = 2 * t.freq.nsym - 1
      ∧ t.outputBytes =
          headerText ((symbols.filter fun x => occurrences s.inputBytes x != 0).map
            fun x => (x, occurrences s.inputBytes x)) ++ t.payloadBytes
      ∧ t.pay.nbits = (s.inputBytes.flatMap fun b => (t.codeOf b.toNat).path).length
      ∧ t.payloadBytes.length = ceil8 t.pay.nbits
      ∧ (∀ k < t.pay.nbits,
          streamBit t.payloadBytes k = (s.inputBytes.flatMap fun b => (t.codeOf b.toNat).path).getD k false)
      ∧ (∀ k, t.pay.nbits ≤ k → k < 8 * t.payloadBytes.length → streamBit t.payloadBytes k = false)
      ∧ (∀ b ∈ s.inputBytes, 2 ≤ t.freq.nsym → LeafPath t.node t.tree.root (t.codeOf b.toNat).path b)
      ∧ (∀ b ∈ s.inputBytes, t.freq.nsym = 1 → (t.codeOf b.toNat).path = [false])
      ∧ SameHostSide s t

/-- R194: `DECODE` of an artifact of one symbol completes with that symbol `TOTAL` times, whatever the payload (R184);
with more symbols it completes when the payload begins with `TOTAL` paths of the tree that `BUILD` makes of the header's
table, with the symbols that they lead to. -/
def Obligations.DecodeCompletes : Prop :=
  ∀ (s : State) (entries : List (Nat × Nat)) (payload : List Byte), s.params.wellFormed = true → s.stt.isBusy = false →
    s.inLen ≤ s.params.inCap → ValidEntries s.params.cmax entries → s.inputBytes = headerText entries ++ payload →
    (entries.map Prod.snd).sum ≤ s.params.outCap →
    (entries.length = 1 ∨ ∃ steps, PayloadPaths entries payload steps) →
    ∃ t : State, exec .decode s = .next t ∧ t.stt = .done ∧ t.err = none ∧ t.status = 0x07CE
      ∧ t.out.outLen = t.freq.total ∧ t.freq.total = (entries.map Prod.snd).sum ∧ t.freq.nsym = entries.length
      ∧ t.freq.payOff = (headerText entries).length ∧ t.tree.root = 2 * entries.length - 2
      ∧ (∀ x f, entries = [(x, f)] → t.outputBytes = List.replicate f (BitVec.ofNat 8 x))
      ∧ (∀ steps, PayloadPaths entries payload steps → t.outputBytes = steps.map Prod.snd)
      ∧ t.code = .invalid ∧ t.pay = .invalid ∧ SameHostSide s t

/-- R193, R194: the outcomes of the composite commands: `STATUS` and `ERR` in every case there is. -/
def Obligations.CompositeOutcomes : Prop :=
  (∀ s t : State, s.stt.isBusy = false → exec .encode s = .next t →
    (t.status, t.err) ∈ [(0x057E, none), (0x0103, some ErrCode.capacity), (0x0103, some .emptyInput),
      (0x041F, some .capacity), (0x053F, some .capacity)])
    ∧ ∀ s t : State, s.stt.isBusy = false → exec .decode s = .next t →
      (t.status, t.err) ∈ [(0x07CE, none), (0x0603, some ErrCode.capacity), (0x0603, some .corruptStream),
        (0x078F, some .capacity), (0x078F, some .corruptStream)]

/-- R199, the spec's own inference: a composite command leaves the same state as its unit commands one after the other, each awaited, stopped at
the first that ends in `ERROR`. -/
def Obligations.CompositeIsStepwise : Prop :=
  ∀ s : State, s.stt.isBusy = false →
    exec .encode s = .next (execAll [.freq, .build, .assign, .pack, .ser] s)
    ∧ exec .decode s = .next (execAll [.deser, .build, .walk] s)

/-- R198, the spec's own inference: the outcome of `ENCODE` or `DECODE` is a function of `IBUF[0..IN_LEN)` and `IN_LEN` alone (for given
parameters), whatever ran before. -/
def Obligations.CompositesDependOnTheInputAlone : Prop :=
  ∀ (s s' : State) (i : Instr), i = .encode ∨ i = .decode → s.stt.isBusy = false → s'.stt.isBusy = false →
    s'.params = s.params → s'.inLen = s.inLen → s'.inputBytes = s.inputBytes →
    ∃ t t' : State, exec i s = .next t ∧ exec i s' = .next t' ∧ SameOutcome t t'

/-- R197, the round-trip law, the spec's own inference: what `ENCODE` makes of a non-empty input, `DECODE` turns back into that input. -/
def Obligations.RoundTrip : Prop :=
  ∀ s t s' : State, s.params.wellFormed = true → s.stt.isBusy = false → exec .encode s = .next t → t.stt = .done →
    s'.stt.isBusy = false → s'.params = s.params → s'.inputBytes = t.outputBytes →
    t.out.outLen ≤ s.params.inCap → s.inLen ≤ s.params.outCap →
    ∃ t' : State, exec .decode s' = .next t' ∧ t'.stt = .done ∧ t'.err = none ∧ t'.outputBytes = s.inputBytes

/-- R195: `CLEAR` forgets everything derived and keeps `IN_LEN` and `IBUF`. -/
def Obligations.ClearForgets : Prop :=
  ∀ s : State, s.stt.isBusy = false →
    ∃ t : State, exec .clear s = .next t ∧ t.stt = .idle ∧ t.err = none ∧ t.phase = none ∧ t.status = 0x0000
      ∧ InvalidFrom 0 t ∧ SameHostSide s t

/-! ### Invariants -/

/-- R45 (the spec's own inference) holds at reset. -/
def Obligations.InvariantAtReset : Prop := Inv State.reset

/-- R45 ("A model can prove them by induction over host transactions", the spec's own inference): every step keeps the
invariants, from every state that has them. -/
def Obligations.StepKeepsTheInvariant : Prop :=
  ∀ s t : State, Inv s → step s = .next t → Inv t

/-- R21, R32: under the invariants every register fits its width. The width of a reserved number is the model's choice
(log 14). -/
def Obligations.RegistersFitTheirWidths : Prop :=
  ∀ (s : State) (n : BitVec 8), Inv s → s.regValue n < 2 ^ regWidth s.params n
end

