-- ==== Sys2Proof/Laws/Bits.lean ====
section
/-! SUPPORT. Bit strings: a code record holds its path (R38), and the packer stores a bitstream most significant bit
first, completed with zero bits (R152, R153). -/

namespace Sys2Proof.Machine

/-! ### Code records -/

theorem bitsToNat_testBit (l : List Bool) (j : Nat) : (bitsToNat l).testBit j = l.getD j false := by
  induction l generalizing j with
  | nil => simp [bitsToNat]
  | cons b l ih =>
    have h : bitsToNat (b :: l) = b.toNat + 2 * bitsToNat l := rfl
    cases j with
    | zero => rw [h, Nat.testBit_zero]; cases b <;> simp
    | succ j =>
      have h2 : (b.toNat + 2 * bitsToNat l) / 2 = bitsToNat l := by have := Bool.toNat_le b; omega
      rw [h, Nat.testBit_succ, h2, ih]; rfl

theorem bitsToNat_lt (l : List Bool) : bitsToNat l < 2 ^ l.length := by
  induction l with
  | nil => simp [bitsToNat]
  | cons b l ih =>
    have : b.toNat ≤ 1 := Bool.toNat_le b
    simp only [bitsToNat, List.length_cons, Nat.pow_succ]
    omega

@[simp] theorem Code.ofPath_len (p : List Bool) : (Code.ofPath p).len = p.length := rfl

theorem Code.path_length (c : Code) : c.path.length = c.len := by simp [Code.path]

theorem Code.path_empty : Code.empty.path = [] := rfl

/-- A code record holds its path, up to the 255 bits it has room for (R8, R38). -/
theorem Code.path_ofPath {p : List Bool} (h : p.length ≤ 255) : (Code.ofPath p).path = p := by
  apply List.ext_getElem
  · simp [Code.path]
  · intro j h1 h2
    have h3 : j < 255 := by omega
    have h4 : (Code.ofPath p).path[j] = (BitVec.ofNat 255 (bitsToNat p)).getLsbD j := by simp [Code.path, Code.ofPath]
    rw [h4, BitVec.getLsbD_ofNat, bitsToNat_testBit, List.getD_eq_getElem _ _ h2]
    simp [h3]

/-- `BITS` is zero from `LEN` up (R38). -/
theorem Code.ofPath_zero_above (p : List Bool) : (Code.ofPath p).bits.toNat < 2 ^ (Code.ofPath p).len := by
  have := bitsToNat_lt p
  simp only [Code.ofPath, BitVec.toNat_ofNat]
  exact lt_of_le_of_lt (Nat.mod_le _ _) this

/-! ### The packer -/

theorem streamBit_cons_lt (b : Byte) (bytes : List Byte) {k : Nat} (h : k < 8) :
    streamBit (b :: bytes) k = b.getLsbD (7 - k) := by
  have h1 : k / 8 = 0 := by omega
  have h2 : k % 8 = k := by omega
  simp [streamBit, h1, h2]

theorem streamBit_cons_add (b : Byte) (bytes : List Byte) (k : Nat) :
    streamBit (b :: bytes) (8 + k) = streamBit bytes k := by
  have h1 : (8 + k) / 8 = k / 8 + 1 := by omega
  have h2 : (8 + k) % 8 = k % 8 := by omega
  simp [streamBit, h1, h2]

/-- The accumulator holds the bits taken so far, the latest at bit 0. -/
def Accumulates (acc : Byte) (taken : List Bool) : Prop := ∀ j, acc.getLsbD j = taken.reverse.getD j false

theorem accumulates_nil : Accumulates 0 [] := by intro j; simp

theorem accumulates_snoc {acc : Byte} {taken : List Bool} (b : Bool) (h : Accumulates acc taken)
    (hl : taken.length < 8) : Accumulates (acc <<< 1 ||| BitVec.ofNat 8 b.toNat) (taken ++ [b]) := by
  intro j
  rw [BitVec.getLsbD_or, BitVec.getLsbD_shiftLeft, List.reverse_append, List.reverse_singleton, List.singleton_append]
  cases j with
  | zero => cases b <;> simp
  | succ j =>
    have hb : (BitVec.ofNat 8 b.toNat).getLsbD (j + 1) = false := by
      cases b
      · simp
      · rw [BitVec.getLsbD_ofNat]
        simp [Nat.testBit_succ]
    rw [hb, List.getD_cons_succ, ← h j]
    by_cases hj : j + 1 < 8
    · simp [hj]
    · have : acc.getLsbD j = false := by
        rw [h j, List.getD_eq_default _ _ (by simp; omega)]
      simp [hj, this]

theorem packInto_spec (bits : List Bool) (acc : Byte) (taken : List Bool) (h : Accumulates acc taken)
    (hl : taken.length < 8) :
    (packInto acc taken.length bits).length = ceil8 (taken ++ bits).length
      ∧ ∀ k < 8 * (packInto acc taken.length bits).length,
        streamBit (packInto acc taken.length bits) k = (taken ++ bits).getD k false := by
  induction bits generalizing acc taken with
  | nil =>
    simp only [packInto, List.append_nil]
    split
    · next h0 => simp [h0, ceil8]
    · next h0 =>
      constructor
      · simp only [List.length_singleton, ceil8]; omega
      · intro k hk
        simp only [List.length_singleton] at hk
        rw [streamBit_cons_lt _ _ (by omega), BitVec.getLsbD_shiftLeft]
        by_cases hk2 : k < taken.length
        · have h1 : ¬ (7 - k < 8 - taken.length) := by omega
          have h2 : 7 - k - (8 - taken.length) = taken.length - 1 - k := by omega
          have h3 : taken.length - 1 - k < taken.reverse.length := by simp; omega
          have h4 : taken.length - 1 - (taken.length - 1 - k) = k := by omega
          rw [h2, h, List.getD_eq_getElem _ _ h3, List.getD_eq_getElem _ _ hk2, List.getElem_reverse]
          have h5 : 7 - k < 8 := by omega
          simp [h1, h4, h5]
        · have h1 : 7 - k < 8 - taken.length := by omega
          rw [List.getD_eq_default _ _ (by omega)]
          simp [h1]
  | cons b rest ih =>
    have hs := accumulates_snoc b h hl
    simp only [packInto]
    split
    · next h8 =>
      obtain ⟨ih1, ih2⟩ := ih 0 [] accumulates_nil (by simp)
      simp only [List.length_nil, List.nil_append] at ih1 ih2
      constructor
      · simp only [List.length_cons, ih1, List.length_append, ceil8]; omega
      · intro k hk
        have hsplit : taken ++ b :: rest = (taken ++ [b]) ++ rest := by simp
        have hlen : (taken ++ [b]).length = 8 := by simp; omega
        rw [hsplit]
        by_cases hk8 : k < 8
        · rw [streamBit_cons_lt _ _ hk8, hs, List.getD_append _ _ _ _ (by omega),
            List.getD_eq_getElem _ _ (by rw [List.length_reverse]; omega),
            List.getD_eq_getElem _ _ (by omega), List.getElem_reverse]
          have : (taken ++ [b]).length - 1 - (7 - k) = k := by omega
          simp only [this]
        · obtain ⟨m, rfl⟩ := Nat.exists_eq_add_of_le (Nat.le_of_not_lt hk8)
          rw [streamBit_cons_add, ih2 m (by simp only [List.length_cons] at hk; omega),
            List.getD_append_right _ _ _ _ (by omega), hlen]
          simp
    · next h8 =>
      have := ih _ (taken ++ [b]) hs (by simp; omega)
      simp only [List.length_append, List.length_singleton, List.append_assoc, List.singleton_append] at this
      simpa only [List.length_append, List.length_cons] using this

/-- The packed bytes of a bitstream: their number, and every bit of them (R152, R153). -/
theorem packBits_spec (bits : List Bool) :
    (packBits bits).length = ceil8 bits.length
      ∧ ∀ k < 8 * (packBits bits).length, streamBit (packBits bits) k = bits.getD k false := by
  simpa [packBits] using packInto_spec bits 0 [] accumulates_nil (by simp)

theorem packBits_length (bits : List Bool) : (packBits bits).length = ceil8 bits.length := (packBits_spec bits).1

end Sys2Proof.Machine
end

