-- ==== Sys2Proof/Laws/Store.lean ====
section
/-! SUPPORT. Tables and buffers: read after write, and that every operation keeps the canonical form. -/

namespace Sys2Proof.Machine

variable {α : Type}

@[simp] theorem Store.read_nil (a : Nat) : Store.read ([] : Store α) a = none := rfl

theorem Store.read_write_same (m : Store α) (a : Nat) (v : α) : Store.read (Store.write m a v) a = some v := by
  induction m with
  | nil => simp [Store.write, Store.read]
  | cons e rest ih =>
    obtain ⟨k, w⟩ := e
    unfold Store.write
    split
    · simp [Store.read]
    · split
      · simp [Store.read]
      · next h => simp [Store.read, ih, Ne.symm h]

theorem Store.read_write_other (m : Store α) {a c : Nat} (v : α) (h : c ≠ a) :
    Store.read (Store.write m a v) c = Store.read m c := by
  induction m with
  | nil => simp [Store.write, Store.read, Ne.symm h]
  | cons e rest ih =>
    obtain ⟨k, w⟩ := e
    unfold Store.write
    split
    · simp [Store.read, Ne.symm h]
    · split
      · next hk => subst hk; simp [Store.read, Ne.symm h]
      · simp [Store.read, ih]

theorem Store.mem_write_keys (m : Store α) (a : Nat) (v : α) {k : Nat} (h : k ∈ (Store.write m a v).map Prod.fst) :
    k = a ∨ k ∈ m.map Prod.fst := by
  induction m with
  | nil => simpa [Store.write] using h
  | cons e rest ih =>
    obtain ⟨j, w⟩ := e
    unfold Store.write at h
    split at h
    · simpa using h
    · split at h
      · next hj => subst hj; simp at h ⊢; tauto
      · simp only [List.map_cons, List.mem_cons] at h ⊢
        rcases h with h | h
        · exact .inr (.inl h)
        · exact (ih h).imp id .inr

/-- A write keeps the canonical form. -/
theorem Store.wf_write (m : Store α) (a : Nat) (v : α) (h : Store.wf m) : Store.wf (Store.write m a v) := by
  induction m with
  | nil => simp [Store.wf, Store.write]
  | cons e rest ih =>
    obtain ⟨k, w⟩ := e
    simp only [Store.wf, List.map_cons, List.pairwise_cons] at h ih
    unfold Store.write
    split
    · next hk =>
      simp only [Store.wf, List.map_cons, List.pairwise_cons, List.mem_cons, forall_eq_or_imp]
      exact ⟨⟨hk, fun b hb => hk.trans (h.1 b hb)⟩, h⟩
    · split
      · next hk => subst hk; simpa only [Store.wf, List.map_cons, List.pairwise_cons] using h
      · next h1 h2 =>
        simp only [Store.wf, List.map_cons, List.pairwise_cons]
        refine ⟨fun b hb => ?_, ih h.2⟩
        rcases Store.mem_write_keys rest a v hb with rfl | hb
        · omega
        · exact h.1 b hb

/-- A write lists no new address but its own. -/
theorem Store.write_in_range (m : Store α) (a : Nat) (v : α) (n : Nat) (ha : a < n) (h : ∀ e ∈ m, e.1 < n) :
    ∀ e ∈ Store.write m a v, e.1 < n := by
  intro e he
  rcases Store.mem_write_keys m a v (List.mem_map_of_mem (f := Prod.fst) he) with h1 | h1
  · omega
  · obtain ⟨e', he', h2⟩ := List.mem_map.1 h1
    exact h2 ▸ h e' he'

theorem Store.read_ofList (l : List α) (base a : Nat) :
    Store.read (Store.ofList base l) a = if base ≤ a then l[a - base]? else none := by
  induction l generalizing base with
  | nil => simp [Store.ofList]
  | cons v vs ih =>
    simp only [Store.ofList, Store.read, ih]
    by_cases h : base = a
    · subst h; simp
    · by_cases h1 : base ≤ a
      · have h2 : a - base = (a - (base + 1)) + 1 := by omega
        have h3 : base + 1 ≤ a := by omega
        simp [h, h1, h2, h3]
      · have h3 : ¬ base + 1 ≤ a := by omega
        simp [h, h1, h3]

@[simp] theorem Store.read_ofList_zero (l : List α) (a : Nat) : Store.read (Store.ofList 0 l) a = l[a]? := by
  simp [Store.read_ofList]

theorem Store.mem_ofList_key (l : List α) (base : Nat) {e : Nat × α} (h : e ∈ Store.ofList base l) :
    base ≤ e.1 ∧ e.1 < base + l.length := by
  induction l generalizing base with
  | nil => simp [Store.ofList] at h
  | cons v vs ih =>
    simp only [Store.ofList, List.mem_cons] at h
    rcases h with rfl | h
    · simp
    · have := ih (base + 1) h
      simp only [List.length_cons]
      omega

/-- A list laid out at consecutive addresses is in canonical form. -/
theorem Store.wf_ofList (l : List α) (base : Nat) : Store.wf (Store.ofList base l) := by
  induction l generalizing base with
  | nil => simp [Store.wf, Store.ofList]
  | cons v vs ih =>
    simp only [Store.wf, Store.ofList, List.map_cons, List.pairwise_cons]
    refine ⟨fun k hk => ?_, ih (base + 1)⟩
    obtain ⟨e, he, rfl⟩ := List.mem_map.1 hk
    have := Store.mem_ofList_key vs (base + 1) he
    omega

theorem Store.ofList_in_range (l : List α) (n : Nat) (h : l.length ≤ n) : ∀ e ∈ Store.ofList 0 l, e.1 < n := by
  intro e he
  have := Store.mem_ofList_key l 0 he
  omega

theorem Store.wf_nil : Store.wf ([] : Store α) := List.Pairwise.nil

/-! ### Tables of 256 entries -/

theorem symbols_length : symbols.length = 256 := List.length_range

theorem mem_symbols {x : Nat} : x ∈ symbols ↔ x < 256 := List.mem_range

theorem read_table (f : Nat → α) {x : Nat} (h : x < 256) : Store.read (Store.ofList 0 (symbols.map f)) x = some (f x) := by
  rw [Store.read_ofList_zero, List.getElem?_map, symbols, List.getElem?_range h]
  rfl

theorem table_ok (f : Nat → α) :
    Store.wf (Store.ofList 0 (symbols.map f)) ∧ ∀ e ∈ Store.ofList 0 (symbols.map f), e.1 < 256 :=
  ⟨Store.wf_ofList _ _, Store.ofList_in_range _ _ (by rw [List.length_map, symbols_length])⟩

end Sys2Proof.Machine
end

