-- ==== Sys2Proof/Laws/Text.lean ====
section
/-! SUPPORT. The decimal text of the header: `dec` writes what `parse_uint` reads, and one entry line at a time. -/

namespace Sys2Proof.Machine

/-! ### Digits -/

theorem digitByte_toNat {d : Nat} (h : d < 10) : (digitByte d).toNat = 0x30 + d := by
  simp only [digitByte, BitVec.toNat_ofNat]; omega

theorem isDigit_iff (c : Byte) : isDigit c = true ↔ 0x30 ≤ c.toNat ∧ c.toNat ≤ 0x39 := by simp [isDigit]

theorem isDigit_digitByte {d : Nat} (h : d < 10) : isDigit (digitByte d) = true := by
  rw [isDigit_iff, digitByte_toNat h]; omega

theorem digitByte_of_isDigit {c : Byte} (h : isDigit c = true) : digitByte (c.toNat - 0x30) = c := by
  obtain ⟨h1, h2⟩ := (isDigit_iff c).1 h
  have h3 : c.toNat - 0x30 < 10 := by omega
  have h4 : (digitByte (c.toNat - 0x30)).toNat = c.toNat := by rw [digitByte_toNat h3]; omega
  exact BitVec.eq_of_toNat_eq h4

/-- The number a sequence of digit bytes denotes, continuing from `acc` (the accumulator of R165). -/
def digitValue (acc : Nat) (ds : List Byte) : Nat := ds.foldl (fun v b => v * 10 + (b.toNat - 0x30)) acc

@[simp] theorem digitValue_nil (acc : Nat) : digitValue acc [] = acc := rfl

theorem digitValue_cons (acc : Nat) (b : Byte) (ds : List Byte) :
    digitValue acc (b :: ds) = digitValue (acc * 10 + (b.toNat - 0x30)) ds := by
  unfold digitValue; rw [List.foldl_cons]

theorem digitValue_snoc (acc : Nat) (ds : List Byte) (b : Byte) :
    digitValue acc (ds ++ [b]) = digitValue acc ds * 10 + (b.toNat - 0x30) := by simp [digitValue]

theorem le_digitValue (acc : Nat) (ds : List Byte) : acc ≤ digitValue acc ds := by
  induction ds generalizing acc with
  | nil => simp
  | cons b ds ih => rw [digitValue_cons]; exact le_trans (by omega) (ih _)

/-! ### `dec` -/

theorem decDigits_fuel (f g v : Nat) (hf : v < f) (hg : v < g) : decDigits f v = decDigits g v := by
  induction f generalizing g v with
  | zero => omega
  | succ f ih =>
    obtain _ | g := g
    · omega
    · simp only [decDigits]
      split
      · rfl
      · rw [ih g (v / 10) (by omega) (by omega)]

/-- The recursion of `dec` (R161). -/
theorem dec_eq (v : Nat) : dec v = if v < 10 then [digitByte v] else dec (v / 10) ++ [digitByte (v % 10)] := by
  conv_lhs => rw [dec, decDigits]
  split
  · rfl
  · rw [dec, decDigits_fuel v (v / 10 + 1) (v / 10) (by omega) (by omega)]

theorem dec_ne_nil (v : Nat) : dec v ≠ [] := by
  rw [dec_eq]; split <;> simp

theorem dec_isDigit (v : Nat) : ∀ b ∈ dec v, isDigit b = true := by
  induction v using Nat.strongRecOn with
  | ind v ih =>
    rw [dec_eq]
    split
    · next h => simpa using isDigit_digitByte h
    · intro b hb
      rcases List.mem_append.1 hb with hb | hb
      · exact ih _ (by omega) b hb
      · rw [List.mem_singleton.1 hb]; exact isDigit_digitByte (by omega)

theorem dec_value (v : Nat) : digitValue 0 (dec v) = v := by
  induction v using Nat.strongRecOn with
  | ind v ih =>
    rw [dec_eq]
    split
    · next h => simp only [digitValue_cons, digitValue_nil, digitByte_toNat h]; omega
    · rw [digitValue_snoc, ih _ (by omega), digitByte_toNat (by omega)]; omega

/-- No leading zero, unless the number is 0. -/
theorem dec_head {v : Nat} (h : v ≠ 0) : (dec v).head? ≠ some 0x30 := by
  induction v using Nat.strongRecOn with
  | ind v ih =>
    rw [dec_eq]
    split
    · next h10 =>
      intro hc
      have := congrArg (Option.map BitVec.toNat) hc
      simp [digitByte_toNat h10] at this
      omega
    · rw [List.head?_append_of_ne_nil _ (dec_ne_nil _)]
      exact ih _ (by omega) (by omega)

theorem dec_zero : dec 0 = [0x30] := by rw [dec_eq]; rfl

/-- The shortest digit sequence of a value is the only one without a leading zero. -/
theorem eq_dec_of_digits (ds : List Byte) (hd : ∀ b ∈ ds, isDigit b = true) (hne : ds ≠ [])
    (hz : ds.head? = some 0x30 → ds.length = 1) : ds = dec (digitValue 0 ds) := by
  induction ds using List.reverseRecOn with
  | nil => exact absurd rfl hne
  | append_singleton l d ih =>
    have hdd := hd d (by simp)
    have hd9 := (isDigit_iff d).1 hdd
    rcases eq_or_ne l [] with rfl | hl
    · rw [dec_eq, List.nil_append, digitValue_cons, digitValue_nil, if_pos (by omega)]
      simp [digitByte_of_isDigit hdd]
    · have hl' : l.head? ≠ some 0x30 := by
        intro hc
        have := hz (by rw [List.head?_append_of_ne_nil _ hl]; exact hc)
        simp [hl] at this
      have ihl := ih (fun b hb => hd b (by simp [hb])) hl (fun hc => absurd hc hl')
      have hpos : digitValue 0 l ≠ 0 := by
        intro h0
        rw [h0, dec_zero] at ihl
        exact hl' (by rw [ihl]; rfl)
      rw [digitValue_snoc, dec_eq, if_neg (by omega)]
      have h1 : (digitValue 0 l * 10 + (d.toNat - 0x30)) / 10 = digitValue 0 l := by omega
      have h2 : (digitValue 0 l * 10 + (d.toNat - 0x30)) % 10 = d.toNat - 0x30 := by omega
      rw [h1, h2, ← ihl, digitByte_of_isDigit hdd]

theorem dec_length_mono {v w : Nat} (h : v ≤ w) : (dec v).length ≤ (dec w).length := by
  induction w using Nat.strongRecOn generalizing v with
  | ind w ih =>
    rw [dec_eq v, dec_eq w]
    split <;> split
    · simp
    · simp
    · omega
    · simp only [List.length_append, List.length_singleton]
      have := ih (w / 10) (by omega) (v := v / 10) (Nat.div_le_div_right h)
      omega

theorem dec_length_byte {v : Nat} (h : v ≤ 256) : (dec v).length ≤ 3 :=
  le_trans (dec_length_mono h) (by simp [dec_eq 256, dec_eq 25, dec_eq 2])

/-! ### `parse_uint` -/

/-- The next byte, if there is one, is no digit: the field ends here (R165). -/
def FieldEnds (rest : List Byte) : Prop := ∀ c ∈ rest.head?, isDigit c = false

theorem parseDigits_digits (limit : Nat) (ds rest : List Byte) (acc : Nat) (hd : ∀ b ∈ ds, isDigit b = true)
    (hl : digitValue acc ds ≤ limit) (hr : FieldEnds rest) :
    parseDigits limit acc (ds ++ rest) = some (digitValue acc ds, rest) := by
  induction ds generalizing acc with
  | nil =>
    cases rest with
    | nil => rfl
    | cons c cs => simp [parseDigits, hr c rfl]
  | cons b ds ih =>
    have hb := hd b (by simp)
    rw [digitValue_cons] at hl ⊢
    have := le_digitValue (acc * 10 + (b.toNat - 0x30)) ds
    simp only [List.cons_append, parseDigits, hb, if_true]
    rw [if_neg (by omega)]
    exact ih _ (fun c hc => hd c (by simp [hc])) hl

theorem parseDigits_some {limit acc v : Nat} {input rest : List Byte} (h : parseDigits limit acc input = some (v, rest)) :
    ∃ ds, input = ds ++ rest ∧ (∀ b ∈ ds, isDigit b = true) ∧ digitValue acc ds = v ∧ FieldEnds rest
      ∧ (ds = [] ∨ v ≤ limit) := by
  induction input generalizing acc with
  | nil =>
    simp only [parseDigits, Option.some.injEq, Prod.mk.injEq] at h
    obtain ⟨rfl, rfl⟩ := h
    exact ⟨[], rfl, by simp, rfl, by simp [FieldEnds], .inl rfl⟩
  | cons c cs ih =>
    simp only [parseDigits] at h
    split at h
    · next hc =>
      split at h
      · cases h
      · next hle =>
        obtain ⟨ds, rfl, hd, hv, hr, hor⟩ := ih h
        refine ⟨c :: ds, rfl, ?_, hv, hr, .inr ?_⟩
        · intro b hb
          rcases List.mem_cons.1 hb with rfl | hb
          · exact hc
          · exact hd b hb
        · rcases hor with rfl | hor
          · rw [digitValue_nil] at hv; omega
          · exact hor
    · next hc =>
      simp only [Option.some.injEq, Prod.mk.injEq] at h
      obtain ⟨rfl, rfl⟩ := h
      refine ⟨[], rfl, by simp, rfl, ?_, .inl rfl⟩
      intro b hb
      simp only [List.head?_cons, Option.mem_def, Option.some.injEq] at hb
      subst hb
      simpa using hc

theorem leadingZero_iff (input : List Byte) :
    leadingZero input = true ↔ ∃ d rest, input = 0x30 :: d :: rest ∧ isDigit d = true := by
  match input with
  | [] => simp [leadingZero]
  | [c] => simp [leadingZero]
  | c :: d :: rest => simp [leadingZero, and_assoc]

/-- `parse_uint` reads what `dec` writes. -/
theorem parseUint_dec (limit v : Nat) (rest : List Byte) (hv : v ≤ limit) (hr : FieldEnds rest) :
    parseUint limit (dec v ++ rest) = some (v, rest) := by
  obtain ⟨c, cs, hc⟩ := List.exists_cons_of_ne_nil (dec_ne_nil v)
  have hcd : isDigit c = true := dec_isDigit v c (by simp [hc])
  have hz : leadingZero (dec v ++ rest) = false := by
    rw [Bool.eq_false_iff, ne_eq, leadingZero_iff]
    rintro ⟨d, r, he, hd⟩
    rcases eq_or_ne v 0 with rfl | h0
    · rw [dec_zero, List.cons_append, List.nil_append, List.cons.injEq] at he
      have := hr d (by rw [he.2]; rfl)
      simp [hd] at this
    · have h1 : (dec v ++ rest).head? = some 0x30 := by rw [he]; rfl
      rw [List.head?_append_of_ne_nil _ (dec_ne_nil v)] at h1
      exact dec_head h0 h1
  have hp := parseDigits_digits limit (dec v) rest 0 (dec_isDigit v) (by rw [dec_value]; exact hv) hr
  rw [dec_value] at hp
  rw [hc, List.cons_append] at hz hp ⊢
  simp only [parseUint, hcd, hz, Bool.not_true, Bool.false_eq_true, if_false]
  exact hp

/-- `parse_uint` reads nothing else. -/
theorem parseUint_some {limit v : Nat} {input rest : List Byte} (h : parseUint limit input = some (v, rest)) :
    input = dec v ++ rest ∧ v ≤ limit ∧ FieldEnds rest := by
  cases input with
  | nil => simp [parseUint] at h
  | cons c cs =>
    simp only [parseUint] at h
    split at h
    · cases h
    · next hc =>
      split at h
      · cases h
      · next hz =>
        obtain ⟨ds, he, hd, hv, hr, hor⟩ := parseDigits_some h
        have hne : ds ≠ [] := by
          rintro rfl
          rw [List.nil_append] at he
          have := hr c (by rw [← he]; rfl)
          simp [this] at hc
        have hdec : ds = dec (digitValue 0 ds) := by
          refine eq_dec_of_digits ds hd hne fun hh => ?_
          match ds, hh with
          | [_], _ => rfl
          | a :: b :: l, hh =>
            exfalso
            apply hz
            rw [leadingZero_iff, he]
            simp only [List.head?_cons, Option.some.injEq] at hh
            exact ⟨b, l ++ rest, by rw [hh]; rfl, hd b (by simp)⟩
        rw [hv] at hdec
        exact ⟨by rw [he, ← hdec], hor.resolve_left hne, hr⟩

theorem fieldEnds_sp (rest : List Byte) : FieldEnds (byteSP :: rest) := by
  intro c hc
  simp only [List.head?_cons, Option.mem_def, Option.some.injEq] at hc
  subst hc; rfl

theorem fieldEnds_lf (rest : List Byte) : FieldEnds (byteLF :: rest) := by
  intro c hc
  simp only [List.head?_cons, Option.mem_def, Option.some.injEq] at hc
  subst hc; rfl

/-! ### `expect` and one entry line -/

theorem expectByte_eq_some (b : Byte) (input rest : List Byte) : expectByte b input = some rest ↔ input = b :: rest := by
  cases input with
  | nil => simp [expectByte]
  | cons c cs => simp only [expectByte]; split <;> simp_all

/-- An entry line is read back (R160, R164). -/
theorem parseEntry_entryLine {cmax x f : Nat} (rest : List Byte) (hx : x ≤ 255) (hf : 1 ≤ f) (hc : f ≤ cmax) :
    parseEntry cmax (entryLine x f ++ rest) = some (x, f, rest) := by
  have h1 : entryLine x f ++ rest = dec x ++ (byteSP :: (dec f ++ (byteLF :: rest))) := by simp [entryLine]
  rw [h1, parseEntry, parseUint_dec 255 x _ hx (fieldEnds_sp _)]
  simp only [Option.bind_some, (expectByte_eq_some _ _ _).2 rfl, parseUint_dec cmax f _ hc (fieldEnds_lf _)]
  rw [if_neg (by omega)]
  simp

/-- Nothing but an entry line is read (R166). -/
theorem parseEntry_some {cmax x f : Nat} {input rest : List Byte} (h : parseEntry cmax input = some (x, f, rest)) :
    input = entryLine x f ++ rest ∧ x ≤ 255 ∧ 1 ≤ f ∧ f ≤ cmax := by
  simp only [parseEntry, Option.bind_eq_some_iff, Prod.exists] at h
  obtain ⟨x', r1, h1, r2, h2, f', r3, h3, h4⟩ := h
  split at h4
  · cases h4
  · next hf0 =>
    simp only [Option.map_eq_some_iff, Prod.mk.injEq] at h4
    obtain ⟨r4, h4, rfl, rfl, rfl⟩ := h4
    obtain ⟨e1, l1, -⟩ := parseUint_some h1
    obtain ⟨e3, l3, -⟩ := parseUint_some h3
    rw [expectByte_eq_some] at h2 h4
    refine ⟨?_, l1, by omega, l3⟩
    rw [e1, h2, e3, h4]
    simp [entryLine]

end Sys2Proof.Machine
end

