-- ==== Sys2Proof/Laws/Header.lean ====
section
/-! SUPPORT. The header of an artifact: the parser of R164 accepts exactly the texts of admissible entries (R160, R166),
and the table it makes is the one they list. -/

namespace Sys2Proof.Machine

/-! ### Sums and counts over a range of symbols -/

theorem sum_range_update (n a v : Nat) (g : Nat → Nat) (ha : a < n) (h0 : g a = 0) :
    ((List.range n).map fun x => if x = a then v else g x).sum = v + ((List.range n).map g).sum := by
  induction n with
  | zero => omega
  | succ n ih =>
    simp only [List.range_succ, List.map_append, List.map_cons, List.map_nil, List.sum_append, List.sum_singleton]
    by_cases h : a = n
    · subst h
      have : (List.range a).map (fun x => if x = a then v else g x) = (List.range a).map g :=
        List.map_congr_left fun x hx => by
          have := List.mem_range.1 hx
          rw [if_neg (by omega)]
      rw [this, if_pos rfl, h0]; omega
    · rw [ih (by omega), if_neg (Ne.symm h)]; omega

theorem countP_range_update (n a v : Nat) (g : Nat → Nat) (ha : a < n) (h0 : g a = 0) (hv : v ≠ 0) :
    ((List.range n).countP fun x => (if x = a then v else g x) != 0) = 1 + (List.range n).countP fun x => g x != 0 := by
  induction n with
  | zero => omega
  | succ n ih =>
    simp only [List.range_succ, List.countP_append, List.countP_cons, List.countP_nil]
    by_cases h : a = n
    · subst h
      have : ((List.range a).countP fun x => (if x = a then v else g x) != 0)
          = (List.range a).countP fun x => g x != 0 :=
        List.countP_congr fun x hx => by
          have := List.mem_range.1 hx
          rw [if_neg (by omega)]
      rw [this]
      simp [h0, hv, Nat.add_comm]
    · rw [ih (by omega), if_neg (Ne.symm h)]; omega

/-! ### The table a list of entries makes -/

/-- The entries written into a table one after the other (R164). -/
def enterAll (entries : List (Nat × Nat)) (table : Store Nat) : Store Nat :=
  entries.foldl (fun t e => Store.write t e.1 e.2) table

theorem enterAll_cons (e : Nat × Nat) (es : List (Nat × Nat)) (t : Store Nat) :
    enterAll (e :: es) t = enterAll es (Store.write t e.1 e.2) := rfl

theorem read_enterAll_other (entries : List (Nat × Nat)) (t : Store Nat) (x : Nat)
    (h : x ∉ entries.map Prod.fst) : Store.read (enterAll entries t) x = Store.read t x := by
  induction entries generalizing t with
  | nil => rfl
  | cons e es ih =>
    simp only [List.map_cons, List.mem_cons, not_or] at h
    rw [enterAll_cons, ih _ h.2, Store.read_write_other _ _ h.1]

theorem freqOf_nil (x : Nat) : freqOf [] x = 0 := rfl

theorem freqOf_cons (e : Nat × Nat) (es : List (Nat × Nat)) (x : Nat) :
    freqOf (e :: es) x = if x = e.1 then e.2 else freqOf es x := by
  obtain ⟨a, f⟩ := e
  simp only [freqOf, List.lookup_cons]
  by_cases h : x = a
  · simp [h]
  · simp [h, beq_eq_false_iff_ne.2 h]

theorem freqOf_absent (entries : List (Nat × Nat)) (x : Nat) (h : x ∉ entries.map Prod.fst) : freqOf entries x = 0 := by
  induction entries with
  | nil => rfl
  | cons e es ih =>
    simp only [List.map_cons, List.mem_cons, not_or] at h
    rw [freqOf_cons, if_neg h.1, ih h.2]

theorem read_enterAll (entries : List (Nat × Nat)) (t : Store Nat) (x : Nat) (hn : (entries.map Prod.fst).Nodup)
    (ht : Store.read t x = some 0) : Store.read (enterAll entries t) x = some (freqOf entries x) := by
  induction entries generalizing t with
  | nil => exact ht
  | cons e es ih =>
    simp only [List.map_cons, List.nodup_cons] at hn
    rw [enterAll_cons, freqOf_cons]
    by_cases h : x = e.1
    · subst h
      rw [if_pos rfl, read_enterAll_other _ _ _ hn.1, Store.read_write_same]
    · rw [if_neg h]
      exact ih _ hn.2 (by rw [Store.read_write_other _ _ h]; exact ht)

theorem enterAll_ok (entries : List (Nat × Nat)) (t : Store Nat) (hr : ∀ e ∈ entries, e.1 ≤ 255) (ht : Store.wf t)
    (hk : ∀ e ∈ t, e.1 < 256) : Store.wf (enterAll entries t) ∧ ∀ e ∈ enterAll entries t, e.1 < 256 := by
  induction entries generalizing t with
  | nil => exact ⟨ht, hk⟩
  | cons e es ih =>
    have he := hr e (by simp)
    exact ih _ (fun e' he' => hr e' (by simp [he'])) (Store.wf_write _ _ _ ht)
      (Store.write_in_range _ _ _ _ (by omega) hk)

theorem read_zeroCounts {x : Nat} (h : x < 256) : Store.read zeroCounts x = some 0 := by
  rw [zeroCounts, Store.read_ofList_zero, List.getElem?_map, symbols, List.getElem?_range h]; rfl

theorem sum_freqOf (entries : List (Nat × Nat)) (hn : (entries.map Prod.fst).Nodup) (hr : ∀ e ∈ entries, e.1 ≤ 255) :
    (symbols.map (freqOf entries)).sum = (entries.map Prod.snd).sum := by
  induction entries with
  | nil =>
    rw [List.map_nil, List.sum_nil, List.sum_eq_zero]
    intro v hv
    obtain ⟨x, -, rfl⟩ := List.mem_map.1 hv
    exact freqOf_nil x
  | cons e es ih =>
    simp only [List.map_cons, List.nodup_cons, List.sum_cons] at hn ⊢
    have he := hr e (by simp)
    have hfun : freqOf (e :: es) = fun x => if x = e.1 then e.2 else freqOf es x := funext (freqOf_cons e es)
    rw [hfun, symbols, sum_range_update 256 e.1 e.2 _ (by omega) (freqOf_absent es e.1 hn.1)]
    rw [← ih hn.2 fun e' he' => hr e' (by simp [he'])]
    rfl

theorem distinct_freqOf (entries : List (Nat × Nat)) (hn : (entries.map Prod.fst).Nodup)
    (hr : ∀ e ∈ entries, e.1 ≤ 255) (hp : ∀ e ∈ entries, 1 ≤ e.2) :
    distinctSymbols (freqOf entries) = entries.length := by
  induction entries with
  | nil =>
    rw [distinctSymbols, List.length_nil, List.countP_eq_zero]
    intro x _
    simp [freqOf_nil]
  | cons e es ih =>
    simp only [List.map_cons, List.nodup_cons] at hn
    have he := hr e (by simp)
    have hep := hp e (by simp)
    have hfun : freqOf (e :: es) = fun x => if x = e.1 then e.2 else freqOf es x := funext (freqOf_cons e es)
    rw [hfun, distinctSymbols, symbols,
      countP_range_update 256 e.1 e.2 _ (by omega) (freqOf_absent es e.1 hn.1) (by omega)]
    rw [List.length_cons, ← ih hn.2 (fun e' he' => hr e' (by simp [he'])) (fun e' he' => hp e' (by simp [he']))]
    exact Nat.add_comm _ _

/-! ### The loop over the entry lines -/

theorem parseEntries_text (cmax : Nat) (entries : List (Nat × Nat)) (rest : List Byte) (t : Store Nat) (total : Nat)
    (hr : ∀ e ∈ entries, e.1 ≤ 255) (hf : ∀ e ∈ entries, 1 ≤ e.2 ∧ e.2 ≤ cmax) (hn : (entries.map Prod.fst).Nodup)
    (ht : ∀ e ∈ entries, Store.read t e.1 = some 0) (hs : total + (entries.map Prod.snd).sum ≤ cmax) :
    parseEntries cmax entries.length ((entries.flatMap fun e => entryLine e.1 e.2) ++ rest) t total
      = some (enterAll entries t, total + (entries.map Prod.snd).sum, rest) := by
  induction entries generalizing t total with
  | nil => simp [parseEntries, enterAll]
  | cons e es ih =>
    simp only [List.map_cons, List.nodup_cons, List.sum_cons] at hn hs ⊢
    have he := hf e (by simp)
    rw [List.flatMap_cons, List.append_assoc, List.length_cons, parseEntries,
      parseEntry_entryLine _ (hr e (by simp)) he.1 he.2]
    simp only [ht e (by simp), bne_self_eq_false, Bool.false_eq_true, if_false]
    rw [if_neg (by omega), enterAll_cons, ih]
    · rw [Nat.add_assoc]
    · exact fun e' he' => hr e' (by simp [he'])
    · exact fun e' he' => hf e' (by simp [he'])
    · exact hn.2
    · intro e' he'
      have : e'.1 ≠ e.1 := fun hc => hn.1 (hc ▸ List.mem_map_of_mem (f := Prod.fst) he')
      rw [Store.read_write_other _ _ this]
      exact ht e' (by simp [he'])
    · omega

theorem parseEntries_some {cmax n : Nat} {input rest : List Byte} {t t' : Store Nat} {total total' : Nat}
    (h : parseEntries cmax n input t total = some (t', total', rest)) :
    ∃ entries : List (Nat × Nat), entries.length = n ∧ input = (entries.flatMap fun e => entryLine e.1 e.2) ++ rest
      ∧ (∀ e ∈ entries, e.1 ≤ 255) ∧ (∀ e ∈ entries, 1 ≤ e.2 ∧ e.2 ≤ cmax) ∧ (entries.map Prod.fst).Nodup
      ∧ (∀ e ∈ entries, Store.read t e.1 = some 0) ∧ total' = total + (entries.map Prod.snd).sum
      ∧ (n = 0 ∨ total' ≤ cmax) ∧ t' = enterAll entries t := by
  induction n generalizing input t total with
  | zero =>
    simp only [parseEntries, Option.some.injEq, Prod.mk.injEq] at h
    obtain ⟨rfl, rfl, rfl⟩ := h
    exact ⟨[], rfl, rfl, by simp, by simp, by simp, by simp, rfl, .inl rfl, rfl⟩
  | succ n ih =>
    simp only [parseEntries] at h
    split at h
    · cases h
    · next x f r hp =>
      split at h
      · cases h
      · next hz =>
        split at h
        · cases h
        · next hle =>
          have hz' : Store.read t x = some 0 := by simpa using hz
          obtain ⟨rfl, hx, hf1, hf2⟩ := parseEntry_some hp
          obtain ⟨es, hl, rfl, hr, hf, hn, ht, htot, hor, rfl⟩ := ih h
          have hnotin : x ∉ es.map Prod.fst := by
            intro hc
            obtain ⟨e, he, rfl⟩ := List.mem_map.1 hc
            have := ht e he
            rw [Store.read_write_same, Option.some.injEq] at this
            omega
          refine ⟨(x, f) :: es, by simp [hl], by simp, ?_, ?_, ?_, ?_, ?_, .inr ?_, rfl⟩
          · simpa using ⟨hx, fun a b hab => hr _ hab⟩
          · intro e he
            rcases List.mem_cons.1 he with rfl | he
            · exact ⟨hf1, hf2⟩
            · exact hf e he
          · exact List.nodup_cons.2 ⟨hnotin, hn⟩
          · intro e he
            rcases List.mem_cons.1 he with rfl | he
            · exact hz'
            · have : e.1 ≠ x := fun hc => hnotin (hc ▸ List.mem_map_of_mem (f := Prod.fst) he)
              rw [← Store.read_write_other t f this]
              exact ht e he
          · simp [htot, Nat.add_assoc]
          · rcases hor with rfl | hor
            · have : es = [] := by simpa using hl
              subst this
              simp only [List.map_nil, List.sum_nil, Nat.add_zero] at htot
              omega
            · exact hor

/-! ### The whole header -/

/-- The parser accepts every admissible header and takes from it what it says (R164, R167). -/
theorem parseHeader_text {cmax : Nat} {entries : List (Nat × Nat)} (payload : List Byte)
    (h : ValidEntries cmax entries) :
    parseHeader cmax (headerText entries ++ payload)
      = some ⟨entries.length, enterAll entries zeroCounts, (entries.map Prod.snd).sum, payload⟩ := by
  have h1 := h.some_entry
  have ht : headerText entries ++ payload
      = dec entries.length ++ (byteLF :: ((entries.flatMap fun e => entryLine e.1 e.2) ++ payload)) := by
    simp [headerText, countLine]
  have hz : ∀ e ∈ entries, Store.read zeroCounts e.1 = some 0 := fun e he =>
    read_zeroCounts (by have := h.symbol_range e he; omega)
  rw [ht, parseHeader, parseUint_dec 256 _ _ h.at_most_256 (fieldEnds_lf _)]
  simp only [Option.bind_some]
  rw [if_neg (by omega), (expectByte_eq_some byteLF _ _).2 rfl, Option.bind_some,
    parseEntries_text cmax entries payload zeroCounts 0 h.symbol_range h.freq_range h.listed_once hz
      (by have := h.sum_range; omega)]
  simp

/-- The parser accepts nothing else (R166). -/
theorem parseHeader_some {cmax : Nat} {input : List Byte} {p : ParsedHeader} (h : parseHeader cmax input = some p) :
    ∃ entries, ValidEntries cmax entries ∧ input = headerText entries ++ p.rest ∧ p.nsym = entries.length
      ∧ p.total = (entries.map Prod.snd).sum ∧ p.table = enterAll entries zeroCounts := by
  simp only [parseHeader, Option.bind_eq_some_iff, Prod.exists] at h
  obtain ⟨n, r1, h1, h2⟩ := h
  split at h2
  · cases h2
  · next hn0 =>
    simp only [Option.bind_eq_some_iff, Option.map_eq_some_iff, Prod.exists] at h2
    obtain ⟨r2, h2, table, total, rest, h3, rfl⟩ := h2
    obtain ⟨rfl, hn, -⟩ := parseUint_some h1
    rw [expectByte_eq_some] at h2
    obtain ⟨entries, hl, rfl, hr, hf, hnd, -, htot, hor, rfl⟩ := parseEntries_some h3
    refine ⟨entries, ⟨by omega, by omega, hr, hf, hnd, ?_⟩, ?_, hl.symm, by simpa using htot, rfl⟩
    · have := hor.resolve_left hn0
      omega
    · rw [h2, headerText, countLine, hl]
      simp

/-! ### The writer's entries -/

/-- The entries that `SER` writes: the symbols with a non-zero count in ascending order (R163). -/
def entriesOf (count : Nat → Nat) : List (Nat × Nat) :=
  (symbols.filter fun x => count x != 0).map fun x => (x, count x)

theorem entriesOf_length (count : Nat → Nat) : (entriesOf count).length = distinctSymbols count := by
  simp [entriesOf, distinctSymbols, List.countP_eq_length_filter]

theorem header_eq_headerText {nsym : Nat} {count : Nat → Nat} (h : nsym = distinctSymbols count) :
    header nsym count = headerText (entriesOf count) := by
  rw [header, headerText, entriesOf_length, h, entriesOf, List.flatMap_map]

theorem entriesOf_fst (count : Nat → Nat) : (entriesOf count).map Prod.fst = symbols.filter fun x => count x != 0 := by
  simp [entriesOf, Function.comp_def]

theorem entriesOf_nodup (count : Nat → Nat) : ((entriesOf count).map Prod.fst).Nodup := by
  rw [entriesOf_fst]; exact List.nodup_range.filter _

theorem sum_map_filter_ne_zero (l : List Nat) (g : Nat → Nat) :
    ((l.filter fun x => g x != 0).map g).sum = (l.map g).sum := by
  induction l with
  | nil => rfl
  | cons x l ih =>
    by_cases h : g x = 0
    · simp [h, ih]
    · simp [h, ih]

theorem entriesOf_sum (count : Nat → Nat) : ((entriesOf count).map Prod.snd).sum = (symbols.map count).sum := by
  rw [← sum_map_filter_ne_zero, entriesOf, List.map_map]
  rfl

theorem mem_entriesOf {count : Nat → Nat} {e : Nat × Nat} (h : e ∈ entriesOf count) :
    e.1 < 256 ∧ e.2 = count e.1 ∧ e.2 ≠ 0 := by
  simp only [entriesOf, List.mem_map, List.mem_filter, symbols, List.mem_range, bne_iff_ne] at h
  obtain ⟨x, ⟨hx, hc⟩, rfl⟩ := h
  exact ⟨hx, rfl, hc⟩

theorem freqOf_entriesOf (count : Nat → Nat) {x : Nat} (hx : x < 256) : freqOf (entriesOf count) x = count x := by
  have gen : ∀ l : List Nat, freqOf ((l.filter fun x => count x != 0).map fun x => (x, count x)) x
      = if x ∈ l then count x else 0 := by
    intro l
    induction l with
    | nil => rfl
    | cons y l ih =>
      by_cases hy : count y = 0
      · rw [List.filter_cons_of_neg (by simp [hy]), ih]
        by_cases hxy : x = y
        · subst hxy; simp [hy]
        · simp [hxy]
      · rw [List.filter_cons_of_pos (by simpa using hy), List.map_cons, freqOf_cons, ih]
        by_cases hxy : x = y
        · subst hxy; simp
        · simp [hxy]
  rw [entriesOf, gen, if_pos (by simpa [symbols] using hx)]

theorem le_sum_symbols (count : Nat → Nat) {x : Nat} (hx : x < 256) : count x ≤ (symbols.map count).sum :=
  List.single_le_sum (fun _ _ => Nat.zero_le _) _ (List.mem_map_of_mem (by simpa [symbols] using hx))

/-- A table with a symbol whose sum is at most `CMAX` has admissible entries (R171). -/
theorem entriesOf_valid {cmax : Nat} {count : Nat → Nat} (h1 : 1 ≤ distinctSymbols count)
    (hs : (symbols.map count).sum ≤ cmax) : ValidEntries cmax (entriesOf count) where
  some_entry := by rw [entriesOf_length]; exact h1
  at_most_256 := by
    rw [entriesOf_length]
    exact le_trans List.countP_le_length (by simp [symbols])
  symbol_range e he := by have := (mem_entriesOf he).1; omega
  freq_range e he := by
    obtain ⟨hx, he2, hne⟩ := mem_entriesOf he
    have := le_sum_symbols count hx
    omega
  listed_once := entriesOf_nodup count
  sum_range := by rw [entriesOf_sum]; exact hs

end Sys2Proof.Machine
end

