-- ==== Sys2Proof/Laws/Tree.lean ====
section
/-! SUPPORT. The tree builder: the priority queue (R126), what one round does (R123), and the shape of the arena when the
rounds end (R124, R131). -/

namespace Sys2Proof.Machine

/-! ### Keys and the queue -/

theorem Key.before_iff (a b : Key) : Key.before a b = true ↔ a.1 < b.1 ∨ a.1 = b.1 ∧ a.2 < b.2 := by
  simp [Key.before]

theorem Key.before_trans {a b c : Key} (h1 : Key.before a b = true) (h2 : Key.before b c = true) :
    Key.before a c = true := by
  rw [Key.before_iff] at *; omega

theorem Key.before_total {a b : Key} (h : a.2 ≠ b.2) : Key.before a b = true ∨ Key.before b a = true := by
  simp only [Key.before_iff]; omega

/-- A queue in the order of R122. -/
def Key.Sorted (q : List Key) : Prop := q.Pairwise fun a b => Key.before a b = true

theorem Key.insert_perm (k : Key) (q : List Key) : (Key.insert k q).Perm (k :: q) := by
  induction q with
  | nil => exact .refl _
  | cons h rest ih =>
    unfold Key.insert
    split
    · exact .refl _
    · exact (ih.cons h).trans (.swap k h rest)

theorem Key.mem_insert {k e : Key} {q : List Key} : e ∈ Key.insert k q ↔ e = k ∨ e ∈ q := by
  rw [(Key.insert_perm k q).mem_iff, List.mem_cons]

theorem Key.insert_length (k : Key) (q : List Key) : (Key.insert k q).length = q.length + 1 := by
  rw [(Key.insert_perm k q).length_eq, List.length_cons]

/-- Inserting keeps the order: the key order is total on keys of distinct nodes (R122, R126). -/
theorem Key.insert_sorted {k : Key} {q : List Key} (h : Key.Sorted q) (hk : ∀ e ∈ q, e.2 ≠ k.2) :
    Key.Sorted (Key.insert k q) := by
  induction q with
  | nil => simp [Key.insert, Key.Sorted]
  | cons e rest ih =>
    unfold Key.Sorted at h ih ⊢
    rw [List.pairwise_cons] at h
    unfold Key.insert
    split
    · next hb =>
      rw [List.pairwise_cons]
      refine ⟨fun x hx => ?_, List.pairwise_cons.2 h⟩
      rcases List.mem_cons.1 hx with rfl | hx
      · exact hb
      · exact Key.before_trans hb (h.1 x hx)
    · next hb =>
      rw [List.pairwise_cons]
      refine ⟨fun x hx => ?_, ih h.2 fun x hx => hk x (by simp [hx])⟩
      rcases Key.mem_insert.1 hx with rfl | hx
      · exact (Key.before_total (hk e (by simp))).resolve_right hb
      · exact h.1 x hx

/-! ### The arena as a function, and one round -/

/-- The node at an index of an arena under construction. -/
def nodeAt (arena : List Node) (i : Nat) : Node := arena.getD i ⟨.leaf, 0, 0, 0, 0⟩

theorem nodeAt_append_lt {arena : List Node} (ext : List Node) {i : Nat} (h : i < arena.length) :
    nodeAt (arena ++ ext) i = nodeAt arena i := by
  simp [nodeAt, List.getElem?_append_left h]

theorem nodeAt_append_length (arena : List Node) (n : Node) : nodeAt (arena ++ [n]) arena.length = n := by
  simp [nodeAt]

/-- What R123 says of the internal node `j`. -/
structure Combined (node : Nat → Node) (n j : Nat) : Prop where
  left_queued : Queued node n j (node j).left
  right_queued : Queued node n j (node j).right
  left_least : ∀ i, Queued node n j i → i ≠ (node j).left → KeyBefore node (node j).left i
  right_next : ∀ i, Queued node n j i → i ≠ (node j).left → i ≠ (node j).right → KeyBefore node (node j).right i
  distinct : (node j).left ≠ (node j).right
  kind : (node j).kind = .internal
  sym : (node j).sym = 0
  weight : (node j).weight = (node (node j).left).weight + (node (node j).right).weight

theorem queued_congr {f g : Nat → Node} {n j i : Nat} (h : ∀ k < j, g k = f k) (hq : Queued f n j i) :
    Queued g n j i := ⟨hq.1, fun k h1 h2 => by rw [h k h2]; exact hq.2 k h1 h2⟩

theorem Combined.congr {f g : Nat → Node} {n j : Nat} (h : ∀ k ≤ j, g k = f k) (c : Combined f n j) : Combined g n j := by
  have hlt : ∀ k < j, g k = f k := fun k hk => h k (by omega)
  have hj := h j le_rfl
  have back : ∀ i, Queued g n j i → Queued f n j i := fun i hq => queued_congr (fun k hk => (hlt k hk).symm) hq
  constructor
  · rw [hj]; exact queued_congr hlt c.left_queued
  · rw [hj]; exact queued_congr hlt c.right_queued
  · intro i hq hi
    rw [hj] at hi ⊢
    have := c.left_least i (back i hq) hi
    unfold KeyBefore at this ⊢
    rwa [hlt _ c.left_queued.1, hlt _ hq.1]
  · intro i hq hl hr
    rw [hj] at hl hr ⊢
    have := c.right_next i (back i hq) hl hr
    unfold KeyBefore at this ⊢
    rwa [hlt _ c.right_queued.1, hlt _ hq.1]
  · rw [hj]; exact c.distinct
  · rw [hj]; exact c.kind
  · rw [hj]; exact c.sym
  · rw [hj, hlt _ c.left_queued.1, hlt _ c.right_queued.1]; exact c.weight

/-- What holds between two rounds of R120: the arena so far, the queue, the leaves they grew from, and their weight. -/
structure Building (ls : List Node) (total : Nat) (arena : List Node) (q : List Key) : Prop where
  leaves : ∃ ext, arena = ls ++ ext
  sorted : Key.Sorted q
  keys : ∀ k ∈ q, k.2 < arena.length ∧ k.1 = (nodeAt arena k.2).weight
  queued : ∀ i, (∃ k ∈ q, k.2 = i) ↔ Queued (nodeAt arena) ls.length arena.length i
  combined : ∀ j, ls.length ≤ j → j < arena.length → Combined (nodeAt arena) ls.length j
  sum : (q.map Prod.fst).sum = total
  weights : ∀ i < arena.length, 1 ≤ (nodeAt arena i).weight ∧ (nodeAt arena i).weight ≤ total
  size : arena.length + q.length = 2 * ls.length

theorem Building.round {ls arena : List Node} {total : Nat} {a b : Key} {rest : List Key}
    (h : Building ls total arena (a :: b :: rest)) :
    Building ls total (arena ++ [Node.internalOf a.2 b.2 (a.1 + b.1)]) (Key.insert (a.1 + b.1, arena.length) rest) := by
  obtain ⟨ext, hext⟩ := h.leaves
  have hlen : ls.length ≤ arena.length := by rw [hext]; simp
  have ha := h.keys a (by simp)
  have hb := h.keys b (by simp)
  have hsort := h.sorted
  unfold Key.Sorted at hsort
  rw [List.pairwise_cons, List.pairwise_cons] at hsort
  obtain ⟨hsa, hsb, hsr⟩ := hsort
  have hab : a.2 ≠ b.2 := by
    intro hc
    have := hsa b (by simp)
    rw [Key.before_iff, ha.2, hb.2, hc] at this
    omega
  have hne_rest : ∀ k ∈ rest, k.2 ≠ a.2 ∧ k.2 ≠ b.2 := by
    intro k hk
    have hkk := h.keys k (by simp [hk])
    constructor
    · intro hc
      have := hsa k (by simp [hk])
      rw [Key.before_iff, ha.2, hkk.2, hc] at this
      omega
    · intro hc
      have := hsb k hk
      rw [Key.before_iff, hb.2, hkk.2, hc] at this
      omega
  set new := Node.internalOf a.2 b.2 (a.1 + b.1) with hnew
  have hold : ∀ i < arena.length, nodeAt (arena ++ [new]) i = nodeAt arena i := fun i hi => nodeAt_append_lt _ hi
  have hlast : nodeAt (arena ++ [new]) arena.length = new := nodeAt_append_length _ _
  have hqold : ∀ i, Queued (nodeAt (arena ++ [new])) ls.length arena.length i ↔ ∃ k ∈ a :: b :: rest, k.2 = i := by
    intro i
    rw [h.queued]
    exact ⟨queued_congr fun k hk => (hold k hk).symm, queued_congr hold⟩
  have hsum := h.sum
  simp only [List.map_cons, List.sum_cons] at hsum
  have hcomb : Combined (nodeAt (arena ++ [new])) ls.length arena.length := by
    constructor <;> simp only [hlast]
    · exact (hqold a.2).2 ⟨a, by simp, rfl⟩
    · exact (hqold b.2).2 ⟨b, by simp, rfl⟩
    · intro i hq hi
      obtain ⟨k, hk, rfl⟩ := (hqold i).1 hq
      have hk' := h.keys k hk
      rcases List.mem_cons.1 hk with rfl | hk
      · exact absurd rfl hi
      · have := hsa k hk
        rw [Key.before_iff] at this
        show KeyBefore _ a.2 k.2
        rw [KeyBefore, hold _ ha.1, hold _ hk'.1, ← ha.2, ← hk'.2]
        exact this
    · intro i hq hl hr
      obtain ⟨k, hk, rfl⟩ := (hqold i).1 hq
      have hk' := h.keys k hk
      rcases List.mem_cons.1 hk with rfl | hk
      · exact absurd rfl hl
      · rcases List.mem_cons.1 hk with rfl | hk
        · exact absurd rfl hr
        · have := hsb k hk
          rw [Key.before_iff] at this
          show KeyBefore _ b.2 k.2
          rw [KeyBefore, hold _ hb.1, hold _ hk'.1, ← hb.2, ← hk'.2]
          exact this
    · exact hab
    · rfl
    · rfl
    · show a.1 + b.1 = (nodeAt (arena ++ [new]) a.2).weight + (nodeAt (arena ++ [new]) b.2).weight
      rw [hold _ ha.1, hold _ hb.1, ← ha.2, ← hb.2]
  constructor
  · exact ⟨ext ++ [new], by rw [hext, List.append_assoc]⟩
  · exact Key.insert_sorted hsr fun e he => by have := (h.keys e (by simp [he])).1; simp only; omega
  · intro k hk
    rw [List.length_append, List.length_singleton]
    rcases Key.mem_insert.1 hk with rfl | hk
    · exact ⟨by simp, by simp only; rw [hlast]; rfl⟩
    · have := h.keys k (by simp [hk])
      exact ⟨by omega, by rw [hold _ this.1]; exact this.2⟩
  · intro i
    rw [List.length_append, List.length_singleton]
    constructor
    · rintro ⟨k, hk, rfl⟩
      rcases Key.mem_insert.1 hk with rfl | hk
      · refine ⟨by simp, fun j h1 h2 => ?_⟩
        by_cases hj : j = arena.length
        · subst hj; rw [hlast]
          exact ⟨fun hc => by have : a.2 = arena.length := hc; omega,
            fun hc => by have : b.2 = arena.length := hc; omega⟩
        · have hj2 : j < arena.length := by omega
          have hc := h.combined j h1 hj2
          have hl := hc.left_queued.1
          have hr := hc.right_queued.1
          rw [hold j hj2]
          constructor <;> simp only [ne_eq] <;> omega
      · have hq := (hqold k.2).2 ⟨k, by simp [hk], rfl⟩
        refine ⟨by have := hq.1; omega, fun j h1 h2 => ?_⟩
        by_cases hj : j = arena.length
        · subst hj; rw [hlast]
          exact ⟨fun hc => (hne_rest k hk).1 hc.symm, fun hc => (hne_rest k hk).2 hc.symm⟩
        · exact hq.2 j h1 (by omega)
    · intro hq
      by_cases hi : i = arena.length
      · exact ⟨_, Key.mem_insert.2 (.inl rfl), hi.symm⟩
      · have hi2 : i < arena.length := by have := hq.1; omega
        obtain ⟨k, hk, rfl⟩ := (hqold i).1 ⟨hi2, fun j h1 h2 => hq.2 j h1 (by omega)⟩
        have hn := hq.2 arena.length hlen (by omega)
        rw [hlast] at hn
        rcases List.mem_cons.1 hk with rfl | hk
        · exact absurd rfl hn.1
        · rcases List.mem_cons.1 hk with rfl | hk
          · exact absurd rfl hn.2
          · exact ⟨k, Key.mem_insert.2 (.inr hk), rfl⟩
  · intro j h1 h2
    rw [List.length_append, List.length_singleton] at h2
    by_cases hj : j = arena.length
    · subst hj; exact hcomb
    · exact (h.combined j h1 (by omega)).congr fun k hk => hold k (by omega)
  · rw [((Key.insert_perm _ rest).map Prod.fst).sum_eq]
    simp only [List.map_cons, List.sum_cons]
    omega
  · intro i hi
    rw [List.length_append, List.length_singleton] at hi
    by_cases hj : i = arena.length
    · subst hj
      rw [hlast]
      have := h.weights a.2 ha.1
      show 1 ≤ a.1 + b.1 ∧ a.1 + b.1 ≤ total
      omega
    · rw [hold i (by omega)]; exact h.weights i (by omega)
  · have := h.size
    rw [List.length_append, List.length_singleton, Key.insert_length]
    simp only [List.length_cons] at this
    omega

/-- The rounds end with one member in the queue (R124). -/
theorem Building.combine {ls : List Node} {total : Nat} (fuel : Nat) :
    ∀ (arena : List Node) (q : List Key), Building ls total arena q → q ≠ [] → q.length ≤ fuel + 1 →
      Building ls total (combine fuel arena q).1 (combine fuel arena q).2 ∧ (combine fuel arena q).2.length = 1 := by
  induction fuel with
  | zero =>
    intro arena q h hne hl
    match q with
    | [] => exact absurd rfl hne
    | [k] => exact ⟨h, rfl⟩
    | _ :: _ :: _ => simp at hl
  | succ fuel ih =>
    intro arena q h hne hl
    match q with
    | [] => exact absurd rfl hne
    | [k] => exact ⟨h, rfl⟩
    | a :: b :: rest =>
      refine ih _ _ h.round ?_ ?_
      · intro hc
        have := congrArg List.length hc
        rw [Key.insert_length] at this
        simp at this
      · rw [Key.insert_length]
        simp only [List.length_cons] at hl
        omega

/-! ### The queue of the leaves -/

theorem leaves_length (count : Nat → Nat) : (leaves count).length = distinctSymbols count := by
  simp [leaves, distinctSymbols, List.countP_eq_length_filter]

theorem foldl_insert_perm (ks q : List Key) : (ks.foldl (fun q k => Key.insert k q) q).Perm (ks ++ q) := by
  induction ks generalizing q with
  | nil => exact .refl _
  | cons k ks ih =>
    refine (ih _).trans ?_
    rw [List.cons_append]
    exact ((Key.insert_perm k q).append_left ks).trans List.perm_middle

theorem foldl_insert_sorted (ks q : List Key) (hs : Key.Sorted q) (hn : ((ks ++ q).map Prod.snd).Nodup) :
    Key.Sorted (ks.foldl (fun q k => Key.insert k q) q) := by
  induction ks generalizing q with
  | nil => exact hs
  | cons k ks ih =>
    have hn' : ((k :: (ks ++ q)).map Prod.snd).Nodup := hn
    rw [List.map_cons, List.nodup_cons] at hn'
    refine ih _ (Key.insert_sorted hs fun e he hc => hn'.1 ?_) ?_
    · rw [← hc]
      exact List.mem_map_of_mem (by simp [he])
    · have : (ks ++ Key.insert k q).Perm (k :: (ks ++ q)) :=
        ((Key.insert_perm k q).append_left ks).trans List.perm_middle
      exact ((this.map Prod.snd).nodup_iff).2 hn

/-- The keys of a list of leaves. -/
def leafKeys (ls : List Node) : List Key := ls.zipIdx.map fun e => (e.1.weight, e.2)

theorem leafKeys_snd (ls : List Node) : (leafKeys ls).map Prod.snd = List.range ls.length := by
  rw [leafKeys, List.map_map]
  show ls.zipIdx.map Prod.snd = _
  apply List.ext_getElem <;> simp

theorem leafKeys_fst (ls : List Node) : (leafKeys ls).map Prod.fst = ls.map Node.weight := by
  rw [leafKeys, List.map_map]
  show ls.zipIdx.map (Node.weight ∘ Prod.fst) = _
  apply List.ext_getElem <;> simp

theorem leafQueue_perm (ls : List Node) : (leafQueue ls).Perm (leafKeys ls) := by
  have := foldl_insert_perm (leafKeys ls) []
  rwa [List.append_nil] at this

theorem leafQueue_length (ls : List Node) : (leafQueue ls).length = ls.length := by
  rw [(leafQueue_perm ls).length_eq, leafKeys]; simp

/-- Before the first round (R120, R121). -/
theorem building_leaves (ls : List Node) (hp : ∀ l ∈ ls, 1 ≤ l.weight) :
    Building ls (ls.map Node.weight).sum ls (leafQueue ls) := by
  have hmem : ∀ k ∈ leafQueue ls, ∃ h : k.2 < ls.length, k.1 = ls[k.2].weight := by
    intro k hk
    have hk' := (leafQueue_perm ls).mem_iff.1 hk
    simp only [leafKeys, List.mem_map, Prod.exists] at hk'
    obtain ⟨l, i, hli, rfl⟩ := hk'
    rw [List.mem_zipIdx_iff_getElem?] at hli
    obtain ⟨hi, hl⟩ := List.getElem?_eq_some_iff.1 hli
    exact ⟨hi, congrArg Node.weight hl.symm⟩
  have hat : ∀ i (h : i < ls.length), nodeAt ls i = ls[i] := fun i h => by simp [nodeAt, h]
  constructor
  · exact ⟨[], by simp⟩
  · exact foldl_insert_sorted (leafKeys ls) [] (by simp [Key.Sorted])
      (by rw [List.append_nil, leafKeys_snd]; exact List.nodup_range)
  · intro k hk
    obtain ⟨hi, hw⟩ := hmem k hk
    exact ⟨hi, by rw [hat _ hi, hw]⟩
  · intro i
    constructor
    · rintro ⟨k, hk, rfl⟩
      exact ⟨(hmem k hk).1, fun j h1 h2 => by omega⟩
    · intro hq
      have : i ∈ (leafKeys ls).map Prod.snd := by rw [leafKeys_snd]; exact List.mem_range.2 hq.1
      obtain ⟨k, hk, rfl⟩ := List.mem_map.1 this
      exact ⟨k, (leafQueue_perm ls).mem_iff.2 hk, rfl⟩
  · intro j h1 h2; omega
  · rw [((leafQueue_perm ls).map Prod.fst).sum_eq, leafKeys_fst]
  · intro i hi
    rw [hat i hi]
    exact ⟨hp _ (List.getElem_mem hi),
      List.single_le_sum (fun _ _ => Nat.zero_le _) _ (List.mem_map_of_mem (List.getElem_mem hi))⟩
  · rw [leafQueue_length]; omega

/-! ### The arena when the rounds end -/

/-- The arena of a frequency table with a symbol (R124): its size, its root, and what its nodes are. -/
theorem buildArena_building {count : Nat → Nat} (h : 1 ≤ distinctSymbols count) :
    Building (leaves count) (symbols.map count).sum (buildArena count).1 (buildArena count).2
      ∧ ∃ w, (buildArena count).2 = [(w, 2 * distinctSymbols count - 2)] := by
  have hl := leaves_length count
  have hsum : ((leaves count).map Node.weight).sum = (symbols.map count).sum := by
    rw [← sum_map_filter_ne_zero, leaves, List.map_map]
    rfl
  have hp : ∀ l ∈ leaves count, 1 ≤ l.weight := by
    intro l hl
    simp only [leaves, List.mem_map, List.mem_filter, bne_iff_ne] at hl
    obtain ⟨x, ⟨-, hx⟩, rfl⟩ := hl
    show 1 ≤ count x
    omega
  have hb := building_leaves (leaves count) hp
  rw [hsum] at hb
  have hq := leafQueue_length (leaves count)
  have := Building.combine (leaves count).length _ _ hb (by intro hc; rw [hc] at hq; simp at hq; omega) (by omega)
  rw [← buildArena] at this
  refine ⟨this.1, ?_⟩
  obtain ⟨hbb, hone⟩ := this
  obtain ⟨k, hk⟩ := List.length_eq_one_iff.1 hone
  have hsize := hbb.size
  rw [hone, hl] at hsize
  have hlast : Queued (nodeAt (buildArena count).1) (leaves count).length (buildArena count).1.length
      ((buildArena count).1.length - 1) := by
    refine ⟨by omega, fun j h1 h2 => ?_⟩
    have hc := hbb.combined j h1 h2
    have hcl := hc.left_queued.1
    have hcr := hc.right_queued.1
    constructor <;> omega
  obtain ⟨k', hk', he⟩ := (hbb.queued _).2 hlast
  rw [hk, List.mem_singleton] at hk'
  subst hk'
  refine ⟨k'.1, ?_⟩
  rw [hk]
  have : k'.2 = 2 * distinctSymbols count - 2 := by omega
  rw [← this]

theorem buildArena_length {count : Nat → Nat} (h : 1 ≤ distinctSymbols count) :
    (buildArena count).1.length = 2 * distinctSymbols count - 1 := by
  obtain ⟨hb, w, hw⟩ := buildArena_building h
  have := hb.size
  rw [hw, leaves_length, List.length_singleton] at this
  omega

end Sys2Proof.Machine
end

