-- ==== Sys2Proof/Laws/Paths.lean ====
section
/-! SUPPORT. Paths in the tree: how a leaf path and an inner path unfold, that leaf paths are prefix-free, and what the
shape of a valid arena (R131) says of them: every node is reached, along one path, of at most `NSYM - 1` bits (R143). -/

namespace Sys2Proof.Machine

/-! ### Unfolding a path from its head -/

@[simp] theorem follow_nil (node : Nat → Node) (i : Nat) : follow node i [] = i := rfl

@[simp] theorem follow_cons (node : Nat → Node) (i : Nat) (b : Bool) (q : List Bool) :
    follow node i (b :: q) = follow node (descend node i b) q := rfl

theorem follow_append (node : Nat → Node) (i : Nat) (p q : List Bool) :
    follow node i (p ++ q) = follow node (follow node i p) q := by simp [follow]

theorem leafPath_nil (node : Nat → Node) (i : Nat) (x : Byte) :
    LeafPath node i [] x ↔ (node i).kind = .leaf ∧ (node i).sym = x := by simp [LeafPath]

theorem leafPath_cons (node : Nat → Node) (i : Nat) (b : Bool) (q : List Bool) (x : Byte) :
    LeafPath node i (b :: q) x ↔ (node i).kind = .internal ∧ LeafPath node (descend node i b) q x := by
  unfold LeafPath
  constructor
  · rintro ⟨h, hk, hs⟩
    exact ⟨h 0 (by simp), fun k hl => h (k + 1) (by simpa using hl), hk, hs⟩
  · rintro ⟨h0, h, hk, hs⟩
    refine ⟨fun k hl => ?_, hk, hs⟩
    cases k with
    | zero => exact h0
    | succ k => exact h k (by simpa using hl)

theorem innerPath_nil (node : Nat → Node) (i : Nat) : InnerPath node i [] ↔ (node i).kind = .internal := by
  simp [InnerPath]

theorem innerPath_cons (node : Nat → Node) (i : Nat) (b : Bool) (q : List Bool) :
    InnerPath node i (b :: q) ↔ (node i).kind = .internal ∧ InnerPath node (descend node i b) q := by
  unfold InnerPath
  constructor
  · intro h
    exact ⟨h 0 (by simp), fun k hl => h (k + 1) (by simpa using hl)⟩
  · rintro ⟨h0, h⟩ k hl
    cases k with
    | zero => exact h0
    | succ k => exact h k (by simpa using hl)

theorem leafPath_congr {f g : Nat → Node} {i : Nat} {q : List Bool} {x : Byte}
    (h : ∀ k ≤ q.length, g (follow f i (q.take k)) = f (follow f i (q.take k))) (hl : LeafPath f i q x) :
    LeafPath g i q x := by
  induction q generalizing i with
  | nil =>
    have := h 0 le_rfl
    simp only [List.take_nil, follow_nil] at this
    rw [leafPath_nil] at hl ⊢
    rwa [this]
  | cons b q ih =>
    have h0 := h 0 (by simp)
    simp only [List.take_zero, follow_nil] at h0
    rw [leafPath_cons] at hl ⊢
    have hd : descend g i b = descend f i b := by rw [descend, descend, h0]
    rw [h0, hd]
    exact ⟨hl.1, ih (fun k hk => h (k + 1) (by simpa using hk)) hl.2⟩

/-- Two leaf paths from one node, one a prefix of the other, are the same (R143, R145). -/
theorem leafPath_prefix {node : Nat → Node} {i : Nat} {p q : List Bool} {x y : Byte} (hp : LeafPath node i p x)
    (hq : LeafPath node i q y) (h : p <+: q) : p = q ∧ x = y := by
  induction p generalizing i q with
  | nil =>
    rw [leafPath_nil] at hp
    cases q with
    | nil =>
      rw [leafPath_nil] at hq
      exact ⟨rfl, hp.2.symm.trans hq.2⟩
    | cons b q =>
      rw [leafPath_cons] at hq
      exact absurd (hp.1.symm.trans hq.1) (by decide)
  | cons b p ih =>
    obtain ⟨r, rfl⟩ := h
    rw [List.cons_append, leafPath_cons] at hq
    rw [leafPath_cons] at hp
    obtain ⟨h1, h2⟩ := ih hp.2 hq.2 ⟨r, rfl⟩
    exact ⟨by rw [List.cons_append, ← h1], h2⟩

/-! ### The shape of a valid arena -/

/-- What R131 says of the links of an arena of `n` leaves. -/
structure Shape (node : Nat → Node) (n : Nat) : Prop where
  pos : 1 ≤ n
  leaf : ∀ i < n, (node i).kind = .leaf
  internal : ∀ j, n ≤ j → j < 2 * n - 1 →
    (node j).kind = .internal ∧ (node j).left < j ∧ (node j).right < j ∧ (node j).left ≠ (node j).right
  one_parent : ∀ i < 2 * n - 2, ∃ j, n ≤ j ∧ j < 2 * n - 1 ∧ ((node j).left = i ∨ (node j).right = i)
    ∧ ∀ k, n ≤ k → k < 2 * n - 1 → ((node k).left = i ∨ (node k).right = i) → k = j

/-- Every node on the way is internal, up to the last one, which may be any. -/
def Way (node : Nat → Node) (start : Nat) (path : List Bool) : Prop :=
  ∀ k < path.length, (node (follow node start (path.take k))).kind = .internal

theorem way_nil (node : Nat → Node) (i : Nat) : Way node i [] := fun k hk => by simp at hk

theorem way_cons (node : Nat → Node) (i : Nat) (b : Bool) (q : List Bool) :
    Way node i (b :: q) ↔ (node i).kind = .internal ∧ Way node (descend node i b) q := by
  unfold Way
  constructor
  · intro h
    exact ⟨h 0 (by simp), fun k hl => h (k + 1) (by simpa using hl)⟩
  · rintro ⟨h0, h⟩ k hl
    cases k with
    | zero => exact h0
    | succ k => exact h k (by simpa using hl)

theorem way_snoc (node : Nat → Node) (i : Nat) (q : List Bool) (b : Bool) :
    Way node i (q ++ [b]) ↔ Way node i q ∧ (node (follow node i q)).kind = .internal := by
  induction q generalizing i with
  | nil => simp [way_cons, way_nil]
  | cons c q ih => rw [List.cons_append, way_cons, way_cons, ih, follow_cons, and_assoc]

theorem leafPath_iff_way (node : Nat → Node) (i : Nat) (q : List Bool) (x : Byte) :
    LeafPath node i q x ↔ Way node i q ∧ (node (follow node i q)).kind = .leaf ∧ (node (follow node i q)).sym = x := Iff.rfl

namespace Shape

variable {node : Nat → Node} {n : Nat}

theorem le_of_internal (h : Shape node n) {j : Nat} (hk : (node j).kind = .internal) : n ≤ j := by
  by_contra hc
  have := h.leaf j (by omega)
  rw [hk] at this
  cases this

theorem descend_lt (h : Shape node n) {i : Nat} (hi : i < 2 * n - 1) (hk : (node i).kind = .internal) (b : Bool) :
    descend node i b < i := by
  obtain ⟨-, hl, hr, -⟩ := h.internal i (h.le_of_internal hk) hi
  unfold descend
  split <;> assumption

/-- A way goes down (R181), so it is no longer than the number of internal nodes from its start. -/
theorem way_bound (h : Shape node n) {i : Nat} (hi : i < 2 * n - 1) {q : List Bool} (hw : Way node i q) :
    follow node i q + q.length ≤ i ∧ (q ≠ [] → q.length + n ≤ i + 1) := by
  induction q generalizing i with
  | nil => simp
  | cons b q ih =>
    rw [way_cons] at hw
    have hlt := h.descend_lt hi hw.1 b
    have hn := h.le_of_internal hw.1
    obtain ⟨h1, h2⟩ := ih (by omega) hw.2
    rw [follow_cons, List.length_cons]
    refine ⟨by omega, fun _ => ?_⟩
    cases q with
    | nil => simp only [List.length_nil]; omega
    | cons c q =>
      have := h2 (by simp)
      omega

/-- Every node is on a way from the root (R131: "every node other than the root is the child of exactly one"). -/
theorem reached (h : Shape node n) {i : Nat} (hi : i < 2 * n - 1) :
    ∃ q, Way node (2 * n - 2) q ∧ follow node (2 * n - 2) q = i := by
  induction hd : 2 * n - 2 - i using Nat.strongRecOn generalizing i with
  | ind d ih =>
    by_cases hr : i = 2 * n - 2
    · exact ⟨[], way_nil _ _, by simp [hr]⟩
    · obtain ⟨j, hj1, hj2, hc, -⟩ := h.one_parent i (by omega)
      obtain ⟨hk, hl, hrr, -⟩ := h.internal j hj1 hj2
      have hij : i < j := by omega
      obtain ⟨q, hw, hf⟩ := ih (2 * n - 2 - j) (by omega) hj2 rfl
      rcases hc with hc | hc
      · exact ⟨q ++ [false], (way_snoc ..).2 ⟨hw, by rw [hf]; exact hk⟩, by simp [follow_append, hf, descend, hc]⟩
      · exact ⟨q ++ [true], (way_snoc ..).2 ⟨hw, by rw [hf]; exact hk⟩, by simp [follow_append, hf, descend, hc]⟩

/-- There is one way only from the root to a node. -/
theorem way_unique (h : Shape node n) {p q : List Bool} (hp : Way node (2 * n - 2) p) (hq : Way node (2 * n - 2) q)
    (hf : follow node (2 * n - 2) p = follow node (2 * n - 2) q) : p = q := by
  have hpos := h.pos
  induction hl : p.length generalizing p q with
  | zero =>
    rw [List.length_eq_zero_iff] at hl
    subst hl
    have := (h.way_bound (by omega) hq).1
    rw [← hf, follow_nil] at this
    exact (List.length_eq_zero_iff.1 (by omega)).symm
  | succ m ih =>
    rcases List.eq_nil_or_concat p with rfl | ⟨p', b, rfl⟩
    · simp at hl
    rcases List.eq_nil_or_concat q with rfl | ⟨q', c, rfl⟩
    · have := (h.way_bound (by omega) hp).1
      rw [hf, follow_nil] at this
      simp at this
    simp only [List.concat_eq_append] at *
    rw [way_snoc] at hp hq
    simp only [follow_append, follow_cons, follow_nil] at hf
    have hbp := h.way_bound (by omega) hp.1
    have hbq := h.way_bound (by omega) hq.1
    have hlt := h.descend_lt (by omega) hp.2 b
    obtain ⟨j, -, -, -, hu⟩ := h.one_parent (descend node (follow node (2 * n - 2) p') b) (by omega)
    have h1 := hu _ (h.le_of_internal hp.2) (by omega) (by cases b <;> simp [descend])
    have h2 := hu _ (h.le_of_internal hq.2) (by omega) (by rw [hf]; cases c <;> simp [descend])
    have hpq := ih hp.1 hq.1 (h1.trans h2.symm) (by simp at hl; omega)
    subst hpq
    have hne := (h.internal _ (h.le_of_internal hp.2) (by omega)).2.2.2
    have : b = c := by
      cases b <;> cases c <;> first | rfl | (simp [descend] at hf; omega)
    rw [this]

theorem leaf_lt (h : Shape node n) {i : Nat} (hi : i < 2 * n - 1) (hk : (node i).kind = .leaf) : i < n := by
  by_contra hc
  have := (h.internal i (by omega) hi).1
  rw [hk] at this
  cases this

/-- A leaf path from the root has at most `n - 1` bits (R143). -/
theorem leafPath_length (h : Shape node n) {q : List Bool} {x : Byte} (hq : LeafPath node (2 * n - 2) q x) :
    q.length ≤ n - 1 := by
  have hpos := h.pos
  have := (h.way_bound (by omega) ((leafPath_iff_way ..).1 hq).1).2
  by_cases hne : q = []
  · simp [hne]
  · have := this hne
    omega

end Shape

end Sys2Proof.Machine
end

