-- ==== Sys2Proof/Laws/Codes.lean ====
section
/-! SUPPORT. The code-table generator: `visit` lists exactly the leaf paths (R140, R141), `CODET` holds the paths listed,
and the lengths of the paths below a node meet the Kraft equality (R143). -/

namespace Sys2Proof.Machine

/-! ### `visit` -/

theorem visit_leaf {node : Nat → Node} {i : Nat} (h : (node i).kind = .leaf) (d : Nat) (path : List Bool) :
    visit node (d + 1) i path = [((node i).sym, path)] := by simp [visit, h]

theorem visit_internal {node : Nat → Node} {i : Nat} (h : (node i).kind = .internal) (d : Nat) (path : List Bool) :
    visit node (d + 1) i path
      = visit node d (node i).left (path ++ [false]) ++ visit node d (node i).right (path ++ [true]) := by
  simp [visit, h]

/-- What `visit` records are leaf paths. -/
theorem mem_visit {node : Nat → Node} {d i : Nat} {path : List Bool} {e : Byte × List Bool} (h : e ∈ visit node d i path) :
    ∃ q, e.2 = path ++ q ∧ LeafPath node i q e.1 := by
  induction d generalizing i path with
  | zero => simp [visit] at h
  | succ d ih =>
    cases hk : (node i).kind with
    | leaf =>
      rw [visit_leaf hk, List.mem_singleton] at h
      subst h
      exact ⟨[], by simp, by rw [leafPath_nil]; exact ⟨hk, rfl⟩⟩
    | internal =>
      rw [visit_internal hk, List.mem_append] at h
      rcases h with h | h <;> obtain ⟨q, hq, hl⟩ := ih h
      · exact ⟨false :: q, by simpa using hq, by rw [leafPath_cons]; exact ⟨hk, hl⟩⟩
      · exact ⟨true :: q, by simpa using hq, by rw [leafPath_cons]; exact ⟨hk, hl⟩⟩

/-- `visit` records every leaf path that is short enough. -/
theorem visit_mem {node : Nat → Node} {d i : Nat} {q : List Bool} {x : Byte} (path : List Bool)
    (h : LeafPath node i q x) (hd : q.length < d) : (x, path ++ q) ∈ visit node d i path := by
  induction q generalizing d i path with
  | nil =>
    rw [leafPath_nil] at h
    cases d with
    | zero => simp at hd
    | succ d => rw [visit_leaf h.1, h.2]; simp
  | cons b q ih =>
    rw [leafPath_cons] at h
    cases d with
    | zero => simp at hd
    | succ d =>
      rw [visit_internal h.1, List.mem_append]
      have := ih (path ++ [b]) h.2 (by simpa using hd)
      rw [List.append_assoc] at this
      cases b with
      | false => exact .inl this
      | true => exact .inr this

/-- Every way down from `i` that stays on internal nodes is shorter than `d`. -/
def Shallow (node : Nat → Node) (d i : Nat) : Prop := ∀ q, Way node i q → q.length < d

theorem Shape.shallow {node : Nat → Node} {n i : Nat} (h : Shape node n) (hi : i < 2 * n - 1) :
    Shallow node n i := by
  intro q hq
  have := (h.way_bound hi hq).2
  have hpos := h.pos
  by_cases hne : q = []
  · simp [hne]; omega
  · have := this hne; omega

/-- The Kraft sum of the paths recorded below a node, scaled by `2^D`. -/
theorem visit_kraft {node : Nat → Node} {D d i : Nat} (path : List Bool) (hs : Shallow node d i)
    (hD : path.length + d ≤ D + 1) :
    ((visit node d i path).map fun e => 2 ^ (D - e.2.length)).sum = 2 ^ (D - path.length) := by
  induction d generalizing i path with
  | zero => exact absurd (hs [] (way_nil _ _)) (by simp)
  | succ d ih =>
    cases hk : (node i).kind with
    | leaf => simp [visit_leaf hk]
    | internal =>
      have hb : ∀ b, Shallow node d (descend node i b) := fun b q hq => by
        have := hs (b :: q) ((way_cons ..).2 ⟨hk, hq⟩)
        simpa using this
      have hd : 1 ≤ d := by
        have := hb false [] (way_nil _ _)
        simp at this
        omega
      have hl := ih (path ++ [false]) (hb false) (by simp; omega)
      have hr := ih (path ++ [true]) (hb true) (by simp; omega)
      simp only [descend] at hl hr
      rw [visit_internal hk, List.map_append, List.sum_append]
      simp only [Bool.false_eq_true, if_false, if_true] at hl hr
      rw [hl, hr]
      simp only [List.length_append, List.length_cons, List.length_nil]
      have : D - path.length = (D - (path.length + 1)) + 1 := by omega
      rw [this, pow_succ]
      simp only [Nat.zero_add]
      omega

/-- The paths recorded below a node are different. -/
theorem visit_nodup (node : Nat → Node) (d i : Nat) (path : List Bool) :
    ((visit node d i path).map Prod.snd).Nodup := by
  induction d generalizing i path with
  | zero => simp [visit]
  | succ d ih =>
    cases hk : (node i).kind with
    | leaf => simp [visit_leaf hk]
    | internal =>
      rw [visit_internal hk, List.map_append, List.nodup_append]
      refine ⟨ih _ _, ih _ _, fun p hp q hq => ?_⟩
      obtain ⟨e, he, rfl⟩ := List.mem_map.1 hp
      obtain ⟨f, hf, rfl⟩ := List.mem_map.1 hq
      obtain ⟨r, hr, -⟩ := mem_visit he
      obtain ⟨t, ht, -⟩ := mem_visit hf
      rw [hr, ht]
      simp

/-! ### `CODET` -/

theorem read_codeFold_other (codes : List (Byte × List Bool)) (t : Store Code) (x : Nat)
    (h : ∀ e ∈ codes, e.1.toNat ≠ x) :
    Store.read (codes.foldl (fun t e => Store.write t e.1.toNat (Code.ofPath e.2)) t) x = Store.read t x := by
  induction codes generalizing t with
  | nil => rfl
  | cons e es ih =>
    rw [List.foldl_cons, ih _ fun e he => h e (by simp [he]), Store.read_write_other]
    exact (h e (by simp)).symm

theorem read_codeFold {codes : List (Byte × List Bool)} (t : Store Code) {x : Nat} {p : List Bool}
    (hm : ∃ e ∈ codes, e.1.toNat = x) (hu : ∀ e ∈ codes, e.1.toNat = x → e.2 = p) :
    Store.read (codes.foldl (fun t e => Store.write t e.1.toNat (Code.ofPath e.2)) t) x = some (Code.ofPath p) := by
  induction codes generalizing t with
  | nil => obtain ⟨e, he, -⟩ := hm; simp at he
  | cons e es ih =>
    rw [List.foldl_cons]
    by_cases hin : ∃ e ∈ es, e.1.toNat = x
    · exact ih _ hin fun e he => hu e (by simp [he])
    · rw [read_codeFold_other _ _ _ fun e he hc => hin ⟨e, he, hc⟩]
      obtain ⟨f, hf, hfx⟩ := hm
      rcases List.mem_cons.1 hf with rfl | hf
      · rw [← hfx, Store.read_write_same, hu f (by simp) hfx]
      · exact absurd ⟨f, hf, hfx⟩ hin

/-- The record of a symbol that no path was recorded for (R38). -/
theorem read_codeTable_other {codes : List (Byte × List Bool)} {x : Nat} (hx : x < 256) (h : ∀ e ∈ codes, e.1.toNat ≠ x) :
    Store.read (codeTable codes) x = some Code.empty := by
  rw [codeTable, read_codeFold_other _ _ _ h, read_table _ hx]

/-- The record of a symbol with one path (R140). -/
theorem read_codeTable {codes : List (Byte × List Bool)} {x : Nat} {p : List Bool} (hm : ∃ e ∈ codes, e.1.toNat = x)
    (hu : ∀ e ∈ codes, e.1.toNat = x → e.2 = p) : Store.read (codeTable codes) x = some (Code.ofPath p) :=
  read_codeFold _ hm hu

/-- `CODET` is in canonical form, and has 256 entries. -/
theorem codeTable_ok (codes : List (Byte × List Bool)) :
    Store.wf (codeTable codes) ∧ (∀ e ∈ codeTable codes, e.1 < 256)
      ∧ ∀ x < 256, ∃ c, Store.read (codeTable codes) x = some c
          ∧ (c = Code.empty ∨ ∃ e ∈ codes, e.1.toNat = x ∧ c = Code.ofPath e.2) := by
  have key : ∀ (cs : List (Byte × List Bool)) (t : Store Code), (∀ e ∈ cs, e ∈ codes) → Store.wf t →
      (∀ e ∈ t, e.1 < 256) →
      (∀ x < 256, ∃ c, Store.read t x = some c ∧ (c = Code.empty ∨ ∃ e ∈ codes, e.1.toNat = x ∧ c = Code.ofPath e.2)) →
      Store.wf (cs.foldl (fun t e => Store.write t e.1.toNat (Code.ofPath e.2)) t)
      ∧ (∀ e ∈ cs.foldl (fun t e => Store.write t e.1.toNat (Code.ofPath e.2)) t, e.1 < 256)
      ∧ ∀ x < 256, ∃ c, Store.read (cs.foldl (fun t e => Store.write t e.1.toNat (Code.ofPath e.2)) t) x = some c
          ∧ (c = Code.empty ∨ ∃ e ∈ codes, e.1.toNat = x ∧ c = Code.ofPath e.2) := by
    intro cs
    induction cs with
    | nil => exact fun t _ h1 h2 h3 => ⟨h1, h2, h3⟩
    | cons e es ih =>
      intro t hm h1 h2 h3
      refine ih _ (fun f hf => hm f (by simp [hf])) (Store.wf_write _ _ _ h1)
        (Store.write_in_range _ _ _ _ e.1.isLt h2) fun x hx => ?_
      by_cases hc : x = e.1.toNat
      · subst hc
        exact ⟨_, Store.read_write_same .., .inr ⟨e, hm e (by simp), rfl, rfl⟩⟩
      · rw [Store.read_write_other _ _ hc]
        exact h3 x hx
  exact key codes _ (fun _ h => h) (table_ok _).1 (table_ok _).2 fun x hx => ⟨Code.empty, read_table _ hx, .inl rfl⟩

/-! ### The codes of a tree -/

theorem treeCodes_leaf {node : Nat → Node} {root : Nat} (h : (node root).kind = .leaf) :
    treeCodes node root = [((node root).sym, [false])] := by simp [treeCodes, h]

theorem treeCodes_internal {node : Nat → Node} {root : Nat} (h : (node root).kind = .internal) :
    treeCodes node root = visit node 256 root [] := by simp [treeCodes, h]

/-- With two symbols or more, the codes are the leaf paths from the root (R140, R145). -/
theorem mem_treeCodes {node : Nat → Node} {n : Nat} (h : Shape node n) (h2 : 2 ≤ n) (hn : n ≤ 256) {x : Byte}
    {q : List Bool} : (x, q) ∈ treeCodes node (2 * n - 2) ↔ LeafPath node (2 * n - 2) q x := by
  rw [treeCodes_internal (h.internal _ (by omega) (by omega)).1]
  constructor
  · intro hm
    obtain ⟨q', hq, hl⟩ := mem_visit hm
    simp only [List.nil_append] at hq
    rw [hq]
    exact hl
  · intro hl
    have := h.leafPath_length hl
    have := visit_mem (d := 256) [] hl (by omega)
    rwa [List.nil_append] at this

end Sys2Proof.Machine
end

