-- ==== Sys2Proof/Laws/Counts.lean ====
section
/-! SUPPORT. Frequency tables: counting (R111), sums over the 256 symbols, and that the tree and the header depend on
the 256 counts alone. -/

namespace Sys2Proof.Machine

theorem sum_indicator (n a c : Nat) (h : a < n) : ((List.range n).map fun x => if a = x then c else 0).sum = c := by
  have := sum_range_update n a c (fun _ => 0) h rfl
  simp only [List.map_const', List.sum_replicate, smul_eq_mul, mul_zero, Nat.add_zero] at this
  refine Eq.trans ?_ this
  congr 1
  exact List.map_congr_left fun x _ => by simp only [eq_comm]

/-- Every byte is counted once (R111): the counts of the 256 symbols sum to the length of the input. -/
theorem sum_occurrences (input : List Byte) : (symbols.map (occurrences input)).sum = input.length := by
  induction input with
  | nil =>
    have : occurrences [] = fun _ => 0 := by funext x; rfl
    rw [this, List.map_const', List.sum_replicate, smul_eq_mul, mul_zero, List.length_nil]
  | cons b bs ih =>
    have : occurrences (b :: bs) = fun x => occurrences bs x + if b.toNat = x then 1 else 0 := by
      funext x
      simp [occurrences, List.countP_cons]
    rw [this, List.sum_map_add, ih, symbols, sum_indicator _ _ _ b.isLt, List.length_cons]

/-- A sum weighted by the counts is the sum over the input bytes (R154). -/
theorem sum_occurrences_mul (input : List Byte) (g : Nat → Nat) :
    (symbols.map fun x => occurrences input x * g x).sum = (input.map fun b => g b.toNat).sum := by
  induction input with
  | nil => simp [occurrences]
  | cons b bs ih =>
    have : (fun x => occurrences (b :: bs) x * g x)
        = fun x => occurrences bs x * g x + if b.toNat = x then g b.toNat else 0 := by
      funext x
      by_cases h : b.toNat = x
      · simp [occurrences, h, Nat.add_mul]
      · simp [occurrences, h]
    rw [this, List.sum_map_add, ih, List.map_cons, List.sum_cons, Nat.add_comm, symbols, sum_indicator _ _ _ b.isLt]

theorem occurrences_pos {input : List Byte} {x : Nat} : 0 < occurrences input x ↔ ∃ b ∈ input, b.toNat = x := by
  simp [occurrences, List.countP_pos_iff]

theorem distinctSymbols_le (count : Nat → Nat) : distinctSymbols count ≤ 256 := by
  rw [← symbols_length]; exact List.countP_le_length

theorem distinctSymbols_pos {count : Nat → Nat} : 1 ≤ distinctSymbols count ↔ ∃ x < 256, count x ≠ 0 := by
  rw [distinctSymbols, Nat.one_le_iff_ne_zero, ← Nat.pos_iff_ne_zero, List.countP_pos_iff]
  simp [mem_symbols]

theorem map_symbols_congr {α : Type} {f g : Nat → α} (h : ∀ x < 256, f x = g x) : symbols.map f = symbols.map g :=
  List.map_congr_left fun x hx => h x (mem_symbols.1 hx)

theorem filter_symbols_congr {f g : Nat → Nat} (h : ∀ x < 256, f x = g x) :
    (symbols.filter fun x => f x != 0) = symbols.filter fun x => g x != 0 :=
  List.filter_congr fun x hx => by rw [h x (mem_symbols.1 hx)]

theorem distinctSymbols_congr {f g : Nat → Nat} (h : ∀ x < 256, f x = g x) : distinctSymbols f = distinctSymbols g :=
  List.countP_congr fun x hx => by rw [h x (mem_symbols.1 hx)]

theorem leaves_congr {f g : Nat → Nat} (h : ∀ x < 256, f x = g x) : leaves f = leaves g := by
  unfold leaves
  rw [filter_symbols_congr h]
  exact List.map_congr_left fun x hx => by rw [h x (mem_symbols.1 (List.mem_filter.1 hx).1)]

/-- `BUILD` reads nothing but the 256 counts (R129). -/
theorem buildArena_congr {f g : Nat → Nat} (h : ∀ x < 256, f x = g x) : buildArena f = buildArena g := by
  rw [buildArena, buildArena, leaves_congr h]

theorem entriesOf_congr {f g : Nat → Nat} (h : ∀ x < 256, f x = g x) : entriesOf f = entriesOf g := by
  unfold entriesOf
  rw [filter_symbols_congr h]
  exact List.map_congr_left fun x hx => by rw [h x (mem_symbols.1 (List.mem_filter.1 hx).1)]

theorem header_congr {f g : Nat → Nat} (n : Nat) (h : ∀ x < 256, f x = g x) : header n f = header n g := by
  unfold header
  rw [filter_symbols_congr h]
  congr 1
  exact List.flatMap_congr fun x hx => by rw [h x (mem_symbols.1 (List.mem_filter.1 hx).1)]

/-! ### The leaves -/

/-- A leaf of the arena: its symbol occurs, and it carries the symbol's count (R121). -/
theorem leaves_getElem {count : Nat → Nat} {i : Nat} (h : i < (leaves count).length) :
    ∃ x < 256, count x ≠ 0 ∧ (leaves count)[i] = Node.leafOf x (count x) := by
  have hm := List.getElem_mem h
  simp only [leaves, List.mem_map, List.mem_filter, bne_iff_ne] at hm
  obtain ⟨x, ⟨hx, h0⟩, he⟩ := hm
  exact ⟨x, mem_symbols.1 hx, h0, he.symm⟩

/-- Every symbol that occurs has a leaf. -/
theorem mem_leaves {count : Nat → Nat} {x : Nat} (hx : x < 256) (h : count x ≠ 0) :
    ∃ i, ∃ hi : i < (leaves count).length, (leaves count)[i] = Node.leafOf x (count x) :=
  List.mem_iff_getElem.1
    (List.mem_map_of_mem (List.mem_filter.2 ⟨mem_symbols.2 hx, by simpa using h⟩) : Node.leafOf x (count x) ∈ leaves count)

theorem leafOf_sym {x : Nat} (w : Nat) (h : x < 256) : (Node.leafOf x w).sym.toNat = x := by
  show (BitVec.ofNat 8 x).toNat = x
  rw [BitVec.toNat_ofNat, Nat.mod_eq_of_lt h]

/-- The leaves have different symbols (R121). -/
theorem leaves_sym_injective {count : Nat → Nat} {i j : Nat} (hi : i < (leaves count).length)
    (hj : j < (leaves count).length) (h : (leaves count)[i].sym = (leaves count)[j].sym) : i = j := by
  have hn : ((leaves count).map fun l => l.sym.toNat).Nodup := by
    have : (leaves count).map (fun l => l.sym.toNat) = symbols.filter fun x => count x != 0 := by
      rw [leaves, List.map_map]
      conv => rhs; rw [← List.map_id (symbols.filter fun x => count x != 0)]
      exact List.map_congr_left fun x hx => leafOf_sym _ (mem_symbols.1 (List.mem_filter.1 hx).1)
    rw [this]
    exact List.nodup_range.filter _
  exact (List.Nodup.getElem_inj_iff hn (hi := by simpa using hi) (hj := by simpa using hj)).1 (by simp [h])

end Sys2Proof.Machine
end

