-- ==== Sys2Proof/Laws/State.lean ====
section
/-! SUPPORT. Each update of the state, field by field. -/

namespace Sys2Proof.Machine

/-! ### `accept` -/

@[simp] theorem State.accept_params (i : Instr) (n : Nat) (s : State) : (s.accept i n).params = s.params := rfl
@[simp] theorem State.accept_stt (i : Instr) (n : Nat) (s : State) : (s.accept i n).stt = .busy i n := rfl
@[simp] theorem State.accept_phase (i : Instr) (n : Nat) (s : State) : (s.accept i n).phase = s.phase := rfl
@[simp] theorem State.accept_err (i : Instr) (n : Nat) (s : State) : (s.accept i n).err = none := rfl
@[simp] theorem State.accept_inLen (i : Instr) (n : Nat) (s : State) : (s.accept i n).inLen = s.inLen := rfl
@[simp] theorem State.accept_ibuf (i : Instr) (n : Nat) (s : State) : (s.accept i n).ibuf = s.ibuf := rfl
@[simp] theorem State.accept_freq (i : Instr) (n : Nat) (s : State) : (s.accept i n).freq = s.freq := rfl
@[simp] theorem State.accept_tree (i : Instr) (n : Nat) (s : State) : (s.accept i n).tree = s.tree := rfl
@[simp] theorem State.accept_code (i : Instr) (n : Nat) (s : State) : (s.accept i n).code = s.code := rfl
@[simp] theorem State.accept_pay (i : Instr) (n : Nat) (s : State) : (s.accept i n).pay = s.pay := rfl
@[simp] theorem State.accept_out (i : Instr) (n : Nat) (s : State) : (s.accept i n).out = s.out := rfl
@[simp] theorem State.accept_host (i : Instr) (n : Nat) (s : State) : (s.accept i n).host = s.host := rfl
@[simp] theorem State.accept_replies (i : Instr) (n : Nat) (s : State) : (s.accept i n).replies = s.replies := rfl
@[simp] theorem State.accept_tick (i : Instr) (n : Nat) (s : State) : (s.accept i n).tick = s.tick := rfl
@[simp] theorem State.accept_fill (i : Instr) (n : Nat) (s : State) : (s.accept i n).fill = s.fill := rfl

/-! ### `enterError` -/

@[simp] theorem State.enterError_params (e : ErrCode) (s : State) : (s.enterError e).params = s.params := rfl
@[simp] theorem State.enterError_stt (e : ErrCode) (s : State) : (s.enterError e).stt = .error := rfl
@[simp] theorem State.enterError_phase (e : ErrCode) (s : State) : (s.enterError e).phase = s.phase := rfl
@[simp] theorem State.enterError_err (e : ErrCode) (s : State) : (s.enterError e).err = some e := rfl
@[simp] theorem State.enterError_inLen (e : ErrCode) (s : State) : (s.enterError e).inLen = s.inLen := rfl
@[simp] theorem State.enterError_ibuf (e : ErrCode) (s : State) : (s.enterError e).ibuf = s.ibuf := rfl
@[simp] theorem State.enterError_freq (e : ErrCode) (s : State) : (s.enterError e).freq = s.freq := rfl
@[simp] theorem State.enterError_tree (e : ErrCode) (s : State) : (s.enterError e).tree = s.tree := rfl
@[simp] theorem State.enterError_code (e : ErrCode) (s : State) : (s.enterError e).code = s.code := rfl
@[simp] theorem State.enterError_pay (e : ErrCode) (s : State) : (s.enterError e).pay = s.pay := rfl
@[simp] theorem State.enterError_out (e : ErrCode) (s : State) : (s.enterError e).out = s.out := rfl
@[simp] theorem State.enterError_host (e : ErrCode) (s : State) : (s.enterError e).host = s.host := rfl
@[simp] theorem State.enterError_replies (e : ErrCode) (s : State) : (s.enterError e).replies = s.replies := rfl
@[simp] theorem State.enterError_tick (e : ErrCode) (s : State) : (s.enterError e).tick = s.tick := rfl
@[simp] theorem State.enterError_fill (e : ErrCode) (s : State) : (s.enterError e).fill = s.fill := rfl

/-! ### `finishDone` -/

@[simp] theorem State.finishDone_params (s : State) : (s.finishDone).params = s.params := rfl
@[simp] theorem State.finishDone_stt (s : State) : (s.finishDone).stt = .done := rfl
@[simp] theorem State.finishDone_phase (s : State) : (s.finishDone).phase = s.phase := rfl
@[simp] theorem State.finishDone_err (s : State) : (s.finishDone).err = s.err := rfl
@[simp] theorem State.finishDone_inLen (s : State) : (s.finishDone).inLen = s.inLen := rfl
@[simp] theorem State.finishDone_ibuf (s : State) : (s.finishDone).ibuf = s.ibuf := rfl
@[simp] theorem State.finishDone_freq (s : State) : (s.finishDone).freq = s.freq := rfl
@[simp] theorem State.finishDone_tree (s : State) : (s.finishDone).tree = s.tree := rfl
@[simp] theorem State.finishDone_code (s : State) : (s.finishDone).code = s.code := rfl
@[simp] theorem State.finishDone_pay (s : State) : (s.finishDone).pay = s.pay := rfl
@[simp] theorem State.finishDone_out (s : State) : (s.finishDone).out = s.out := rfl
@[simp] theorem State.finishDone_host (s : State) : (s.finishDone).host = s.host := rfl
@[simp] theorem State.finishDone_replies (s : State) : (s.finishDone).replies = s.replies := rfl
@[simp] theorem State.finishDone_tick (s : State) : (s.finishDone).tick = s.tick := rfl
@[simp] theorem State.finishDone_fill (s : State) : (s.finishDone).fill = s.fill := rfl

/-! ### `reply` -/

@[simp] theorem State.reply_params (r : Reply) (s : State) : (s.reply r).params = s.params := rfl
@[simp] theorem State.reply_stt (r : Reply) (s : State) : (s.reply r).stt = s.stt := rfl
@[simp] theorem State.reply_phase (r : Reply) (s : State) : (s.reply r).phase = s.phase := rfl
@[simp] theorem State.reply_err (r : Reply) (s : State) : (s.reply r).err = s.err := rfl
@[simp] theorem State.reply_inLen (r : Reply) (s : State) : (s.reply r).inLen = s.inLen := rfl
@[simp] theorem State.reply_ibuf (r : Reply) (s : State) : (s.reply r).ibuf = s.ibuf := rfl
@[simp] theorem State.reply_freq (r : Reply) (s : State) : (s.reply r).freq = s.freq := rfl
@[simp] theorem State.reply_tree (r : Reply) (s : State) : (s.reply r).tree = s.tree := rfl
@[simp] theorem State.reply_code (r : Reply) (s : State) : (s.reply r).code = s.code := rfl
@[simp] theorem State.reply_pay (r : Reply) (s : State) : (s.reply r).pay = s.pay := rfl
@[simp] theorem State.reply_out (r : Reply) (s : State) : (s.reply r).out = s.out := rfl
@[simp] theorem State.reply_host (r : Reply) (s : State) : (s.reply r).host = s.host := rfl
@[simp] theorem State.reply_replies (r : Reply) (s : State) : (s.reply r).replies = r :: s.replies := rfl
@[simp] theorem State.reply_tick (r : Reply) (s : State) : (s.reply r).tick = s.tick + 1 := rfl
@[simp] theorem State.reply_fill (r : Reply) (s : State) : (s.reply r).fill = s.fill := rfl

/-! ### `invalidateInput` -/

@[simp] theorem State.invalidateInput_params (s : State) : (s.invalidateInput).params = s.params := rfl
@[simp] theorem State.invalidateInput_stt (s : State) : (s.invalidateInput).stt = s.stt := rfl
@[simp] theorem State.invalidateInput_phase (s : State) : (s.invalidateInput).phase = s.phase := rfl
@[simp] theorem State.invalidateInput_err (s : State) : (s.invalidateInput).err = s.err := rfl
@[simp] theorem State.invalidateInput_inLen (s : State) : (s.invalidateInput).inLen = s.inLen := rfl
@[simp] theorem State.invalidateInput_ibuf (s : State) : (s.invalidateInput).ibuf = s.ibuf := rfl
@[simp] theorem State.invalidateInput_freq (s : State) : (s.invalidateInput).freq = .invalid := rfl
@[simp] theorem State.invalidateInput_tree (s : State) : (s.invalidateInput).tree = .invalid := rfl
@[simp] theorem State.invalidateInput_code (s : State) : (s.invalidateInput).code = .invalid := rfl
@[simp] theorem State.invalidateInput_pay (s : State) : (s.invalidateInput).pay = .invalid := rfl
@[simp] theorem State.invalidateInput_out (s : State) : (s.invalidateInput).out = s.out := rfl
@[simp] theorem State.invalidateInput_host (s : State) : (s.invalidateInput).host = s.host := rfl
@[simp] theorem State.invalidateInput_replies (s : State) : (s.invalidateInput).replies = s.replies := rfl
@[simp] theorem State.invalidateInput_tick (s : State) : (s.invalidateInput).tick = s.tick := rfl
@[simp] theorem State.invalidateInput_fill (s : State) : (s.invalidateInput).fill = s.fill := rfl

/-! ### `resetCore` -/

@[simp] theorem State.resetCore_params (s : State) : (s.resetCore).params = s.params := rfl
@[simp] theorem State.resetCore_stt (s : State) : (s.resetCore).stt = .idle := rfl
@[simp] theorem State.resetCore_phase (s : State) : (s.resetCore).phase = none := rfl
@[simp] theorem State.resetCore_err (s : State) : (s.resetCore).err = none := rfl
@[simp] theorem State.resetCore_inLen (s : State) : (s.resetCore).inLen = 0 := rfl
@[simp] theorem State.resetCore_ibuf (s : State) : (s.resetCore).ibuf = [] := rfl
@[simp] theorem State.resetCore_freq (s : State) : (s.resetCore).freq = .invalid := rfl
@[simp] theorem State.resetCore_tree (s : State) : (s.resetCore).tree = .invalid := rfl
@[simp] theorem State.resetCore_code (s : State) : (s.resetCore).code = .invalid := rfl
@[simp] theorem State.resetCore_pay (s : State) : (s.resetCore).pay = .invalid := rfl
@[simp] theorem State.resetCore_out (s : State) : (s.resetCore).out = .invalid := rfl
@[simp] theorem State.resetCore_host (s : State) : (s.resetCore).host = s.host := rfl
@[simp] theorem State.resetCore_replies (s : State) : (s.resetCore).replies = s.replies := rfl
@[simp] theorem State.resetCore_tick (s : State) : (s.resetCore).tick = s.tick + 1 := rfl
@[simp] theorem State.resetCore_fill (s : State) : (s.resetCore).fill = s.tick := rfl

/-! ### `writeInLen` -/

@[simp] theorem State.writeInLen_params (v : Nat) (s : State) : (s.writeInLen v).params = s.params := rfl
@[simp] theorem State.writeInLen_stt (v : Nat) (s : State) : (s.writeInLen v).stt = s.stt := rfl
@[simp] theorem State.writeInLen_phase (v : Nat) (s : State) : (s.writeInLen v).phase = s.phase := rfl
@[simp] theorem State.writeInLen_err (v : Nat) (s : State) : (s.writeInLen v).err = s.err := rfl
@[simp] theorem State.writeInLen_inLen (v : Nat) (s : State) : (s.writeInLen v).inLen = v % 2 ^ s.params.cntW := rfl
@[simp] theorem State.writeInLen_ibuf (v : Nat) (s : State) : (s.writeInLen v).ibuf = s.ibuf := rfl
@[simp] theorem State.writeInLen_freq (v : Nat) (s : State) : (s.writeInLen v).freq = .invalid := rfl
@[simp] theorem State.writeInLen_tree (v : Nat) (s : State) : (s.writeInLen v).tree = .invalid := rfl
@[simp] theorem State.writeInLen_code (v : Nat) (s : State) : (s.writeInLen v).code = .invalid := rfl
@[simp] theorem State.writeInLen_pay (v : Nat) (s : State) : (s.writeInLen v).pay = .invalid := rfl
@[simp] theorem State.writeInLen_out (v : Nat) (s : State) : (s.writeInLen v).out = s.out := rfl
@[simp] theorem State.writeInLen_host (v : Nat) (s : State) : (s.writeInLen v).host = s.host := rfl
@[simp] theorem State.writeInLen_replies (v : Nat) (s : State) : (s.writeInLen v).replies = s.replies := rfl
@[simp] theorem State.writeInLen_tick (v : Nat) (s : State) : (s.writeInLen v).tick = s.tick := rfl
@[simp] theorem State.writeInLen_fill (v : Nat) (s : State) : (s.writeInLen v).fill = s.fill := rfl

/-! ### `startUnit`, `invalidate` and `setFlag` -/

@[simp] theorem State.startUnit_params (u : UnitOp) (s : State) : (s.startUnit u).params = s.params := rfl
@[simp] theorem State.startUnit_stt (u : UnitOp) (s : State) : (s.startUnit u).stt = s.stt := rfl
@[simp] theorem State.startUnit_phase (u : UnitOp) (s : State) : (s.startUnit u).phase = some u := rfl
@[simp] theorem State.startUnit_err (u : UnitOp) (s : State) : (s.startUnit u).err = s.err := rfl
@[simp] theorem State.startUnit_inLen (u : UnitOp) (s : State) : (s.startUnit u).inLen = s.inLen := rfl
@[simp] theorem State.startUnit_ibuf (u : UnitOp) (s : State) : (s.startUnit u).ibuf = s.ibuf := rfl
@[simp] theorem State.startUnit_host (u : UnitOp) (s : State) : (s.startUnit u).host = s.host := rfl
@[simp] theorem State.startUnit_replies (u : UnitOp) (s : State) : (s.startUnit u).replies = s.replies := rfl
@[simp] theorem State.startUnit_tick (u : UnitOp) (s : State) : (s.startUnit u).tick = s.tick := rfl
@[simp] theorem State.startUnit_fill (u : UnitOp) (s : State) : (s.startUnit u).fill = s.fill := rfl
@[simp] theorem State.invalidate_params (l : Level) (s : State) : (s.invalidate l).params = s.params := rfl
@[simp] theorem State.invalidate_stt (l : Level) (s : State) : (s.invalidate l).stt = s.stt := rfl
@[simp] theorem State.invalidate_phase (l : Level) (s : State) : (s.invalidate l).phase = s.phase := rfl
@[simp] theorem State.invalidate_err (l : Level) (s : State) : (s.invalidate l).err = s.err := rfl
@[simp] theorem State.invalidate_inLen (l : Level) (s : State) : (s.invalidate l).inLen = s.inLen := rfl
@[simp] theorem State.invalidate_ibuf (l : Level) (s : State) : (s.invalidate l).ibuf = s.ibuf := rfl
@[simp] theorem State.invalidate_host (l : Level) (s : State) : (s.invalidate l).host = s.host := rfl
@[simp] theorem State.invalidate_replies (l : Level) (s : State) : (s.invalidate l).replies = s.replies := rfl
@[simp] theorem State.invalidate_tick (l : Level) (s : State) : (s.invalidate l).tick = s.tick := rfl
@[simp] theorem State.invalidate_fill (l : Level) (s : State) : (s.invalidate l).fill = s.fill := rfl
@[simp] theorem State.setFlag_params (l : Level) (s : State) : (s.setFlag l).params = s.params := by cases l <;> rfl
@[simp] theorem State.setFlag_stt (l : Level) (s : State) : (s.setFlag l).stt = s.stt := by cases l <;> rfl
@[simp] theorem State.setFlag_phase (l : Level) (s : State) : (s.setFlag l).phase = s.phase := by cases l <;> rfl
@[simp] theorem State.setFlag_err (l : Level) (s : State) : (s.setFlag l).err = s.err := by cases l <;> rfl
@[simp] theorem State.setFlag_inLen (l : Level) (s : State) : (s.setFlag l).inLen = s.inLen := by cases l <;> rfl
@[simp] theorem State.setFlag_ibuf (l : Level) (s : State) : (s.setFlag l).ibuf = s.ibuf := by cases l <;> rfl
@[simp] theorem State.setFlag_host (l : Level) (s : State) : (s.setFlag l).host = s.host := by cases l <;> rfl
@[simp] theorem State.setFlag_replies (l : Level) (s : State) : (s.setFlag l).replies = s.replies := by cases l <;> rfl
@[simp] theorem State.setFlag_tick (l : Level) (s : State) : (s.setFlag l).tick = s.tick := by cases l <;> rfl
@[simp] theorem State.setFlag_fill (l : Level) (s : State) : (s.setFlag l).fill = s.fill := by cases l <;> rfl

/-! ### `Invalidate` at each level (R35) and the start of each unit (R192), as record updates -/

theorem State.invalidate_from_freq (s : State) :
    s.invalidate .freq = { s with freq := .invalid, tree := .invalid, code := .invalid, pay := .invalid, out := .invalid } := rfl

theorem State.invalidate_from_tree (s : State) :
    s.invalidate .tree = { s with tree := .invalid, code := .invalid, pay := .invalid, out := .invalid } := rfl

theorem State.invalidate_from_code (s : State) :
    s.invalidate .code = { s with code := .invalid, pay := .invalid, out := .invalid } := rfl

theorem State.invalidate_from_pay (s : State) :
    s.invalidate .pay = { s with pay := .invalid, out := .invalid } := rfl

theorem State.invalidate_from_out (s : State) :
    s.invalidate .out = { s with out := .invalid } := rfl

theorem State.startUnit_of_freq (s : State) :
    s.startUnit .freq = { s with phase := some .freq, freq := .invalid, tree := .invalid, code := .invalid, pay := .invalid, out := .invalid } := rfl

theorem State.startUnit_of_build (s : State) :
    s.startUnit .build = { s with phase := some .build, tree := .invalid, code := .invalid, pay := .invalid, out := .invalid } := rfl

theorem State.startUnit_of_assign (s : State) :
    s.startUnit .assign = { s with phase := some .assign, code := .invalid, pay := .invalid, out := .invalid } := rfl

theorem State.startUnit_of_pack (s : State) :
    s.startUnit .pack = { s with phase := some .pack, pay := .invalid, out := .invalid } := rfl

theorem State.startUnit_of_ser (s : State) :
    s.startUnit .ser = { s with phase := some .ser, out := .invalid } := rfl

theorem State.startUnit_of_deser (s : State) :
    s.startUnit .deser = { s with phase := some .deser, freq := .invalid, tree := .invalid, code := .invalid, pay := .invalid, out := .invalid } := rfl

theorem State.startUnit_of_walk (s : State) :
    s.startUnit .walk = { s with phase := some .walk, out := .invalid } := rfl

/-! ### The entries the core reads depend on their own table only -/

theorem State.inByte_congr {s t : State} (h : t.ibuf = s.ibuf) (hf : t.fill = s.fill) (a : Nat) :
    t.inByte a = s.inByte a := by simp [State.inByte, h, hf]

theorem State.inputBytes_congr {s t : State} (h : t.ibuf = s.ibuf) (hf : t.fill = s.fill) (hl : t.inLen = s.inLen) :
    t.inputBytes = s.inputBytes := by
  simp [State.inputBytes, hl, funext (State.inByte_congr h hf)]

theorem State.count_congr {s t : State} (h : t.freq.freqt = s.freq.freqt) (hf : t.fill = s.fill) : t.count = s.count := by
  funext x; simp [State.count, h, hf]

theorem State.node_congr {s t : State} (h : t.tree.nodet = s.tree.nodet) (hf : t.fill = s.fill)
    (hp : t.params = s.params) : t.node = s.node := by
  funext i; simp [State.node, h, hf, hp]

theorem State.codeOf_congr {s t : State} (h : t.code.codet = s.code.codet) (hf : t.fill = s.fill) :
    t.codeOf = s.codeOf := by
  funext x; simp [State.codeOf, h, hf]

theorem State.payByte_congr {s t : State} (h : t.pay.pbuf = s.pay.pbuf) (hf : t.fill = s.fill) :
    t.payByte = s.payByte := by
  funext a; simp [State.payByte, h, hf]

@[simp] theorem State.inputBytes_length (s : State) : s.inputBytes.length = s.inLen := by simp [State.inputBytes]

@[simp] theorem State.payloadBytes_length (s : State) : s.payloadBytes.length = s.pay.payLen := by
  simp [State.payloadBytes]

@[simp] theorem State.outputBytes_length (s : State) : s.outputBytes.length = s.out.outLen := by
  simp [State.outputBytes]

@[simp] theorem State.payloadBits_length (s : State) : s.payloadBits.length = s.availBits := by
  simp [State.payloadBits]

end Sys2Proof.Machine
end

