-- ==== Sys2Proof/Laws/Walk.lean ====
section
/-! SUPPORT. The bit decoder on a leaf path, on a sequence of them, and on bits that run out (R181, R183, R185). -/

namespace Sys2Proof.Machine

@[simp] theorem walkBits_zero (node : Nat → Node) (root : Nat) (bits : List Bool) (cur : Nat) :
    walkBits node root bits cur 0 = some [] := by cases bits <;> rfl

/-- A leaf path from the cursor is consumed whole and its symbol emitted; the cursor is back at the root (R181). -/
theorem walkBits_leafPath {node : Nat → Node} {root cur : Nat} {q : List Bool} {x : Byte} (bits : List Bool) (m : Nat)
    (hk : (node cur).kind = .internal) (hl : LeafPath node cur q x) :
    walkBits node root (q ++ bits) cur (m + 1) = (walkBits node root bits root m).map (x :: ·) := by
  induction q generalizing cur with
  | nil =>
    rw [leafPath_nil, hk] at hl
    cases hl.1
  | cons b q ih =>
    rw [leafPath_cons] at hl
    rw [List.cons_append, walkBits]
    cases q with
    | nil =>
      have h := hl.2
      rw [leafPath_nil] at h
      simp only [h.1, h.2, List.nil_append]
    | cons c q =>
      have h := hl.2
      have hi := (leafPath_cons ..).1 h
      simp only [hi.1]
      exact ih hi.1 h

/-- Bits that stay on internal nodes to their end are `CorruptStreamError` (R185). -/
theorem walkBits_innerPath {node : Nat → Node} {root cur : Nat} {q : List Bool} (m : Nat) (hi : InnerPath node cur q) :
    walkBits node root q cur (m + 1) = none := by
  induction q generalizing cur with
  | nil => rfl
  | cons b q ih =>
    rw [innerPath_cons] at hi
    rw [walkBits]
    have hk : (node (descend node cur b)).kind = .internal := by
      have := hi.2 0 (Nat.zero_le _)
      simpa using this
    simp only [hk]
    exact ih hi.2

/-- A sequence of leaf paths from the root: their symbols are emitted, and the bits after them are left. -/
theorem walkBits_steps {node : Nat → Node} {root : Nat} (steps : List (List Bool × Byte)) (bits : List Bool) (m : Nat)
    (hk : (node root).kind = .internal) (hl : ∀ e ∈ steps, LeafPath node root e.1 e.2) :
    walkBits node root (steps.flatMap Prod.fst ++ bits) root (steps.length + m)
      = (walkBits node root bits root m).map (steps.map Prod.snd ++ ·) := by
  induction steps with
  | nil => simp
  | cons e es ih =>
    rw [List.flatMap_cons, List.append_assoc, List.length_cons,
      show es.length + 1 + m = (es.length + m) + 1 by omega,
      walkBits_leafPath _ _ hk (hl e (by simp)), ih fun f hf => hl f (by simp [hf]), Option.map_map]
    rfl

/-- Exactly as many symbols as asked for are emitted. -/
theorem walkBits_length {node : Nat → Node} {root : Nat} {bits : List Bool} {cur m : Nat} {out : List Byte}
    (h : walkBits node root bits cur m = some out) : out.length = m := by
  induction bits generalizing cur m out with
  | nil =>
    cases m with
    | zero => simp only [walkBits_zero, Option.some.injEq] at h; subst h; rfl
    | succ m => cases h
  | cons b bits ih =>
    cases m with
    | zero => simp only [walkBits_zero, Option.some.injEq] at h; subst h; rfl
    | succ m =>
      rw [walkBits] at h
      split at h
      · obtain ⟨o, ho, rfl⟩ := Option.map_eq_some_iff.1 h
        rw [List.length_cons, ih ho]
      · exact ih h

theorem decoded_length {s : State} {out : List Byte} (h : s.decoded = some out) : out.length = s.freq.total := by
  unfold State.decoded at h
  split at h
  · cases h; exact List.length_replicate
  · exact walkBits_length h

end Sys2Proof.Machine
end

