-- ==== Sys2Proof/Laws/Facts.lean ====
section
/-! SUPPORT. What a level holds when the unit that writes it has run: the facts of R45, R131 and R143, each from the
contents that the unit's body gives the level. -/

namespace Sys2Proof.Machine

/-! ### Level 0 -/

/-- After `FREQ` (R110, R111). -/
theorem FreqFacts.of_counted {s : State} (h1 : 1 ≤ s.inLen) (hcap : s.inLen ≤ s.params.inCap)
    (hmax : s.inLen ≤ s.params.cmax) (hf : s.freq.freqt = countTable s.inputBytes) (ht : s.freq.total = s.inLen)
    (hn : s.freq.nsym = distinctSymbols (occurrences s.inputBytes)) (ho : s.freq.origin = .enc)
    (hp : s.freq.payOff = 0) : FreqFacts s := by
  have hc : ∀ x < 256, s.count x = occurrences s.inputBytes x := fun x hx => by
    rw [State.count, hf, countTable, read_table _ hx]; rfl
  have hpos : 1 ≤ distinctSymbols (occurrences s.inputBytes) := by
    rw [distinctSymbols_pos]
    have hb : (0 : Nat) < s.inputBytes.length := by rw [State.inputBytes_length]; omega
    exact ⟨_, (s.inputBytes[0]).isLt, Nat.pos_iff_ne_zero.1 (occurrences_pos.2 ⟨_, List.getElem_mem hb, rfl⟩)⟩
  constructor
  · exact hcap
  · intro x hx
    rw [hf, countTable, read_table _ hx]; rfl
  · rw [hn]; exact (distinctSymbols_congr hc).symm
  · rw [hn]; exact ⟨hpos, distinctSymbols_le _⟩
  · rw [ht, map_symbols_congr hc, sum_occurrences, State.inputBytes_length]
  · rw [ht]; exact ⟨h1, hmax⟩
  · exact fun _ => ⟨hc, ht, hp⟩
  · intro hd; rw [ho] at hd; cases hd

theorem countLine_pos (n : Nat) : 0 < (countLine n).length := by simp [countLine]

/-- After `DESER` of an admissible header (R164, R167). -/
theorem FreqFacts.of_parsed {s : State} {entries : List (Nat × Nat)} {payload : List Byte}
    (hv : ValidEntries s.params.cmax entries) (hi : s.inputBytes = headerText entries ++ payload)
    (hcap : s.inLen ≤ s.params.inCap) (hf : s.freq.freqt = enterAll entries zeroCounts)
    (ht : s.freq.total = (entries.map Prod.snd).sum) (hn : s.freq.nsym = entries.length) (ho : s.freq.origin = .dec)
    (hp : s.freq.payOff = (headerText entries).length) : FreqFacts s := by
  have hr : ∀ x < 256, Store.read s.freq.freqt x = some (freqOf entries x) := fun x hx => by
    rw [hf]; exact read_enterAll entries _ x hv.listed_once (read_zeroCounts hx)
  have hc : ∀ x < 256, s.count x = freqOf entries x := fun x hx => by rw [State.count, hr x hx]; rfl
  have hsome := hv.some_entry
  have hsum : 1 ≤ (entries.map Prod.snd).sum := by
    obtain ⟨e, he⟩ := List.exists_mem_of_length_pos (l := entries) (by omega)
    have h1 := (hv.freq_range e he).1
    have h2 := List.single_le_sum (fun _ _ => Nat.zero_le _) _ (List.mem_map_of_mem (f := Prod.snd) he)
    omega
  constructor
  · exact hcap
  · intro x hx; rw [hr x hx]; rfl
  · rw [hn, distinctSymbols_congr hc]
    exact (distinct_freqOf entries hv.listed_once hv.symbol_range fun e he => (hv.freq_range e he).1).symm
  · rw [hn]; exact ⟨hsome, hv.at_most_256⟩
  · rw [ht, map_symbols_congr hc, sum_freqOf entries hv.listed_once hv.symbol_range]
  · rw [ht]; exact ⟨hsum, hv.sum_range⟩
  · intro he; rw [ho] at he; cases he
  · intro _
    have hl := congrArg List.length hi
    rw [State.inputBytes_length, List.length_append] at hl
    have := countLine_pos entries.length
    rw [hp]
    refine ⟨?_, by omega⟩
    rw [headerText, List.length_append]
    omega

/-! ### Level 1 -/

/-- After `BUILD` (R120, R124, R131). -/
theorem TreeFacts.of_built {s : State} (hF : FreqFacts s) (hnt : s.tree.nodet = Store.ofList 0 (buildArena s.count).1)
    (hr : s.tree.root = rootOf s.fill (buildArena s.count).2) (hn : s.tree.nnodes = (buildArena s.count).1.length) :
    TreeFacts s ∧ ∀ j, s.freq.nsym ≤ j → j < s.tree.nnodes → Combined s.node s.freq.nsym j := by
  have hd : 1 ≤ distinctSymbols s.count := hF.nsym ▸ hF.nsym_range.1
  obtain ⟨hb, w, hw⟩ := buildArena_building hd
  have hlen := buildArena_length hd
  have hroot : s.tree.root = 2 * s.freq.nsym - 2 := by rw [hr, hw, hF.nsym]; rfl
  have hnn : s.tree.nnodes = 2 * s.freq.nsym - 1 := by rw [hn, hlen, hF.nsym]
  have hpos := hF.nsym_range.1
  have hnode : ∀ i < s.tree.nnodes, s.node i = nodeAt (buildArena s.count).1 i := fun i hi => by
    rw [hn] at hi
    rw [State.node, hnt, Store.read_ofList_zero, List.getElem?_eq_getElem hi, nodeAt, List.getD_eq_getElem _ _ hi]
    rfl
  have hll : (Machine.leaves s.count).length = s.freq.nsym := by rw [Machine.leaves_length, ← hF.nsym]
  have hcomb : ∀ j, s.freq.nsym ≤ j → j < s.tree.nnodes → Combined s.node s.freq.nsym j := by
    intro j h1 h2
    have hc := hb.combined j (by rw [hll]; exact h1) (by rw [← hn]; exact h2)
    rw [hll] at hc
    exact hc.congr fun k hk => hnode k (by omega)
  obtain ⟨ext, hext⟩ := hb.leaves
  refine ⟨?_, hcomb⟩
  constructor
  · intro i hi
    rw [hn] at hi
    rw [hnt, Store.read_ofList_zero, List.getElem?_eq_getElem hi]; rfl
  · exact hnn
  · exact hroot
  · rw [hnode _ (by omega), hF.total]
    have hk := hb.keys (w, 2 * distinctSymbols s.count - 2) (by rw [hw]; simp)
    have hs := hb.sum
    rw [hw] at hs
    simp only [List.map_cons, List.map_nil, List.sum_cons, List.sum_nil, Nat.add_zero] at hs
    rw [hroot, hF.nsym, ← hk.2, ← hs]
  · intro i hi
    rw [hnode i hi, hF.total]
    exact hb.weights i (by rw [← hn]; exact hi)
  · apply List.ext_getElem
    · simp [hll]
    · intro i h1 h2
      simp only [List.length_map, List.length_range] at h1
      rw [List.getElem_map, List.getElem_range, hnode i (by omega), hext, nodeAt_append_lt _ h2, nodeAt,
        List.getD_eq_getElem _ _ h2]
  · intro j hj h1
    have hc := hcomb j h1 hj
    exact ⟨hc.kind, hc.sym, hc.left_queued.1, hc.right_queued.1, hc.distinct, hc.weight⟩
  · intro i hi
    have hnq : ¬ Queued (nodeAt (buildArena s.count).1) (Machine.leaves s.count).length (buildArena s.count).1.length i := by
      intro hq
      obtain ⟨k, hk, hki⟩ := (hb.queued i).2 hq
      rw [hw, List.mem_singleton] at hk
      subst hk
      rw [hr, hw] at hi
      simp only [rootOf] at hi
      simp only at hki
      omega
    have hex : ∃ j, s.freq.nsym ≤ j ∧ j < s.tree.nnodes ∧ ((s.node j).left = i ∨ (s.node j).right = i) := by
      by_contra hno
      refine hnq ⟨by omega, fun k h1 h2 => ?_⟩
      rw [hll] at h1
      rw [← hn] at h2
      rw [← hnode k h2]
      constructor <;> intro hc
      · exact hno ⟨k, h1, h2, .inl hc⟩
      · exact hno ⟨k, h1, h2, .inr hc⟩
    obtain ⟨j, h1, h2, hc⟩ := hex
    refine ⟨j, h2, h1, hc, fun k hk hk1 hkc => ?_⟩
    have cj := hcomb j h1 h2
    have ck := hcomb k hk1 hk
    -- of two parents the later one took a node that was no longer in the queue
    have later : ∀ a b, s.freq.nsym ≤ a → a < b → Combined s.node s.freq.nsym b →
        ((s.node a).left = i ∨ (s.node a).right = i) → ((s.node b).left = i ∨ (s.node b).right = i) → False := by
      intro a b ha hab cb hca hcb
      have hq : Queued s.node s.freq.nsym b i := by
        rcases hcb with h | h
        · rw [← h]; exact cb.left_queued
        · rw [← h]; exact cb.right_queued
      have := hq.2 a ha hab
      rcases hca with h | h
      · exact this.1 h
      · exact this.2 h
    rcases Nat.lt_trichotomy j k with h | h | h
    · exact (later j k h1 h ck hc hkc).elim
    · exact h.symm
    · exact (later k j hk1 h cj hkc hc).elim

theorem FreqFacts.leaves_length {s : State} (hF : FreqFacts s) : (leaves s.count).length = s.freq.nsym := by
  rw [Machine.leaves_length, ← hF.nsym]

section Tree

variable {s : State} (hF : FreqFacts s) (hT : TreeFacts s)
include hF hT

/-- The node of a leaf index. -/
theorem TreeFacts.leaf_node {i : Nat} (hi : i < s.freq.nsym) :
    s.node i = (Machine.leaves s.count)[i]'(by rw [hF.leaves_length]; exact hi) := by
  have h := List.getElem_map (f := s.node) (l := List.range s.freq.nsym) (i := i)
    (h := by rw [List.length_map, List.length_range]; exact hi)
  rw [List.getElem_range] at h
  rw [← h]
  exact List.getElem_of_eq hT.leaves _

theorem TreeFacts.shape : Shape s.node s.freq.nsym := by
  have hpos := hF.nsym_range.1
  constructor
  · exact hpos
  · intro i hi
    obtain ⟨x, -, -, he⟩ := leaves_getElem (count := s.count) (i := i) (by rw [hF.leaves_length]; exact hi)
    rw [hT.leaf_node hF hi, he]; rfl
  · intro j h1 h2
    obtain ⟨hk, -, hl, hr, hne, -⟩ := hT.internal j (by rw [hT.nnodes]; exact h2) h1
    exact ⟨hk, hl, hr, hne⟩
  · intro i hi
    obtain ⟨j, h1, h2, hc, hu⟩ := hT.one_parent i (by rw [hT.root]; exact hi)
    rw [hT.nnodes] at h1 hu
    exact ⟨j, h2, h1, hc, fun k hk1 hk2 hkc => hu k hk2 hk1 hkc⟩

/-- Every symbol of the table has a leaf path. -/
theorem TreeFacts.leafPath_of_symbol {x : Nat} (hx : x < 256) (hc : 0 < s.count x) :
    ∃ q, LeafPath s.node s.tree.root q (BitVec.ofNat 8 x) := by
  have hpos := hF.nsym_range.1
  obtain ⟨i, hi, he⟩ := mem_leaves (count := s.count) hx (by omega)
  rw [hF.leaves_length] at hi
  obtain ⟨q, hw, hf⟩ := (hT.shape hF).reached (i := i) (by omega)
  rw [hT.root]
  refine ⟨q, (leafPath_iff_way ..).2 ⟨hw, ?_⟩⟩
  rw [hf, hT.leaf_node hF hi, he]
  exact ⟨rfl, rfl⟩

/-- A leaf path ends at a symbol of the table. -/
theorem TreeFacts.symbol_of_leafPath {q : List Bool} {x : Byte} (h : LeafPath s.node s.tree.root q x) :
    0 < s.count x.toNat := by
  have hpos := hF.nsym_range.1
  rw [hT.root] at h
  have hs := hT.shape hF
  have hb := (hs.way_bound (by omega) ((leafPath_iff_way ..).1 h).1).1
  have hi := hs.leaf_lt (by omega) h.2.1
  obtain ⟨y, hy, h0, he⟩ := leaves_getElem (count := s.count) (i := follow s.node (2 * s.freq.nsym - 2) q)
    (by rw [hF.leaves_length]; exact hi)
  have hsym := h.2.2
  rw [hT.leaf_node hF hi, he] at hsym
  rw [← hsym, leafOf_sym _ hy]
  omega

/-- The leaf path of a symbol is one. -/
theorem TreeFacts.leafPath_unique {p q : List Bool} {x : Byte} (hp : LeafPath s.node s.tree.root p x)
    (hq : LeafPath s.node s.tree.root q x) : p = q := by
  have hpos := hF.nsym_range.1
  rw [hT.root] at hp hq
  have hs := hT.shape hF
  have hbp := (hs.way_bound (by omega) ((leafPath_iff_way ..).1 hp).1).1
  have hbq := (hs.way_bound (by omega) ((leafPath_iff_way ..).1 hq).1).1
  have hip := hs.leaf_lt (by omega) hp.2.1
  have hiq := hs.leaf_lt (by omega) hq.2.1
  refine hs.way_unique hp.1 hq.1 (leaves_sym_injective (count := s.count) (by rw [hF.leaves_length]; exact hip)
    (by rw [hF.leaves_length]; exact hiq) ?_)
  rw [← hT.leaf_node hF hip, ← hT.leaf_node hF hiq, hp.2.2, hq.2.2]

end Tree

/-- With two symbols or more, the codes are recorded for the symbols of the table, each once (R140, R143). -/
theorem treeCodes_perm {s : State} (hF : FreqFacts s) (hT : TreeFacts s) (h2 : 2 ≤ s.freq.nsym) :
    ((treeCodes s.node s.tree.root).map fun e => e.1.toNat).Perm (symbols.filter fun x => s.count x != 0) := by
  have hs := hT.shape hF
  have h256 := hF.nsym_range.2
  have hmem : ∀ x q, (x, q) ∈ treeCodes s.node s.tree.root ↔ LeafPath s.node s.tree.root q x := fun x q => by
    rw [hT.root]; exact mem_treeCodes hs h2 h256
  have hnd : (treeCodes s.node s.tree.root).Nodup := by
    have hk : (s.node s.tree.root).kind = .internal := by
      rw [hT.root]; exact (hs.internal _ (by omega) (by omega)).1
    rw [treeCodes_internal hk]
    exact List.Nodup.of_map _ (visit_nodup s.node 256 s.tree.root [])
  refine (List.perm_ext_iff_of_nodup (List.Nodup.map_on ?_ hnd) (List.nodup_range.filter _)).2 fun x => ?_
  · rintro ⟨x, p⟩ hx ⟨y, q⟩ hy hxy
    have : x = y := BitVec.eq_of_toNat_eq hxy
    subst this
    rw [hT.leafPath_unique hF ((hmem x p).1 hx) ((hmem x q).1 hy)]
  · simp only [List.mem_map, Prod.exists, List.mem_filter, bne_iff_ne]
    constructor
    · rintro ⟨y, q, hy, rfl⟩
      have := hT.symbol_of_leafPath hF ((hmem y q).1 hy)
      exact ⟨mem_symbols.2 y.isLt, by omega⟩
    · rintro ⟨hx, hc⟩
      have hx := mem_symbols.1 hx
      obtain ⟨q, hq⟩ := hT.leafPath_of_symbol hF hx (by omega)
      exact ⟨_, q, (hmem _ q).2 hq, by rw [BitVec.toNat_ofNat, Nat.mod_eq_of_lt hx]⟩

/-! ### Level 2 -/

section Code

variable {s : State} (hF : FreqFacts s) (hT : TreeFacts s) (hC : s.code.codet = codeTable (treeCodes s.node s.tree.root))
include hF hT hC

/-- After `ASSIGN`, with two symbols or more: the record of a symbol is its leaf path (R140, R145). -/
theorem codeOf_leafPath (h2 : 2 ≤ s.freq.nsym) {x : Nat} (hx : x < 256) (hc : 0 < s.count x) :
    ∃ q, LeafPath s.node s.tree.root q (BitVec.ofNat 8 x) ∧ q.length ≤ s.freq.nsym - 1 ∧ 1 ≤ q.length
      ∧ s.codeOf x = Code.ofPath q ∧ (s.codeOf x).path = q := by
  have h256 := hF.nsym_range.2
  have hs := hT.shape hF
  obtain ⟨q, hq⟩ := hT.leafPath_of_symbol hF hx hc
  have hxb : (BitVec.ofNat 8 x : Byte).toNat = x := by rw [BitVec.toNat_ofNat, Nat.mod_eq_of_lt hx]
  have hread : Store.read s.code.codet x = some (Code.ofPath q) := by
    rw [hC]
    refine read_codeTable ⟨(BitVec.ofNat 8 x, q), ?_, hxb⟩ fun e he hex => ?_
    · rw [hT.root] at hq ⊢
      exact (mem_treeCodes hs h2 h256).2 hq
    · obtain ⟨y, p⟩ := e
      rw [hT.root] at he
      have hy := (mem_treeCodes hs h2 h256).1 he
      rw [← hT.root] at hy
      have : y = BitVec.ofNat 8 x := BitVec.eq_of_toNat_eq (by rw [hxb]; exact hex)
      subst this
      exact hT.leafPath_unique hF hy hq
  have hlen : q.length ≤ s.freq.nsym - 1 := hs.leafPath_length (by rw [← hT.root]; exact hq)
  have hcode : s.codeOf x = Code.ofPath q := by rw [State.codeOf, hread]; rfl
  refine ⟨q, hq, hlen, ?_, hcode, by rw [hcode, Code.path_ofPath (by omega)]⟩
  cases q with
  | nil =>
    rw [leafPath_nil, hT.root] at hq
    rw [(hs.internal _ (by omega) (by omega)).1] at hq
    cases hq.1
  | cons b q => simp

/-- After `ASSIGN`: a symbol that does not occur has no code (R38). -/
theorem codeOf_absent {x : Nat} (hx : x < 256) (hc : s.count x = 0) : s.codeOf x = Code.empty := by
  have hpos := hF.nsym_range.1
  have h256 := hF.nsym_range.2
  have hs := hT.shape hF
  have hread : Store.read s.code.codet x = some Code.empty := by
    rw [hC]
    refine read_codeTable_other hx fun e he hex => ?_
    obtain ⟨y, p⟩ := e
    rw [hT.root] at he
    have hy : ∃ p, LeafPath s.node s.tree.root p y := by
      rw [hT.root]
      by_cases h2 : 2 ≤ s.freq.nsym
      · exact ⟨p, (mem_treeCodes hs h2 h256).1 he⟩
      · have hk := hs.leaf (2 * s.freq.nsym - 2) (by omega)
        rw [treeCodes_leaf hk, List.mem_singleton] at he
        exact ⟨[], by rw [leafPath_nil]; exact ⟨hk, by cases he; rfl⟩⟩
    obtain ⟨p, hp⟩ := hy
    have := hT.symbol_of_leafPath hF hp
    simp only at hex
    rw [hex] at this
    omega
  rw [State.codeOf, hread]; rfl

/-- After `ASSIGN`, with one symbol: its code is `"0"` (R142). -/
theorem codeOf_single (h1 : s.freq.nsym = 1) {x : Nat} (hx : x < 256) (hc : 0 < s.count x) :
    s.codeOf x = Code.ofPath [false] := by
  have hs := hT.shape hF
  have hroot : s.tree.root = 0 := by rw [hT.root, h1]
  have hk := hs.leaf 0 (by omega)
  obtain ⟨i, hi, he⟩ := mem_leaves (count := s.count) hx (by omega)
  rw [hF.leaves_length, h1] at hi
  have hi0 : i = 0 := by omega
  subst hi0
  have hn : s.node 0 = Node.leafOf x (s.count x) := by rw [hT.leaf_node hF (by omega), he]
  have hread : Store.read s.code.codet x = some (Code.ofPath [false]) := by
    rw [hC, hroot, treeCodes_leaf hk, hn]
    refine read_codeTable ⟨_, List.mem_singleton.2 rfl, leafOf_sym (s.count x) hx⟩ fun e he _ => ?_
    rw [List.mem_singleton] at he
    rw [he]
  rw [State.codeOf, hread]; rfl

/-- After `ASSIGN` (R45 item 5, R38, R143). -/
theorem CodeFacts.of_assigned : CodeFacts s := by
  have hpos := hF.nsym_range.1
  have h256 := hF.nsym_range.2
  obtain ⟨-, -, hw⟩ := codeTable_ok (treeCodes s.node s.tree.root)
  rw [← hC] at hw
  -- the record of any symbol
  have hrec : ∀ x < 256, (s.count x = 0 ∧ s.codeOf x = Code.empty)
      ∨ ∃ q, 0 < s.count x ∧ 1 ≤ q.length ∧ q.length ≤ 255 ∧ s.codeOf x = Code.ofPath q := by
    intro x hx
    by_cases hc : s.count x = 0
    · exact .inl ⟨hc, codeOf_absent hF hT hC hx hc⟩
    · right
      by_cases h2 : 2 ≤ s.freq.nsym
      · obtain ⟨q, -, hl, h1, he, -⟩ := codeOf_leafPath hF hT hC h2 hx (by omega)
        exact ⟨q, by omega, h1, by omega, he⟩
      · exact ⟨[false], by omega, by simp, by simp, codeOf_single hF hT hC (by omega) hx (by omega)⟩
  constructor
  · intro x hx
    obtain ⟨c, hc, -⟩ := hw x hx
    rw [hc]; rfl
  · intro x hx
    rcases hrec x hx with ⟨hc, he⟩ | ⟨q, hc, h1, -, he⟩
    · rw [he, hc]; simp [Code.empty]
    · rw [he, Code.ofPath_len]; omega
  · intro x hx
    rcases hrec x hx with ⟨-, he⟩ | ⟨q, -, -, hl, he⟩
    · rw [he]; simp [Code.empty]
    · rw [he]; exact hl
  · intro x hx
    rcases hrec x hx with ⟨-, he⟩ | ⟨q, -, -, -, he⟩
    · rw [he]; decide
    · rw [he]; exact Code.ofPath_zero_above q
  · intro h2 x hx
    by_cases hc : s.count x = 0
    · rw [codeOf_absent hF hT hC hx hc]; simp [Code.empty]
    · obtain ⟨q, -, hl, -, he, -⟩ := codeOf_leafPath hF hT hC h2 hx (by omega)
      rw [he]; exact hl
  · intro h2 x hx y hy hcx hcy hne hpre
    obtain ⟨p, hp, -, -, -, hpp⟩ := codeOf_leafPath hF hT hC h2 hx hcx
    obtain ⟨q, hq, -, -, -, hqp⟩ := codeOf_leafPath hF hT hC h2 hy hcy
    rw [hpp, hqp] at hpre
    have := congrArg BitVec.toNat (leafPath_prefix hp hq hpre).2
    rw [BitVec.toNat_ofNat, BitVec.toNat_ofNat, Nat.mod_eq_of_lt hx, Nat.mod_eq_of_lt hy] at this
    exact hne this
  · intro h1 x hx hc
    rw [codeOf_single hF hT hC h1 hx hc]
    exact Code.path_ofPath (by simp)

end Code

/-! ### Level 3 -/

/-- The two forms of the length of the bitstream (R154). -/
theorem codeStream_length {s : State} (h : ∀ x < 256, s.count x = occurrences s.inputBytes x) :
    s.codeStream.length = s.streamLength := by
  rw [State.streamLength, map_symbols_congr (g := fun x => occurrences s.inputBytes x * (s.codeOf x).len)
    fun x hx => by rw [h x hx], sum_occurrences_mul _ fun x => (s.codeOf x).len, State.codeStream, List.length_flatMap]
  simp only [Code.path_length]

/-- After `PACK` (R150). -/
theorem PayFacts.of_packed {s : State} (h : ∀ x < 256, s.count x = occurrences s.inputBytes x)
    (hcap : ceil8 s.streamLength ≤ s.params.payCap) (hn : s.pay.nbits = s.streamLength)
    (hl : s.pay.payLen = (packBits s.codeStream).length) (hb : s.pay.pbuf = Store.ofList 0 (packBits s.codeStream)) :
    PayFacts s := by
  have hlen : s.pay.payLen = ceil8 s.pay.nbits := by rw [hl, packBits_length, codeStream_length h, hn]
  refine ⟨fun a ha => ?_, hn, hlen, by rw [hlen, hn]; exact hcap⟩
  rw [hl] at ha
  rw [hb, Store.read_ofList_zero, List.getElem?_eq_getElem ha]; rfl

/-! ### Level 4 -/

/-- After `SER` or `WALK` (R162, R180): the output is the list stored. -/
theorem OutFacts.of_stored {s : State} {bytes : List Byte} (hb : s.out.obuf = Store.ofList 0 bytes)
    (hl : s.out.outLen = bytes.length) (hcap : bytes.length ≤ s.params.outCap) :
    OutFacts s ∧ s.outputBytes = bytes := by
  refine ⟨⟨fun a ha => ?_, by rw [hl]; exact hcap⟩, ?_⟩
  · rw [hl] at ha
    rw [hb, Store.read_ofList_zero, List.getElem?_eq_getElem ha]; rfl
  · apply List.ext_getElem
    · rw [State.outputBytes_length, hl]
    · intro i h1 h2
      simp only [State.outputBytes, List.getElem_map, List.getElem_range, State.outByte, hb, Store.read_ofList_zero,
        List.getElem?_eq_getElem h2, Option.getD_some]

/-- The payload that `PACK` stored is the list stored. -/
theorem payloadBytes_of_stored {s : State} {bytes : List Byte} (hb : s.pay.pbuf = Store.ofList 0 bytes)
    (hl : s.pay.payLen = bytes.length) : s.payloadBytes = bytes := by
  apply List.ext_getElem
  · rw [State.payloadBytes_length, hl]
  · intro i h1 h2
    simp only [State.payloadBytes, List.getElem_map, List.getElem_range, State.payByte, hb, Store.read_ofList_zero,
      List.getElem?_eq_getElem h2, Option.getD_some]

end Sys2Proof.Machine
end

