-- ==== Sys2Proof/Laws/Units.lean ====
section
/-! SUPPORT. What a command can do, said once: acceptance, the unit wrapper, the frame of each body, and that a command
looks neither at the control fields nor at the host port. -/

namespace Sys2Proof.Machine

/-! ### Acceptance (R190) -/

/-- Every arm of `exec` is the acceptance rule around the command's `finish`. -/
theorem exec_eq_runCommand (i : Instr) (s : State) : exec i s = runCommand i (finish i) s := by cases i <;> rfl

theorem exec_of_busy (i : Instr) {s : State} (h : s.stt.isBusy = true) : exec i s = .next s := by
  simp [exec_eq_runCommand, runCommand, h]

theorem exec_of_accepted (i : Instr) {s : State} (h : s.stt.isBusy = false) (hp : s.prereq i = true) :
    exec i s = .next (finish i (s.accept i 0)) := by
  simp [exec_eq_runCommand, runCommand, h, hp]

theorem exec_of_missing (i : Instr) {s : State} (h : s.stt.isBusy = false) (hp : s.prereq i = false) :
    exec i s = .next (s.enterError .sequence) := by
  simp [exec_eq_runCommand, runCommand, h, hp]

/-- What `exec` can answer: a next state, always, by one of three ways. -/
theorem exec_cases (i : Instr) {s t : State} (h : exec i s = .next t) :
    (s.stt.isBusy = true ∧ t = s)
    ∨ (s.stt.isBusy = false ∧ s.prereq i = false ∧ t = s.enterError .sequence)
    ∨ (s.stt.isBusy = false ∧ s.prereq i = true ∧ t = finish i (s.accept i 0)) := by
  by_cases hb : s.stt.isBusy = true
  · rw [exec_of_busy i hb] at h; cases h; exact .inl ⟨hb, rfl⟩
  · rw [Bool.not_eq_true] at hb
    by_cases hp : s.prereq i = true
    · rw [exec_of_accepted i hb hp] at h; cases h; exact .inr (.inr ⟨hb, hp, rfl⟩)
    · rw [Bool.not_eq_true] at hp
      rw [exec_of_missing i hb hp] at h; cases h; exact .inr (.inl ⟨hb, hp, rfl⟩)

/-! ### The unit wrapper (R192) -/

/-- The body of each unit. -/
def unitBody : UnitOp → State → BodyResult
  | .freq => freqBody
  | .build => buildBody
  | .assign => assignBody
  | .pack => packBody
  | .ser => serBody
  | .deser => deserBody
  | .walk => walkBody

theorem runUnit_of_ok {u : UnitOp} {body : State → BodyResult} {s t : State} (h : body (s.startUnit u) = .ok t) :
    runUnit u body s = (t.setFlag u.level, none) := by simp [runUnit, h]

theorem runUnit_of_error {u : UnitOp} {body : State → BodyResult} {s : State} {e : ErrCode}
    (h : body (s.startUnit u) = .error e) : runUnit u body s = (s.startUnit u, some e) := by
  simp only [runUnit, h]
  cases u <;> rfl

/-- The composite commands and the unit commands are paths of units. -/
def runPath : List UnitOp → State → State × Option ErrCode
  | [], s => (s, none)
  | u :: us, s => andThen (runUnit u (unitBody u) s) (runPath us)

theorem andThen_none (r : State × Option ErrCode) : andThen r (fun s => (s, none)) = r := by
  obtain ⟨s, _ | e⟩ := r <;> rfl

theorem andThen_assoc (r : State × Option ErrCode) (f g : State → State × Option ErrCode) :
    andThen (andThen r f) g = andThen r fun s => andThen (f s) g := by
  obtain ⟨s, _ | e⟩ := r <;> rfl

/-- The units a command runs, in order; `CLEAR` runs none. -/
def path : Instr → List UnitOp
  | .freq => [.freq]
  | .build => [.build]
  | .assign => [.assign]
  | .pack => [.pack]
  | .ser => [.ser]
  | .deser => [.deser]
  | .walk => [.walk]
  | .encode => [.freq, .build, .assign, .pack, .ser]
  | .decode => [.deser, .build, .walk]
  | .clear => []

theorem runPath_single (u : UnitOp) : runPath [u] = runUnit u (unitBody u) := by
  funext s; exact andThen_none _

theorem runPath_cons (u : UnitOp) (us : List UnitOp) (s : State) :
    runPath (u :: us) s = andThen (runUnit u (unitBody u) s) (runPath us) := rfl

theorem runPath_cons_cons (u v : UnitOp) (us : List UnitOp) :
    runPath (u :: v :: us) = fun s => andThen (runUnit u (unitBody u) s) (runPath (v :: us)) := rfl

/-- Every command but `CLEAR` runs its units up to the first that fails (R192 to R194). -/
theorem finish_eq_runPath {i : Instr} (h : i ≠ .clear) (s : State) : finish i s = endCommand (runPath (path i) s) := by
  cases i
  case clear => exact absurd rfl h
  case encode =>
    show endCommand (encodePath s) = _
    simp only [encodePath, path, andThen_assoc, runPath_cons_cons, runPath_single, unitBody]
  case decode =>
    show endCommand (decodePath s) = _
    simp only [decodePath, path, andThen_assoc, runPath_cons_cons, runPath_single, unitBody]
  all_goals rw [path, runPath_single]; rfl

/-! ### The frame of the bodies -/

/-- The states agree but for one level. -/
def SameBut (l : Level) (s t : State) : Prop :=
  match l with
  | .freq => t = { s with freq := t.freq }
  | .tree => t = { s with tree := t.tree }
  | .code => t = { s with code := t.code }
  | .pay => t = { s with pay := t.pay }
  | .out => t = { s with out := t.out }

/-- The body of a unit writes its own level and nothing else. -/
theorem unitBody_frame {u : UnitOp} {s t : State} (h : unitBody u s = .ok t) : SameBut u.level s t := by
  cases u <;> simp only [unitBody, freqBody, buildBody, assignBody, packBody, serBody, deserBody, walkBody] at h
  case build => cases h; rfl
  case assign => cases h; rfl
  all_goals (split at h <;> try cases h)
  case freq => split at h <;> cases h; rfl
  case pack => rfl
  case ser => rfl
  case deser => split at h <;> cases h; rfl
  case walk => split at h <;> cases h; rfl

/-- The errors a body can raise, and when (R200). -/
theorem unitBody_error {u : UnitOp} {s : State} {e : ErrCode} (h : unitBody u s = .error e) :
    e = .capacity ∨ (e = .emptyInput ∧ u = .freq) ∨ (e = .corruptStream ∧ (u = .deser ∨ u = .walk)) := by
  cases u <;> simp only [unitBody, freqBody, buildBody, assignBody, packBody, serBody, deserBody, walkBody] at h
  case build => cases h
  case assign => cases h
  all_goals split at h
  all_goals first
    | (cases h; simp; done)
    | (cases h; done)
    | (split at h <;> cases h; simp)

theorem buildBody_ok (s : State) : ∃ t, unitBody .build s = .ok t := ⟨_, rfl⟩

theorem assignBody_ok (s : State) : ∃ t, unitBody .assign s = .ok t := ⟨_, rfl⟩

/-! ### Commands do not look at the control fields or at the host port -/

/-- Another `STATE`, `ERR` and host port around the same core. -/
def State.recast (stt : RunState) (err : Option ErrCode) (host : List HostOp) (replies : List Reply) (tick : Nat)
    (s : State) : State :=
  { s with stt := stt, err := err, host := host, replies := replies, tick := tick }

section Recast

variable (a : RunState) (b : Option ErrCode) (c : List HostOp) (d : List Reply) (n : Nat)

theorem startUnit_recast (u : UnitOp) (s : State) :
    (s.recast a b c d n).startUnit u = (s.startUnit u).recast a b c d n := rfl

theorem setFlag_recast (l : Level) (s : State) : (s.recast a b c d n).setFlag l = (s.setFlag l).recast a b c d n := by
  cases l <;> rfl

theorem unitBody_recast (u : UnitOp) (s : State) :
    unitBody u (s.recast a b c d n) = (unitBody u s).map (State.recast a b c d n) := by
  cases u
  case build => rfl
  case assign => rfl
  case freq =>
    show freqBody (s.recast a b c d n) = (freqBody s).map _
    show ite (s.inLen > s.params.inCap) _ _ = _
    unfold freqBody
    split
    · rfl
    · show ite (s.inLen = 0) _ _ = _
      split <;> rfl
  case pack =>
    show packBody (s.recast a b c d n) = (packBody s).map _
    show ite (ceil8 s.streamLength > s.params.payCap) _ _ = _
    unfold packBody
    split <;> rfl
  case ser =>
    show serBody (s.recast a b c d n) = (serBody s).map _
    show ite ((header s.freq.nsym s.count).length + s.pay.payLen > s.params.outCap) _ _ = _
    unfold serBody
    split <;> rfl
  case deser =>
    show deserBody (s.recast a b c d n) = (deserBody s).map _
    show ite (s.inLen > s.params.inCap) _ (match parseHeader s.params.cmax s.inputBytes with | none => _ | some h => _) = _
    unfold deserBody
    split
    · rfl
    · cases parseHeader s.params.cmax s.inputBytes <;> rfl
  case walk =>
    show walkBody (s.recast a b c d n) = (walkBody s).map _
    show ite (s.freq.total > s.params.outCap) _ (match s.decoded with | none => _ | some h => _) = _
    unfold walkBody
    split
    · rfl
    · cases s.decoded <;> rfl

theorem runUnit_recast (u : UnitOp) (s : State) :
    runUnit u (unitBody u) (s.recast a b c d n)
      = ((runUnit u (unitBody u) s).1.recast a b c d n, (runUnit u (unitBody u) s).2) := by
  cases h : unitBody u (s.startUnit u) with
  | error e =>
    have h' : unitBody u ((s.recast a b c d n).startUnit u) = .error e := by
      rw [startUnit_recast, unitBody_recast, h]; rfl
    rw [runUnit_of_error h, runUnit_of_error h', startUnit_recast]
  | ok t =>
    have h' : unitBody u ((s.recast a b c d n).startUnit u) = .ok (t.recast a b c d n) := by
      rw [startUnit_recast, unitBody_recast, h]; rfl
    rw [runUnit_of_ok h, runUnit_of_ok h', setFlag_recast]

theorem runPath_recast (us : List UnitOp) (s : State) :
    runPath us (s.recast a b c d n) = ((runPath us s).1.recast a b c d n, (runPath us s).2) := by
  induction us generalizing s with
  | nil => rfl
  | cons u us ih =>
    rw [runPath_cons, runPath_cons, runUnit_recast]
    rcases runUnit u (unitBody u) s with ⟨t, _ | e⟩
    · exact ih t
    · rfl

end Recast

/-- A running command ends in the same way whatever the host port holds and wherever it was in its window. -/
theorem finish_recast (i : Instr) (s : State) (a : RunState) (c : List HostOp) (d : List Reply) (n : Nat)
    (h : s.err = none) :
    finish i (s.recast a none c d n) = { finish i s with host := c, replies := d, tick := n } := by
  by_cases hi : i = .clear
  · subst hi; rfl
  · have key : ∀ us, (runPath us s).1.err = none := by
      intro us
      induction us generalizing s with
      | nil => exact h
      | cons u us ih =>
        rw [runPath_cons]
        cases hb : unitBody u (s.startUnit u) with
        | error e => rw [runUnit_of_error hb]; exact h
        | ok t =>
          rw [runUnit_of_ok hb]
          refine ih _ ?_
          have := unitBody_frame hb
          rw [State.setFlag_err]
          cases u <;> (simp only [SameBut, UnitOp.level] at this; rw [this]; exact h)
    rw [finish_eq_runPath hi, finish_eq_runPath hi, runPath_recast]
    have := key (path i)
    rcases hr : runPath (path i) s with ⟨t, _ | e⟩
    · rw [hr] at this
      simp only at this
      simp [endCommand, State.finishDone, State.recast, this]
    · rfl

end Sys2Proof.Machine
end

