-- ==== Sys2Proof/Laws/Sound.lean ====
section
/-! SUPPORT. The part of the invariant that speaks of the input and the levels, and that every unit of work keeps it. -/

namespace Sys2Proof.Machine

/-- `Inv` without its clauses on `STATE` and `ERR`. -/
structure Sound (s : State) : Prop where
  params : s.params.wellFormed = true
  inLen : s.inLen ≤ s.params.cmax
  stores : StoresOk s
  tree_needs_freq : s.tree.valid = true → s.freq.valid = true
  code_needs_tree : s.code.valid = true → s.tree.valid = true
  pay_needs_code : s.pay.valid = true → s.code.valid = true ∧ s.freq.origin = .enc
  freq_cleared : s.freq.valid = false → s.freq = .invalid
  tree_cleared : s.tree.valid = false → s.tree = .invalid
  code_cleared : s.code.valid = false → s.code = .invalid
  pay_cleared : s.pay.valid = false → s.pay = .invalid
  out_cleared : s.out.valid = false → s.out = .invalid
  freq : s.freq.valid = true → FreqFacts s
  tree : s.tree.valid = true → TreeFacts s
  code : s.code.valid = true → CodeFacts s
  pay : s.pay.valid = true → PayFacts s
  out : s.out.valid = true → OutFacts s

theorem Inv.sound {s : State} (h : Inv s) : Sound s where
  params := h.params
  inLen := h.inLen
  stores := h.stores
  tree_needs_freq := h.tree_needs_freq
  code_needs_tree := h.code_needs_tree
  pay_needs_code := h.pay_needs_code
  freq_cleared := h.freq_cleared
  tree_cleared := h.tree_cleared
  code_cleared := h.code_cleared
  pay_cleared := h.pay_cleared
  out_cleared := h.out_cleared
  freq := h.freq
  tree := h.tree
  code := h.code
  pay := h.pay
  out := h.out

theorem Sound.inv {s : State} (h : Sound s) (he : s.stt = .error ↔ s.err ≠ none) (hr : s.err ≠ some .ioUnavailable)
    (hb : ∀ cmd window, s.stt = .busy cmd window → s.prereq cmd = true) : Inv s where
  params := h.params
  inLen := h.inLen
  stores := h.stores
  tree_needs_freq := h.tree_needs_freq
  code_needs_tree := h.code_needs_tree
  pay_needs_code := h.pay_needs_code
  freq_cleared := h.freq_cleared
  tree_cleared := h.tree_cleared
  code_cleared := h.code_cleared
  pay_cleared := h.pay_cleared
  out_cleared := h.out_cleared
  freq := h.freq
  tree := h.tree
  code := h.code
  pay := h.pay
  out := h.out
  error_iff := he
  err_raised := hr
  running := hb

/-! ### What each fact depends on -/

theorem FreqFacts.congr {s t : State} (h : FreqFacts s) (hp : t.params = s.params) (hl : t.inLen = s.inLen) (hi : t.ibuf = s.ibuf)
    (hx : t.fill = s.fill) (hf : t.freq = s.freq) : FreqFacts t := by
  cases s; cases t; cases hp; cases hl; cases hi; cases hx; cases hf
  exact ⟨h.1, h.2, h.3, h.4, h.5, h.6, h.7, h.8⟩

theorem TreeFacts.congr {s t : State} (h : TreeFacts s) (hp : t.params = s.params) (hx : t.fill = s.fill) (hf : t.freq = s.freq)
    (ht : t.tree = s.tree) : TreeFacts t := by
  cases s; cases t; cases hp; cases hx; cases hf; cases ht
  exact ⟨h.1, h.2, h.3, h.4, h.5, h.6, h.7, h.8⟩

theorem CodeFacts.congr {s t : State} (h : CodeFacts s) (hx : t.fill = s.fill) (hf : t.freq = s.freq) (hc : t.code = s.code) : CodeFacts t := by
  cases s; cases t; cases hx; cases hf; cases hc
  exact ⟨h.1, h.2, h.3, h.4, h.5, h.6, h.7⟩

theorem PayFacts.congr {s t : State} (h : PayFacts s) (hp : t.params = s.params) (hx : t.fill = s.fill) (hf : t.freq = s.freq)
    (hc : t.code = s.code) (hy : t.pay = s.pay) : PayFacts t := by
  cases s; cases t; cases hp; cases hx; cases hf; cases hc; cases hy
  exact ⟨h.1, h.2, h.3⟩

theorem OutFacts.congr {s t : State} (h : OutFacts s) (hp : t.params = s.params) (ho : t.out = s.out) : OutFacts t := by
  cases s; cases t; cases hp; cases ho
  exact ⟨h.1, h.2⟩

theorem StoresOk.congr {s t : State} (h : StoresOk s) (hp : t.params = s.params) (hi : t.ibuf = s.ibuf) (hf : t.freq = s.freq)
    (ht : t.tree = s.tree) (hc : t.code = s.code) (hy : t.pay = s.pay) (ho : t.out = s.out) :
    StoresOk t := by
  cases s; cases t; cases hp; cases hi; cases hf; cases ht; cases hc; cases hy; cases ho
  exact ⟨h.1, h.2, h.3, h.4, h.5, h.6⟩

/-- `Sound` looks at the parameters, the input and the levels only. -/
theorem Sound.congr {s t : State} (h : Sound s) (hp : t.params = s.params) (hl : t.inLen = s.inLen) (hi : t.ibuf = s.ibuf)
    (hx : t.fill = s.fill) (hf : t.freq = s.freq) (ht : t.tree = s.tree) (hc : t.code = s.code) (hy : t.pay = s.pay)
    (ho : t.out = s.out) : Sound t where
  params := hp ▸ h.params
  inLen := by rw [hl, hp]; exact h.inLen
  stores := h.stores.congr hp hi hf ht hc hy ho
  tree_needs_freq := by rw [hf, ht]; exact h.tree_needs_freq
  code_needs_tree := by rw [ht, hc]; exact h.code_needs_tree
  pay_needs_code := by rw [hf, hc, hy]; exact h.pay_needs_code
  freq_cleared := by rw [hf]; exact h.freq_cleared
  tree_cleared := by rw [ht]; exact h.tree_cleared
  code_cleared := by rw [hc]; exact h.code_cleared
  pay_cleared := by rw [hy]; exact h.pay_cleared
  out_cleared := by rw [ho]; exact h.out_cleared
  freq := by rw [hf]; exact fun hv => (h.freq hv).congr hp hl hi hx hf
  tree := by rw [ht]; exact fun hv => (h.tree hv).congr hp hx hf ht
  code := by rw [hc]; exact fun hv => (h.code hv).congr hx hf hc
  pay := by rw [hy]; exact fun hv => (h.pay hv).congr hp hx hf hc hy
  out := by rw [ho]; exact fun hv => (h.out hv).congr hp ho

/-! ### Invalidation -/

/-- Levels that are invalid from some point up leave the rest as it was. -/
theorem Sound.invalidateRange {s : State} (lo hi : Nat) (h : Sound s) (hhi : 3 ≤ hi) : Sound (s.invalidateRange lo hi) := by
  obtain ⟨p, st, ph, er, il, ib, fr, tr, co, pa, ou, ho, re, ti, fi⟩ := s
  have e : State.invalidateRange lo hi ⟨p, st, ph, er, il, ib, fr, tr, co, pa, ou, ho, re, ti, fi⟩
      = ⟨p, st, ph, er, il, ib, if lo ≤ 0 then .invalid else fr, if lo ≤ 1 then .invalid else tr,
        if lo ≤ 2 then .invalid else co, if lo ≤ 3 then .invalid else pa, if lo ≤ 4 ∧ 4 ≤ hi then .invalid else ou,
        ho, re, ti, fi⟩ := by
    simp only [State.invalidateRange, show 1 ≤ hi by omega, show 2 ≤ hi by omega, hhi, and_true]
  rw [e]
  constructor
  · exact h.params
  · exact h.inLen
  · refine ⟨h.stores.ibuf, ?_, ?_, ?_, ?_, ?_⟩
    · show Store.wf (if lo ≤ 0 then FreqLevel.invalid else fr).freqt ∧ _
      split
      · exact ⟨Store.wf_nil, fun e he => by cases he⟩
      · exact h.stores.freqt
    · show Store.wf (if lo ≤ 1 then TreeLevel.invalid else tr).nodet ∧ _
      split
      · exact ⟨Store.wf_nil, fun e he => by cases he⟩
      · exact h.stores.nodet
    · show Store.wf (if lo ≤ 2 then CodeLevel.invalid else co).codet ∧ _
      split
      · exact ⟨Store.wf_nil, fun e he => by cases he⟩
      · exact h.stores.codet
    · show Store.wf (if lo ≤ 3 then PayLevel.invalid else pa).pbuf ∧ _
      split
      · exact ⟨Store.wf_nil, fun e he => by cases he⟩
      · exact h.stores.pbuf
    · show Store.wf (if lo ≤ 4 ∧ 4 ≤ hi then OutLevel.invalid else ou).obuf ∧ _
      split
      · exact ⟨Store.wf_nil, fun e he => by cases he⟩
      · exact h.stores.obuf
  · show (if lo ≤ 1 then TreeLevel.invalid else tr).valid = true → (if lo ≤ 0 then FreqLevel.invalid else fr).valid = true
    by_cases h1 : lo ≤ 1
    · simp [h1, TreeLevel.invalid]
    · simp only [h1, show ¬ lo ≤ 0 by omega, if_false]; exact h.tree_needs_freq
  · show (if lo ≤ 2 then CodeLevel.invalid else co).valid = true → (if lo ≤ 1 then TreeLevel.invalid else tr).valid = true
    by_cases h1 : lo ≤ 2
    · simp [h1, CodeLevel.invalid]
    · simp only [h1, show ¬ lo ≤ 1 by omega, if_false]; exact h.code_needs_tree
  · show (if lo ≤ 3 then PayLevel.invalid else pa).valid = true → (if lo ≤ 2 then CodeLevel.invalid else co).valid = true
      ∧ (if lo ≤ 0 then FreqLevel.invalid else fr).origin = .enc
    by_cases h1 : lo ≤ 3
    · simp [h1, PayLevel.invalid]
    · simp only [h1, show ¬ lo ≤ 2 by omega, show ¬ lo ≤ 0 by omega, if_false]; exact h.pay_needs_code
  · show (if lo ≤ 0 then FreqLevel.invalid else fr).valid = false → (if lo ≤ 0 then FreqLevel.invalid else fr) = .invalid
    split
    · exact fun _ => rfl
    · exact h.freq_cleared
  · show (if lo ≤ 1 then TreeLevel.invalid else tr).valid = false → (if lo ≤ 1 then TreeLevel.invalid else tr) = .invalid
    split
    · exact fun _ => rfl
    · exact h.tree_cleared
  · show (if lo ≤ 2 then CodeLevel.invalid else co).valid = false → (if lo ≤ 2 then CodeLevel.invalid else co) = .invalid
    split
    · exact fun _ => rfl
    · exact h.code_cleared
  · show (if lo ≤ 3 then PayLevel.invalid else pa).valid = false → (if lo ≤ 3 then PayLevel.invalid else pa) = .invalid
    split
    · exact fun _ => rfl
    · exact h.pay_cleared
  · show (if lo ≤ 4 ∧ 4 ≤ hi then OutLevel.invalid else ou).valid = false →
      (if lo ≤ 4 ∧ 4 ≤ hi then OutLevel.invalid else ou) = .invalid
    split
    · exact fun _ => rfl
    · exact h.out_cleared
  · show (if lo ≤ 0 then FreqLevel.invalid else fr).valid = true → _
    by_cases h1 : lo ≤ 0
    · simp [h1, FreqLevel.invalid]
    · rw [if_neg h1]; exact fun hv => (h.freq hv).congr rfl rfl rfl rfl rfl
  · show (if lo ≤ 1 then TreeLevel.invalid else tr).valid = true → _
    by_cases h1 : lo ≤ 1
    · simp [h1, TreeLevel.invalid]
    · rw [if_neg h1, if_neg (show ¬ lo ≤ 0 by omega)]; exact fun hv => (h.tree hv).congr rfl rfl rfl rfl
  · show (if lo ≤ 2 then CodeLevel.invalid else co).valid = true → _
    by_cases h1 : lo ≤ 2
    · simp [h1, CodeLevel.invalid]
    · rw [if_neg h1, if_neg (show ¬ lo ≤ 0 by omega)]; exact fun hv => (h.code hv).congr rfl rfl rfl
  · show (if lo ≤ 3 then PayLevel.invalid else pa).valid = true → _
    by_cases h1 : lo ≤ 3
    · simp [h1, PayLevel.invalid]
    · rw [if_neg h1, if_neg (show ¬ lo ≤ 0 by omega), if_neg (show ¬ lo ≤ 2 by omega)]
      exact fun hv => (h.pay hv).congr rfl rfl rfl rfl rfl
  · show (if lo ≤ 4 ∧ 4 ≤ hi then OutLevel.invalid else ou).valid = true → _
    by_cases h1 : lo ≤ 4 ∧ 4 ≤ hi
    · simp [h1, OutLevel.invalid]
    · rw [if_neg h1]; exact fun hv => (h.out hv).congr rfl rfl

theorem Sound.startUnit {s : State} (u : UnitOp) (h : Sound s) : Sound (s.startUnit u) :=
  Sound.invalidateRange (s := { s with phase := some u }) _ _ (h.congr rfl rfl rfl rfl rfl rfl rfl rfl rfl) (by omega)

/-! ### A level is written -/

/-- The levels from `lo` up are invalid (as `startUnit` leaves them). -/
theorem startUnit_invalid (u : UnitOp) (s : State) : InvalidFrom u.level.index (s.startUnit u) := by
  cases u <;> simp [InvalidFrom, UnitOp.level, Level.index, State.startUnit, State.invalidate, State.invalidateRange]

theorem Sound.withFreq {s : State} (h : Sound s) (hi : InvalidFrom 1 s) (L : FreqLevel)
    (hL : FreqFacts { s with freq := L }) (hv : L.valid = true) (hs : Store.wf L.freqt ∧ ∀ e ∈ L.freqt, e.1 < 256) :
    Sound { s with freq := L } := by
  obtain ⟨-, h1, h2, h3, h4⟩ := hi
  have h1 := h1 le_rfl; have h2 := h2 (by omega); have h3 := h3 (by omega); have h4 := h4 (by omega)
  exact {
    params := h.params
    inLen := h.inLen
    stores := ⟨h.stores.ibuf, hs, h.stores.nodet, h.stores.codet, h.stores.pbuf, h.stores.obuf⟩
    tree_needs_freq := fun _ => hv
    code_needs_tree := h.code_needs_tree
    pay_needs_code := fun hp => by simp only [h3] at hp; cases hp
    freq_cleared := fun hf => by simp only [hv] at hf; cases hf
    tree_cleared := h.tree_cleared
    code_cleared := h.code_cleared
    pay_cleared := h.pay_cleared
    out_cleared := h.out_cleared
    freq := fun _ => hL
    tree := fun hp => by simp only [h1] at hp; cases hp
    code := fun hp => by simp only [h2] at hp; cases hp
    pay := fun hp => by simp only [h3] at hp; cases hp
    out := fun hp => by simp only [h4] at hp; cases hp }

theorem Sound.withTree {s : State} (h : Sound s) (hi : InvalidFrom 2 s) (hf : s.freq.valid = true) (L : TreeLevel)
    (hL : TreeFacts { s with tree := L }) (hv : L.valid = true) (hs : Store.wf L.nodet ∧ ∀ e ∈ L.nodet, e.1 < nodeMax) :
    Sound { s with tree := L } := by
  obtain ⟨-, -, h2, h3, h4⟩ := hi
  have h2 := h2 le_rfl; have h3 := h3 (by omega); have h4 := h4 (by omega)
  exact {
    params := h.params
    inLen := h.inLen
    stores := ⟨h.stores.ibuf, h.stores.freqt, hs, h.stores.codet, h.stores.pbuf, h.stores.obuf⟩
    tree_needs_freq := fun _ => hf
    code_needs_tree := fun _ => hv
    pay_needs_code := h.pay_needs_code
    freq_cleared := h.freq_cleared
    tree_cleared := fun hf => by simp only [hv] at hf; cases hf
    code_cleared := h.code_cleared
    pay_cleared := h.pay_cleared
    out_cleared := h.out_cleared
    freq := fun hv => (h.freq hv).congr rfl rfl rfl rfl rfl
    tree := fun _ => hL
    code := fun hp => by simp only [h2] at hp; cases hp
    pay := fun hp => by simp only [h3] at hp; cases hp
    out := fun hp => by simp only [h4] at hp; cases hp }

theorem Sound.withCode {s : State} (h : Sound s) (hi : InvalidFrom 3 s) (ht : s.tree.valid = true) (L : CodeLevel)
    (hL : CodeFacts { s with code := L }) (hv : L.valid = true) (hs : Store.wf L.codet ∧ ∀ e ∈ L.codet, e.1 < 256) :
    Sound { s with code := L } := by
  obtain ⟨-, -, -, h3, h4⟩ := hi
  have h3 := h3 (by omega); have h4 := h4 (by omega)
  exact {
    params := h.params
    inLen := h.inLen
    stores := ⟨h.stores.ibuf, h.stores.freqt, h.stores.nodet, hs, h.stores.pbuf, h.stores.obuf⟩
    tree_needs_freq := h.tree_needs_freq
    code_needs_tree := fun _ => ht
    pay_needs_code := fun hp => by simp only [h3] at hp; cases hp
    freq_cleared := h.freq_cleared
    tree_cleared := h.tree_cleared
    code_cleared := fun hf => by simp only [hv] at hf; cases hf
    pay_cleared := h.pay_cleared
    out_cleared := h.out_cleared
    freq := fun hv => (h.freq hv).congr rfl rfl rfl rfl rfl
    tree := fun hv => (h.tree hv).congr rfl rfl rfl rfl
    code := fun _ => hL
    pay := fun hp => by simp only [h3] at hp; cases hp
    out := fun hp => by simp only [h4] at hp; cases hp }

theorem Sound.withPay {s : State} (h : Sound s) (hi : InvalidFrom 4 s) (hc : s.code.valid = true)
    (ho : s.freq.origin = .enc) (L : PayLevel) (hL : PayFacts { s with pay := L }) (hv : L.valid = true)
    (hs : Memory.wf L.pbuf ∧ ∀ e ∈ L.pbuf, e.1 < s.params.payCap) : Sound { s with pay := L } := by
  obtain ⟨-, -, -, -, h4⟩ := hi
  have h4 := h4 (by omega)
  exact {
    params := h.params
    inLen := h.inLen
    stores := ⟨h.stores.ibuf, h.stores.freqt, h.stores.nodet, h.stores.codet, hs, h.stores.obuf⟩
    tree_needs_freq := h.tree_needs_freq
    code_needs_tree := h.code_needs_tree
    pay_needs_code := fun _ => ⟨hc, ho⟩
    freq_cleared := h.freq_cleared
    tree_cleared := h.tree_cleared
    code_cleared := h.code_cleared
    pay_cleared := fun hf => by simp only [hv] at hf; cases hf
    out_cleared := h.out_cleared
    freq := fun hv => (h.freq hv).congr rfl rfl rfl rfl rfl
    tree := fun hv => (h.tree hv).congr rfl rfl rfl rfl
    code := fun hv => (h.code hv).congr rfl rfl rfl
    pay := fun _ => hL
    out := fun hp => by simp only [h4] at hp; cases hp }

theorem Sound.withOut {s : State} (h : Sound s) (L : OutLevel) (hL : OutFacts { s with out := L }) (hv : L.valid = true)
    (hs : Memory.wf L.obuf ∧ ∀ e ∈ L.obuf, e.1 < s.params.outCap) : Sound { s with out := L } where
  params := h.params
  inLen := h.inLen
  stores := ⟨h.stores.ibuf, h.stores.freqt, h.stores.nodet, h.stores.codet, h.stores.pbuf, hs⟩
  tree_needs_freq := h.tree_needs_freq
  code_needs_tree := h.code_needs_tree
  pay_needs_code := h.pay_needs_code
  freq_cleared := h.freq_cleared
  tree_cleared := h.tree_cleared
  code_cleared := h.code_cleared
  pay_cleared := h.pay_cleared
  out_cleared := fun hf => by simp only [hv] at hf; cases hf
  freq := fun hv => (h.freq hv).congr rfl rfl rfl rfl rfl
  tree := fun hv => (h.tree hv).congr rfl rfl rfl rfl
  code := fun hv => (h.code hv).congr rfl rfl rfl
  pay := fun hv => (h.pay hv).congr rfl rfl rfl rfl rfl
  out := fun _ => hL

/-- Where the parameters are legal, an input that fits `IBUF` is countable (R7). -/
theorem Sound.inCap_le {s : State} (h : Sound s) : s.params.inCap ≤ s.params.cmax := by
  have := h.params
  simp only [Params.wellFormed, Params.inCapOk, Bool.and_eq_true, decide_eq_true_eq] at this
  exact this.1.1.2.2

/-- Each unit, started with its prerequisite (R191), leaves a sound state and the facts of its level. -/
theorem Sound.unitBody {u : UnitOp} {s t : State} (h : Sound s) (hp : s.prereq u.command = true)
    (hb : unitBody u (s.startUnit u) = .ok t) : Sound (t.setFlag u.level) := by
  have h0 := h.startUnit u
  have hinv := startUnit_invalid u s
  have hup : InvalidFrom (u.level.index + 1) (s.startUnit u) :=
    ⟨fun hc => hinv.1 (by omega), fun hc => hinv.2.1 (by omega), fun hc => hinv.2.2.1 (by omega),
      fun hc => hinv.2.2.2.1 (by omega), fun hc => hinv.2.2.2.2 (by omega)⟩
  cases u <;> simp only [Machine.unitBody] at hb
  case freq =>
    unfold freqBody at hb
    split at hb
    · cases hb
    split at hb
    · cases hb
    cases hb
    have hcap := h0.inCap_le
    have hct := table_ok (occurrences (s.startUnit .freq).inputBytes)
    exact h0.withFreq hup _ (FreqFacts.of_counted (by simp only; omega) (by simp only; omega) (by simp only; omega)
      rfl rfl rfl rfl rfl) rfl hct
  case build =>
    cases hb
    have hf : s.freq.valid = true := hp
    have hF := h0.freq hf
    have hn : 1 ≤ distinctSymbols (s.startUnit .build).count := hF.nsym ▸ hF.nsym_range.1
    refine h0.withTree hup hf _ ?_ rfl ⟨Store.wf_ofList _ _, Store.ofList_in_range _ _ ?_⟩
    · refine (TreeFacts.of_built ?_ rfl rfl rfl).1
      exact hF.congr rfl rfl rfl rfl rfl
    · rw [buildArena_length hn, nodeMax]
      have := distinctSymbols_le (s.startUnit .build).count
      omega
  case assign =>
    cases hb
    have ht : s.tree.valid = true := hp
    have hF := h0.freq (h.tree_needs_freq ht)
    have hT := h0.tree ht
    obtain ⟨hw, hr, -⟩ := codeTable_ok (treeCodes (s.startUnit .assign).node (s.startUnit .assign).tree.root)
    refine h0.withCode hup ht _ ?_ rfl ⟨hw, hr⟩
    refine CodeFacts.of_assigned ?_ ?_ rfl
    · exact hF.congr rfl rfl rfl rfl rfl
    · exact hT.congr rfl rfl rfl rfl
  case pack =>
    have hp' : s.code.valid = true ∧ s.freq.origin = .enc := by
      simpa [State.prereq, UnitOp.command] using hp
    unfold packBody at hb
    split at hb
    · cases hb
    next hcap =>
    cases hb
    have hF := h0.freq (h.tree_needs_freq (h.code_needs_tree hp'.1))
    have hc := (hF.counted hp'.2).1
    have hP := PayFacts.of_packed (s := ({ s.startUnit .pack with
        pay := { (s.startUnit .pack).pay with
          nbits := (s.startUnit .pack).streamLength
          payLen := (packBits (s.startUnit .pack).codeStream).length
          pbuf := Store.ofList 0 (packBits (s.startUnit .pack).codeStream) } } : State).setFlag .pay)
      hc (by exact Nat.le_of_not_lt hcap) rfl rfl rfl
    refine h0.withPay hup hp'.1 hp'.2 _ hP rfl ⟨Store.wf_ofList _ _, Store.ofList_in_range _ _ ?_⟩
    rw [packBits_length, codeStream_length hc]
    omega
  case ser =>
    unfold serBody at hb
    split at hb
    · cases hb
    next hcap =>
    cases hb
    have hl : ∀ (l : List Byte) (n : Nat), l.length = n → (l ++ (s.startUnit .ser).payloadBytes).length
        = n + (s.startUnit .ser).pay.payLen := fun l n h => by rw [List.length_append, h, State.payloadBytes_length]
    exact h0.withOut _ (OutFacts.of_stored rfl (hl _ _ rfl).symm (by rw [hl _ _ rfl]; exact Nat.le_of_not_lt hcap)).1 rfl
      ⟨Store.wf_ofList _ _, Store.ofList_in_range _ _ (by rw [hl _ _ rfl]; exact Nat.le_of_not_lt hcap)⟩
  case deser =>
    unfold deserBody at hb
    split at hb
    · cases hb
    next hcap =>
    split at hb
    · cases hb
    next hh hparse =>
    cases hb
    obtain ⟨entries, hv, hi, hn, ht, htab⟩ := parseHeader_some hparse
    have hstore := enterAll_ok entries zeroCounts hv.symbol_range (table_ok _).1 (table_ok _).2
    rw [← htab] at hstore
    have hlen := congrArg List.length hi
    rw [State.inputBytes_length, List.length_append] at hlen
    refine h0.withFreq hup _ (FreqFacts.of_parsed (entries := entries) (payload := hh.rest) hv hi
      (by exact Nat.le_of_not_lt hcap) htab ht hn rfl ?_) rfl hstore
    show (s.startUnit .deser).inLen - hh.rest.length = _
    omega
  case walk =>
    unfold walkBody at hb
    split at hb
    · cases hb
    next hcap =>
    split at hb
    · cases hb
    next bytes hd =>
    cases hb
    have hl := decoded_length hd
    exact h0.withOut _ (OutFacts.of_stored rfl hl.symm (by rw [hl]; exact Nat.le_of_not_lt hcap)).1 rfl
      ⟨Store.wf_ofList _ _, Store.ofList_in_range _ _ (by rw [hl]; exact Nat.le_of_not_lt hcap)⟩

end Sys2Proof.Machine
end

