-- ==== Sys2Proof/Laws/Step.lean ====
section
/-! SUPPORT. What one step can do, said once (`serve_cases`, `serveBusy_cases`, `step_cases`), and that the host's
transactions keep the tables canonical and the levels sound. -/

namespace Sys2Proof.Machine

/-! ### Acceptance -/

theorem present_illegal {w : CmdWord} {e : Illegal} (h : decodeWord w = .error e) (n : Nat) (s : State) :
    s.present w n = .next (s.enterError .illegalCommand) := by simp [State.present, h]

theorem present_now {w : CmdWord} {i : Instr} (h : decodeWord w = .ok i) (s : State) : s.present w 0 = exec i s := by
  simp [State.present, h]

theorem present_missing {w : CmdWord} {i : Instr} (h : decodeWord w = .ok i) (n : Nat) {s : State}
    (hp : s.prereq i = false) : s.present w n = exec i s := by simp [State.present, h, hp]

theorem present_later {w : CmdWord} {i : Instr} (h : decodeWord w = .ok i) {n : Nat} (hn : n ≠ 0) {s : State}
    (hp : s.prereq i = true) : s.present w n = .next (s.accept i n) := by simp [State.present, h, hp, hn]

/-- What a command word does to a core that is not busy (R190). -/
theorem present_cases (w : CmdWord) (n : Nat) {s : State} (hb : s.stt.isBusy = false) :
    s.present w n = .next (s.enterError .illegalCommand)
    ∨ s.present w n = .next (s.enterError .sequence)
    ∨ ∃ i, decodeWord w = .ok i ∧ s.prereq i = true
        ∧ ((n = 0 ∧ s.present w n = .next (finish i (s.accept i 0))) ∨ (n ≠ 0 ∧ s.present w n = .next (s.accept i n))) := by
  cases h : decodeWord w with
  | error e => exact .inl (present_illegal h n s)
  | ok i =>
    by_cases hp : s.prereq i = true
    · refine .inr (.inr ⟨i, rfl, hp, ?_⟩)
      by_cases hn : n = 0
      · subst hn
        exact .inl ⟨rfl, by rw [present_now h, exec_of_accepted i hb hp]⟩
      · exact .inr ⟨hn, present_later h hn hp⟩
    · have hp : s.prereq i = false := by simpa using hp
      exact .inr (.inl (by rw [present_missing h n hp, exec_of_missing i hb hp]))

/-! ### The host port -/

/-- What a transaction does to a core that is not busy (R61, R62). -/
theorem serve_cases (op : HostOp) (s : State) :
    (∃ r, s.serve op = .next (s.reply r))
    ∨ (∃ v, op.txn = .regWrite regCMD v ∧ s.serve op = s.present (BitVec.ofNat 8 v) op.window)
    ∨ (∃ v, s.serve op = .next (s.writeInLen v))
    ∨ (∃ a b, op.txn = .memWrite .ibuf a b ∧ s.serve op = .next (s.writeInput a b))
    ∨ (op.txn = .reset ∧ s.serve op = .next s.resetCore)
    ∨ s.serve op = .next s := by
  obtain ⟨t, n⟩ := op
  cases t with
  | regRead r => exact .inl ⟨_, rfl⟩
  | memRead sp a => exact .inl ⟨_, rfl⟩
  | reset => exact .inr (.inr (.inr (.inr (.inl ⟨rfl, rfl⟩))))
  | memWrite sp a b =>
    by_cases h : sp = .ibuf
    · subst h; exact .inr (.inr (.inr (.inl ⟨a, b, rfl, rfl⟩)))
    · exact .inr (.inr (.inr (.inr (.inr (by simp [State.serve, h])))))
  | regWrite r v =>
    by_cases h : r = regCMD
    · subst h; exact .inr (.inl ⟨v, rfl, rfl⟩)
    · by_cases h2 : r = regINLEN
      · subst h2; exact .inr (.inr (.inl ⟨v, rfl⟩))
      · exact .inr (.inr (.inr (.inr (.inr (by simp [State.serve, h, h2])))))

/-- What a transaction does to a core that is busy (R63). -/
theorem serveBusy_cases (op : HostOp) (s : State) :
    (∃ r, s.serveBusy op = s.reply r) ∨ (op.txn = .reset ∧ s.serveBusy op = s.resetCore) ∨ s.serveBusy op = s := by
  obtain ⟨t, n⟩ := op
  cases t with
  | regRead r => exact .inl ⟨_, rfl⟩
  | memRead sp a => exact .inl ⟨_, rfl⟩
  | reset => exact .inr (.inl ⟨rfl, rfl⟩)
  | memWrite sp a b => exact .inr (.inr rfl)
  | regWrite r v => exact .inr (.inr rfl)

/-! ### One step -/

theorem step_of_idle {s : State} (hb : s.stt.isBusy = false) : step s = s.runIdle := by
  unfold step
  cases h : s.stt with
  | busy cmd n => rw [h] at hb; cases hb
  | _ => rfl

theorem step_of_busy {s : State} {cmd : Instr} {n : Nat} (h : s.stt = .busy cmd n) :
    step s = .next (s.runBusy cmd n) := by
  unfold step
  rw [h]

theorem step_txn {s : State} {op : HostOp} {rest : List HostOp} (hb : s.stt.isBusy = false) (h : s.host = op :: rest) :
    step s = ({ s with host := rest } : State).serve op := by
  rw [step_of_idle hb, State.runIdle, h]

theorem step_busy_txn {s : State} {cmd : Instr} {n : Nat} {op : HostOp} {rest : List HostOp} (hs : s.stt = .busy cmd (n + 1))
    (h : s.host = op :: rest) :
    step s = .next (({ s with stt := .busy cmd n, host := rest } : State).serveBusy op) := by
  rw [step_of_busy hs]
  unfold State.runBusy
  simp only [h]

theorem step_busy_end {s : State} {cmd : Instr} {n : Nat} (hs : s.stt = .busy cmd n) (h : n = 0 ∨ s.host = []) :
    step s = .next (finish cmd s) := by
  rw [step_of_busy hs]
  rcases h with h | h
  · subst h; rfl
  · cases n with
    | zero => rfl
    | succ n => simp only [State.runBusy, h]

/-- Everything a step can do. -/
theorem step_cases {s t : State} (h : step s = .next t) :
    (∃ cmd n, s.stt = .busy cmd n ∧ (n = 0 ∨ s.host = []) ∧ t = finish cmd s)
    ∨ (∃ cmd n op rest, s.stt = .busy cmd (n + 1) ∧ s.host = op :: rest
        ∧ t = ({ s with stt := .busy cmd n, host := rest } : State).serveBusy op)
    ∨ (s.stt.isBusy = false ∧ s.host = [] ∧ t = s)
    ∨ (∃ op rest, s.stt.isBusy = false ∧ s.host = op :: rest
        ∧ ({ s with host := rest } : State).serve op = .next t) := by
  cases hb : s.stt.isBusy with
  | true =>
    cases hs : s.stt with
    | busy cmd n =>
      match n, hh : s.host with
      | 0, _ =>
        rw [step_busy_end hs (.inl rfl)] at h
        cases h
        exact .inl ⟨cmd, 0, rfl, .inl rfl, rfl⟩
      | n + 1, [] =>
        rw [step_busy_end hs (.inr hh)] at h
        cases h
        exact .inl ⟨cmd, n + 1, rfl, .inr rfl, rfl⟩
      | n + 1, op :: rest =>
        rw [step_busy_txn hs hh] at h
        cases h
        exact .inr (.inl ⟨cmd, n, op, rest, rfl, rfl, rfl⟩)
    | _ => rw [hs] at hb; cases hb
  | false =>
    cases hh : s.host with
    | nil =>
      rw [step_of_idle hb, State.runIdle, hh] at h
      cases h
      exact .inr (.inr (.inl ⟨rfl, rfl, rfl⟩))
    | cons op rest =>
      rw [step_txn hb hh] at h
      exact .inr (.inr (.inr ⟨op, rest, rfl, rfl, h⟩))

/-! ### The host's transactions keep what is sound -/

theorem Sound.writeInLen {s : State} (h : Sound s) (v : Nat) : Sound (s.writeInLen v) := by
  have hp := h.params
  have hcm : v % 2 ^ s.params.cntW ≤ s.params.cmax := by
    have := Nat.mod_lt v (show 0 < 2 ^ s.params.cntW by positivity)
    unfold Params.cmax
    omega
  have hi := h.invalidateRange 0 3 (by omega)
  exact {
    params := h.params
    inLen := hcm
    stores := ⟨hi.stores.ibuf, hi.stores.freqt, hi.stores.nodet, hi.stores.codet, hi.stores.pbuf, hi.stores.obuf⟩
    tree_needs_freq := by intro hc; cases hc
    code_needs_tree := by intro hc; cases hc
    pay_needs_code := by intro hc; cases hc
    freq_cleared := fun _ => rfl
    tree_cleared := fun _ => rfl
    code_cleared := fun _ => rfl
    pay_cleared := fun _ => rfl
    out_cleared := h.out_cleared
    freq := by intro hc; cases hc
    tree := by intro hc; cases hc
    code := by intro hc; cases hc
    pay := by intro hc; cases hc
    out := fun hv => (h.out hv).congr rfl rfl }

theorem Sound.writeInput {s : State} (h : Sound s) (a : Nat) (b : Byte) : Sound (s.writeInput a b) := by
  unfold State.writeInput
  split
  · next ha =>
    have hi := h.invalidateRange 0 3 (by omega)
    exact {
      params := h.params
      inLen := h.inLen
      stores := ⟨⟨Store.wf_write _ _ _ h.stores.ibuf.1, Store.write_in_range _ _ _ _ ha h.stores.ibuf.2⟩,
        hi.stores.freqt, hi.stores.nodet, hi.stores.codet, hi.stores.pbuf, hi.stores.obuf⟩
      tree_needs_freq := by intro hc; cases hc
      code_needs_tree := by intro hc; cases hc
      pay_needs_code := by intro hc; cases hc
      freq_cleared := fun _ => rfl
      tree_cleared := fun _ => rfl
      code_cleared := fun _ => rfl
      pay_cleared := fun _ => rfl
      out_cleared := h.out_cleared
      freq := by intro hc; cases hc
      tree := by intro hc; cases hc
      code := by intro hc; cases hc
      pay := by intro hc; cases hc
      out := fun hv => (h.out hv).congr rfl rfl }
  · exact h

/-- A core with legal parameters and nothing in it is sound. -/
theorem Sound.resetCore {s : State} (h : s.params.wellFormed = true) : Sound s.resetCore where
  params := h
  inLen := Nat.zero_le _
  stores := by constructor <;> exact ⟨Store.wf_nil, fun e he => by cases he⟩
  tree_needs_freq := by intro hc; cases hc
  code_needs_tree := by intro hc; cases hc
  pay_needs_code := by intro hc; cases hc
  freq_cleared := fun _ => rfl
  tree_cleared := fun _ => rfl
  code_cleared := fun _ => rfl
  pay_cleared := fun _ => rfl
  out_cleared := fun _ => rfl
  freq := by intro hc; cases hc
  tree := by intro hc; cases hc
  code := by intro hc; cases hc
  pay := by intro hc; cases hc
  out := by intro hc; cases hc

end Sys2Proof.Machine
end

