-- ==== Sys2Proof/Laws/Invariant.lean ====
section
/-! SUPPORT. A unit and a command, started with their prerequisite on a sound core, leave a sound core (R45, R192). -/

namespace Sys2Proof.Machine

/-- How a unit ends: its level valid, or an error that its level's contents do not outlive (R192). -/
theorem runUnit_cases (u : UnitOp) (s : State) :
    (∃ t, unitBody u (s.startUnit u) = .ok t ∧ SameBut u.level (s.startUnit u) t
        ∧ runUnit u (unitBody u) s = (t.setFlag u.level, none))
    ∨ ∃ e, unitBody u (s.startUnit u) = .error e ∧ runUnit u (unitBody u) s = (s.startUnit u, some e) := by
  cases h : unitBody u (s.startUnit u) with
  | ok t => exact .inl ⟨t, rfl, unitBody_frame h, runUnit_of_ok h⟩
  | error e => exact .inr ⟨e, rfl, runUnit_of_error h⟩

theorem Sound.runUnit {u : UnitOp} {s : State} (h : Sound s) (hp : s.prereq u.command = true) :
    Sound (runUnit u (Machine.unitBody u) s).1 := by
  rcases runUnit_cases u s with ⟨t, hb, -, he⟩ | ⟨e, -, he⟩
  · rw [he]; exact h.unitBody hp hb
  · rw [he]; exact h.startUnit u

/-- What a unit that ends without error makes ready for the unit that follows it in a composite command. -/
def Ready (u : UnitOp) (s t : State) : Prop :=
  match u with
  | .freq => t.freq.valid = true ∧ t.freq.origin = .enc
  | .deser => t.freq.valid = true ∧ t.freq.origin = .dec
  | .build => t.tree.valid = true ∧ t.freq = s.freq
  | .assign => t.code.valid = true ∧ t.freq = s.freq
  | .pack => t.pay.valid = true
  | .ser => t.out.valid = true
  | .walk => t.out.valid = true

theorem runUnit_ready {u : UnitOp} {s : State} (h : (runUnit u (unitBody u) s).2 = none) :
    Ready u s (runUnit u (unitBody u) s).1 := by
  rcases runUnit_cases u s with ⟨t, hb, hf, he⟩ | ⟨e, -, he⟩
  · rw [he]
    cases u
    case freq =>
      refine ⟨rfl, ?_⟩
      simp only [unitBody, freqBody] at hb
      split at hb
      · cases hb
      split at hb <;> cases hb
      rfl
    case deser =>
      refine ⟨rfl, ?_⟩
      simp only [unitBody, deserBody] at hb
      split at hb
      · cases hb
      split at hb <;> cases hb
      rfl
    case build => exact ⟨rfl, by have := congrArg State.freq hf; exact this⟩
    case assign => exact ⟨rfl, by have := congrArg State.freq hf; exact this⟩
    case pack => rfl
    case ser => rfl
    case walk => rfl
  · rw [he] at h; cases h

/-- The units of a command, one after the other. -/
theorem Sound.andThen {r : State × Option ErrCode} {f : State → State × Option ErrCode} (h : Sound r.1)
    (hf : r.2 = none → Sound (f r.1).1) : Sound (andThen r f).1 := by
  obtain ⟨s, _ | e⟩ := r
  · exact hf rfl
  · exact h

/-- A command started with its prerequisite (R191) leaves sound levels. -/
theorem Sound.runPath {i : Instr} {s : State} (h : Sound s) (hp : s.prereq i = true) :
    Sound (runPath (path i) s).1 := by
  have single : ∀ u : UnitOp, s.prereq u.command = true → Sound (Machine.runPath [u] s).1 := fun u hu => by
    rw [runPath_single]; exact h.runUnit hu
  cases i
  case encode =>
    refine Sound.andThen (h.runUnit rfl) fun h1 => ?_
    have r1 := runUnit_ready h1
    have s1 := h.runUnit (u := .freq) rfl
    generalize Machine.runUnit .freq (Machine.unitBody .freq) s = q1 at h1 r1 s1
    refine Sound.andThen (s1.runUnit r1.1) fun h2 => ?_
    have r2 := runUnit_ready h2
    have s2 := s1.runUnit (u := .build) r1.1
    generalize Machine.runUnit .build (Machine.unitBody .build) q1.1 = q2 at h2 r2 s2
    refine Sound.andThen (s2.runUnit r2.1) fun h3 => ?_
    have r3 := runUnit_ready h3
    have s3 := s2.runUnit (u := .assign) r2.1
    generalize Machine.runUnit .assign (Machine.unitBody .assign) q2.1 = q3 at h3 r3 s3
    have p3 : q3.1.prereq .pack = true := by
      simp only [State.prereq, r3.1, r3.2, r2.2, r1.2]; rfl
    refine Sound.andThen (s3.runUnit p3) fun h4 => ?_
    have r4 := runUnit_ready h4
    have s4 := s3.runUnit (u := .pack) p3
    generalize Machine.runUnit .pack (Machine.unitBody .pack) q3.1 = q4 at h4 r4 s4
    exact Sound.andThen (s4.runUnit r4) fun h5 => s4.runUnit (u := .ser) r4
  case decode =>
    refine Sound.andThen (h.runUnit rfl) fun h1 => ?_
    have r1 := runUnit_ready h1
    have s1 := h.runUnit (u := .deser) rfl
    generalize Machine.runUnit .deser (Machine.unitBody .deser) s = q1 at h1 r1 s1
    refine Sound.andThen (s1.runUnit r1.1) fun h2 => ?_
    have r2 := runUnit_ready h2
    have s2 := s1.runUnit (u := .build) r1.1
    generalize Machine.runUnit .build (Machine.unitBody .build) q1.1 = q2 at h2 r2 s2
    have p2 : q2.1.prereq .walk = true := by
      simp only [State.prereq, r2.1, r2.2, r1.2]; rfl
    exact Sound.andThen (s2.runUnit p2) fun h3 => s2.runUnit (u := .walk) p2
  case clear => exact h
  case freq => exact single .freq hp
  case build => exact single .build hp
  case assign => exact single .assign hp
  case pack => exact single .pack hp
  case ser => exact single .ser hp
  case deser => exact single .deser hp
  case walk => exact single .walk hp

/-- The errors of the units (R200). -/
theorem runPath_error (us : List UnitOp) (s : State) :
    (runPath us s).2 ∈ [none, some ErrCode.capacity, some .emptyInput, some .corruptStream] := by
  induction us generalizing s with
  | nil => simp [runPath]
  | cons u us ih =>
    rw [runPath_cons]
    rcases runUnit_cases u s with ⟨t, -, -, he⟩ | ⟨e, hb, he⟩
    · rw [he]; exact ih _
    · rw [he]
      rcases unitBody_error hb with h | h | h
      · rw [h]; simp [Machine.andThen]
      · rw [h.1]; simp [Machine.andThen]
      · rw [h.1]; simp [Machine.andThen]

/-- The units write neither `STATE` nor `ERR` nor the host port (R192). -/
theorem runUnit_control (u : UnitOp) (s : State) :
    (runUnit u (unitBody u) s).1.stt = s.stt ∧ (runUnit u (unitBody u) s).1.err = s.err := by
  rcases runUnit_cases u s with ⟨t, -, hf, he⟩ | ⟨e, -, he⟩
  · rw [he]
    have h : t.stt = s.stt ∧ t.err = s.err := by
      cases u <;> (simp only [SameBut, UnitOp.level] at hf; rw [hf]; exact ⟨rfl, rfl⟩)
    simpa using h
  · rw [he]; exact ⟨rfl, rfl⟩

theorem runPath_control (us : List UnitOp) (s : State) :
    (runPath us s).1.stt = s.stt ∧ (runPath us s).1.err = s.err := by
  induction us generalizing s with
  | nil => exact ⟨rfl, rfl⟩
  | cons u us ih =>
    rw [runPath_cons]
    have h := runUnit_control u s
    generalize runUnit u (unitBody u) s = r at h
    obtain ⟨t, _ | e⟩ := r
    · have h2 := ih t
      exact ⟨h2.1.trans h.1, h2.2.trans h.2⟩
    · exact h

/-- A command comes to its end with the invariant (R45). -/
theorem Inv.of_finish {i : Instr} {s : State} (h : Sound s) (hp : s.prereq i = true) (he : s.err = none) :
    Inv (finish i s) := by
  by_cases hc : i = .clear
  · subst hc
    refine Sound.inv ?_ ?_ ?_ ?_
    · exact (h.invalidateRange 0 4 (by omega)).congr rfl rfl rfl rfl rfl rfl rfl rfl rfl
    · exact ⟨fun hs => (by cases hs), fun hs => absurd rfl hs⟩
    · intro hs; cases hs
    · intro cmd n hs; cases hs
  · rw [finish_eq_runPath hc]
    have hs := h.runPath hp
    have hr := runPath_error (path i) s
    have hctl := (runPath_control (path i) s).2
    generalize Machine.runPath (path i) s = r at hs hr hctl
    obtain ⟨t, _ | e⟩ := r
    · refine Sound.inv (hs.congr rfl rfl rfl rfl rfl rfl rfl rfl rfl) ?_ ?_ ?_
      · exact ⟨fun hs => (by cases hs), fun hn => absurd (hctl.trans he) hn⟩
      · intro hn
        have : t.err = some .ioUnavailable := hn
        rw [hctl.trans he] at this; cases this
      · intro cmd n hs; cases hs
    · refine Sound.inv (hs.congr rfl rfl rfl rfl rfl rfl rfl rfl rfl) ?_ ?_ ?_
      · exact ⟨fun _ hn => (by cases hn), fun _ => rfl⟩
      · intro hn
        have : some e = some ErrCode.ioUnavailable := hn
        rw [this] at hr
        simp at hr
      · intro cmd n hs; cases hs

/-- The invariant does not look at the host port. -/
theorem Inv.port {s : State} (h : Inv s) (host : List HostOp) (replies : List Reply) (tick : Nat) :
    Inv { s with host := host, replies := replies, tick := tick } :=
  Sound.inv (h.sound.congr rfl rfl rfl rfl rfl rfl rfl rfl rfl) h.error_iff h.err_raised h.running

/-- Sound levels in a core that is not busy. -/
theorem Sound.inv_of_idle {s : State} (h : Sound s) (hb : s.stt.isBusy = false) (he : s.stt = .error ↔ s.err ≠ none)
    (hr : s.err ≠ some .ioUnavailable) : Inv s :=
  h.inv he hr fun cmd n hc => by rw [hc] at hb; cases hb

/-- While a command runs there is no error (R190, R200). -/
theorem Inv.err_of_busy {s : State} (h : Inv s) (hb : s.stt.isBusy = true) : s.err = none := by
  by_contra hc
  rw [h.error_iff.2 hc] at hb
  cases hb

end Sys2Proof.Machine
end

