-- ==== Sys2Proof/Laws/Outcomes.lean ====
section
/-! SUPPORT. A unit command as a function of the state it is given in: what it answers when its body succeeds and when
it raises (R190, R192, R208), with the bodies' conditions. -/

namespace Sys2Proof.Machine

theorem accept_eq_recast (i : Instr) (n : Nat) (s : State) :
    s.accept i n = s.recast (.busy i n) none s.host s.replies s.tick := rfl

theorem finish_command (u : UnitOp) (s : State) : finish u.command s = endCommand (runUnit u (unitBody u) s) := by
  cases u <;> rfl

/-- A unit command whose body succeeds. -/
theorem exec_unit_ok {u : UnitOp} {s t : State} (hb : s.stt.isBusy = false) (hp : s.prereq u.command = true)
    (h : unitBody u (s.startUnit u) = .ok t) :
    exec u.command s = .next { t.setFlag u.level with stt := .done, err := none } := by
  rw [exec_of_accepted _ hb hp, finish_command, accept_eq_recast]
  have hr : unitBody u ((s.recast (.busy u.command 0) none s.host s.replies s.tick).startUnit u)
      = .ok (t.recast (.busy u.command 0) none s.host s.replies s.tick) := by
    rw [startUnit_recast, unitBody_recast, h]; rfl
  rw [runUnit_of_ok hr, setFlag_recast]
  have hf := unitBody_frame h
  have hport : t.host = s.host ∧ t.replies = s.replies ∧ t.tick = s.tick := by
    cases u <;> (simp only [SameBut, UnitOp.level] at hf; rw [hf]; exact ⟨rfl, rfl, rfl⟩)
  have hport' : (t.setFlag u.level).host = s.host ∧ (t.setFlag u.level).replies = s.replies
      ∧ (t.setFlag u.level).tick = s.tick := by simpa using hport
  simp only [endCommand, State.finishDone, State.recast]
  rw [← hport'.1, ← hport'.2.1, ← hport'.2.2]

/-- A unit command whose body raises. -/
theorem exec_unit_error {u : UnitOp} {s : State} {e : ErrCode} (hb : s.stt.isBusy = false)
    (hp : s.prereq u.command = true) (h : unitBody u (s.startUnit u) = .error e) :
    exec u.command s = .next { s.startUnit u with stt := .error, err := some e } := by
  rw [exec_of_accepted _ hb hp, finish_command, accept_eq_recast]
  have hr : unitBody u ((s.recast (.busy u.command 0) none s.host s.replies s.tick).startUnit u) = .error e := by
    rw [startUnit_recast, unitBody_recast, h]; rfl
  rw [runUnit_of_error hr, startUnit_recast]
  rfl

/-! ### The two outcomes of a path -/

theorem runPath_cons_ok {u : UnitOp} {us : List UnitOp} {s t : State} (h : unitBody u (s.startUnit u) = .ok t) :
    runPath (u :: us) s = runPath us (t.setFlag u.level) := by
  rw [runPath_cons, runUnit_of_ok h]; rfl

theorem runPath_cons_error {u : UnitOp} {us : List UnitOp} {s : State} {e : ErrCode}
    (h : unitBody u (s.startUnit u) = .error e) : runPath (u :: us) s = (s.startUnit u, some e) := by
  rw [runPath_cons, runUnit_of_error h]; rfl

/-- A path leaves the host's side of the state (R63, R69). -/
theorem runPath_port (us : List UnitOp) (s : State) : (runPath us s).1.host = s.host
    ∧ (runPath us s).1.replies = s.replies ∧ (runPath us s).1.tick = s.tick := by
  induction us generalizing s with
  | nil => exact ⟨rfl, rfl, rfl⟩
  | cons u us ih =>
    rcases runUnit_cases u s with ⟨t, hb, hf, -⟩ | ⟨e, hb, -⟩
    · rw [runPath_cons_ok hb]
      have h1 : t.host = s.host ∧ t.replies = s.replies ∧ t.tick = s.tick := by
        cases u <;> (simp only [SameBut, UnitOp.level] at hf; rw [hf]; exact ⟨rfl, rfl, rfl⟩)
      have h2 := ih (t.setFlag u.level)
      simp only [State.setFlag_host, State.setFlag_replies, State.setFlag_tick] at h2
      exact ⟨h2.1.trans h1.1, h2.2.1.trans h1.2.1, h2.2.2.trans h1.2.2⟩
    · rw [runPath_cons_error hb]; exact ⟨rfl, rfl, rfl⟩

/-- A composite command, as its path run from the state it is given in. -/
theorem exec_path {i : Instr} {s : State} (hb : s.stt.isBusy = false) (hp : s.prereq i = true) (hc : i ≠ .clear) :
    exec i s = .next (match runPath (path i) s with
      | (t, none) => { t with stt := .done, err := none }
      | (t, some e) => { t with stt := .error, err := some e }) := by
  rw [exec_of_accepted _ hb hp, finish_eq_runPath hc, accept_eq_recast, runPath_recast]
  have hq := runPath_port (path i) s
  generalize runPath (path i) s = r at hq
  obtain ⟨t, _ | e⟩ := r
  · simp only [endCommand, State.finishDone, State.recast]
    rw [← hq.1, ← hq.2.1, ← hq.2.2]
  · simp only [endCommand, State.enterError, State.recast]
    rw [← hq.1, ← hq.2.1, ← hq.2.2]

/-! ### When the bodies succeed -/

theorem freqBody_ok {s : State} (h1 : 1 ≤ s.inLen) (h2 : s.inLen ≤ s.params.inCap) :
    unitBody .freq s = .ok { s with
      freq := { s.freq with
        freqt := countTable s.inputBytes
        total := s.inLen
        nsym := distinctSymbols (occurrences s.inputBytes)
        payOff := 0
        origin := .enc } } := by
  simp only [unitBody, freqBody]
  rw [if_neg (by omega), if_neg (by omega)]

theorem packBody_ok {s : State} (h : ceil8 s.streamLength ≤ s.params.payCap) :
    unitBody .pack s = .ok { s with
      pay := { s.pay with
        nbits := s.streamLength
        payLen := (packBits s.codeStream).length
        pbuf := Store.ofList 0 (packBits s.codeStream) } } := by
  simp only [unitBody, packBody]
  rw [if_neg (by omega)]

theorem serBody_ok {s : State} (h : (header s.freq.nsym s.count).length + s.pay.payLen ≤ s.params.outCap) :
    unitBody .ser s = .ok { s with
      out := { s.out with
        obuf := Store.ofList 0 (header s.freq.nsym s.count ++ s.payloadBytes)
        outLen := (header s.freq.nsym s.count).length + s.pay.payLen } } := by
  simp only [unitBody, serBody]
  rw [if_neg (by omega)]

theorem deserBody_ok {s : State} {entries : List (Nat × Nat)} {payload : List Byte} (h : s.inLen ≤ s.params.inCap)
    (hv : ValidEntries s.params.cmax entries) (hi : s.inputBytes = headerText entries ++ payload) :
    unitBody .deser s = .ok { s with
      freq := { s.freq with
        freqt := enterAll entries zeroCounts
        nsym := entries.length
        total := (entries.map Prod.snd).sum
        payOff := (headerText entries).length
        origin := .dec } } := by
  have hl := congrArg List.length hi
  rw [State.inputBytes_length, List.length_append] at hl
  simp only [unitBody, deserBody]
  rw [if_neg (by omega), hi, parseHeader_text payload hv]
  simp only [hl, Nat.add_sub_cancel]

theorem walkBody_ok {s : State} {bytes : List Byte} (h : s.freq.total ≤ s.params.outCap) (hd : s.decoded = some bytes) :
    unitBody .walk s = .ok { s with out := { s.out with obuf := Store.ofList 0 bytes, outLen := s.freq.total } } := by
  simp only [unitBody, walkBody]
  rw [if_neg (by omega), hd]

/-- A header that `DESER` does not accept is none (R164, R166). -/
theorem parseHeader_eq_none {cmax : Nat} {input : List Byte}
    (h : ¬ ∃ entries payload, ValidEntries cmax entries ∧ input = headerText entries ++ payload) :
    parseHeader cmax input = none := by
  cases hp : parseHeader cmax input with
  | none => rfl
  | some p =>
    obtain ⟨entries, hv, hi, -⟩ := parseHeader_some hp
    exact absurd ⟨entries, p.rest, hv, hi⟩ h

/-! ### Runs -/

theorem run_next {M : Host.Core} {s t : M.State} (k : Nat) (h : M.step s = .next t) : M.run (k + 1) s = M.run k t := by
  simp [Host.Core.run, h]

/-- The transactions that land while a command runs (R63): the reads add replies, and nothing else happens. -/
theorem busy_run (cmd : Instr) (rest : List HostOp) (k : Nat) (ops : List HostOp) : ∀ s : State,
    s.stt = .busy cmd ops.length → s.host = ops ++ rest → (∀ op ∈ ops, op.txn ≠ .reset) →
    ∃ new : List Reply, new.length = ops.countP (fun op => op.txn.isRead)
      ∧ Sys2Proof.core.run (ops.length + k) s = Sys2Proof.core.run k { s with
          stt := .busy cmd 0, host := rest, replies := new ++ s.replies, tick := s.tick + new.length } := by
  induction ops with
  | nil =>
    intro s h1 h2 _
    refine ⟨[], rfl, ?_⟩
    simp only [List.length_nil, List.nil_append, Nat.zero_add] at *
    rw [← h1, ← h2]
    rfl
  | cons op ops ih =>
    intro s h1 h2 h3
    have h3' : ∀ op ∈ ops, op.txn ≠ .reset := fun o ho => h3 o (by simp [ho])
    have hs := step_busy_txn (n := ops.length) h1 h2
    rw [List.length_cons, Nat.add_right_comm, run_next (M := Sys2Proof.core) _ hs]
    set s0 : State := { s with stt := .busy cmd ops.length, host := ops ++ rest } with hs0
    obtain ⟨t, w⟩ := op
    have write (ht : t.isRead = false) := ih s0 rfl rfl h3'
    have read (r : Reply) := ih (s0.reply r) rfl rfl h3'
    have added (r : Reply) (new : List Reply) : ({ s0.reply r with
          stt := .busy cmd 0, host := rest, replies := new ++ (s0.reply r).replies
          tick := (s0.reply r).tick + new.length } : State)
        = { s with
          stt := .busy cmd 0, host := rest, replies := (new ++ [r]) ++ s.replies
          tick := s.tick + (new ++ [r]).length } := by
      simp [State.reply, hs0, Nat.add_assoc, Nat.add_comm 1]
    cases t with
    | regRead n =>
      obtain ⟨new, hn, he⟩ := read _
      exact ⟨new ++ [_], by simp [hn, Txn.isRead], by rw [← added]; exact he⟩
    | memRead sp a =>
      obtain ⟨new, hn, he⟩ := read _
      exact ⟨new ++ [_], by simp [hn, Txn.isRead], by rw [← added]; exact he⟩
    | regWrite n v =>
      obtain ⟨new, hn, he⟩ := write rfl
      exact ⟨new, by simp [hn, Txn.isRead], he⟩
    | memWrite sp a b =>
      obtain ⟨new, hn, he⟩ := write rfl
      exact ⟨new, by simp [hn, Txn.isRead], he⟩
    | reset => exact absurd rfl (h3 ⟨.reset, w⟩ List.mem_cons_self)

end Sys2Proof.Machine
end

