-- ==== Sys2Proof/Laws/Composite.lean ====
section
/-! SUPPORT. The encode path taken apart, and the payload bits that the decode path finds behind a header (R193, R194,
R182). -/

namespace Sys2Proof.Machine

theorem runPath_inv {u : UnitOp} {us : List UnitOp} {s t : State} (h : runPath (u :: us) s = (t, none)) :
    ∃ r, unitBody u (s.startUnit u) = .ok r ∧ runPath us (r.setFlag u.level) = (t, none) := by
  rcases runUnit_cases u s with ⟨r, hb, -, -⟩ | ⟨e, hb, -⟩
  · exact ⟨r, hb, by rw [runPath_cons_ok hb] at h; exact h⟩
  · rw [runPath_cons_error hb] at h; cases h

/-- A composite command that ends in `DONE` has run all its units. -/
theorem exec_path_done {i : Instr} {s t : State} (hb : s.stt.isBusy = false) (hp : s.prereq i = true) (hc : i ≠ .clear)
    (h : exec i s = .next t) (hd : t.stt = .done) :
    ∃ r, runPath (path i) s = (r, none) ∧ t = { r with stt := .done, err := none } := by
  rw [exec_path hb hp hc] at h
  generalize runPath (path i) s = r at h
  obtain ⟨t', _ | e⟩ := r
  · cases h; exact ⟨t', rfl, rfl⟩
  · cases h; cases hd

/-- The levels 0 to 3 of a core, as the encode path has made them from its input. -/
structure Encoded (u : State) : Prop where
  freq : FreqFacts u
  tree : TreeFacts u
  code : CodeFacts u
  origin : u.freq.origin = .enc
  nodet : u.tree.nodet = Store.ofList 0 (buildArena u.count).1
  codet : u.code.codet = codeTable (treeCodes u.node u.tree.root)
  nbits : u.pay.nbits = u.codeStream.length
  payload : u.payloadBytes = packBits u.codeStream

/-- The first four units of `ENCODE` (R193). -/
theorem encode_levels {s t : State} (hmax : s.params.inCap ≤ s.params.cmax)
    (h : runPath [.freq, .build, .assign, .pack] s = (t, none)) :
    Encoded t ∧ t.params = s.params ∧ t.inLen = s.inLen ∧ t.inputBytes = s.inputBytes := by
  obtain ⟨r1, b1, h⟩ := runPath_inv h
  obtain ⟨r2, b2, h⟩ := runPath_inv h
  obtain ⟨r3, b3, h⟩ := runPath_inv h
  obtain ⟨r4, b4, h⟩ := runPath_inv h
  cases h
  simp only [unitBody, freqBody] at b1
  split at b1
  · cases b1
  split at b1
  · cases b1
  next hcap hne =>
  cases b1
  set s1 := State.setFlag UnitOp.freq.level { s.startUnit .freq with freq := _ } with hs1
  have f1 : FreqFacts s1 :=
    FreqFacts.of_counted (by show 1 ≤ s.inLen; exact Nat.one_le_iff_ne_zero.2 hne)
      (by show s.inLen ≤ s.params.inCap; exact Nat.le_of_not_lt hcap)
      (by show s.inLen ≤ s.params.cmax; exact (Nat.le_of_not_lt hcap).trans hmax) rfl rfl rfl rfl rfl
  cases b2
  set s2 := State.setFlag UnitOp.build.level { s1.startUnit .build with tree := _ } with hs2
  have f2 : FreqFacts s2 := f1.congr rfl rfl rfl rfl rfl
  have t2 : TreeFacts s2 := (TreeFacts.of_built f2 rfl rfl rfl).1
  cases b3
  set s3 := State.setFlag UnitOp.assign.level { s2.startUnit .assign with code := _ } with hs3
  have f3 : FreqFacts s3 := f2.congr rfl rfl rfl rfl rfl
  have t3 : TreeFacts s3 := t2.congr rfl rfl rfl rfl
  have c3 : CodeFacts s3 := CodeFacts.of_assigned f3 t3 rfl
  simp only [unitBody, packBody] at b4
  split at b4
  · cases b4
  cases b4
  set s4 := State.setFlag UnitOp.pack.level { s3.startUnit .pack with pay := _ } with hs4
  have f4 : FreqFacts s4 := f3.congr rfl rfl rfl rfl rfl
  refine ⟨⟨f4, t3.congr rfl rfl rfl rfl, c3.congr rfl rfl rfl, rfl, rfl, rfl, ?_, ?_⟩, rfl, rfl, rfl⟩
  · exact (codeStream_length (f4.counted rfl).1).symm
  · exact payloadBytes_of_stored (s := s4) rfl rfl

/-- The payload bits behind a header (R182): the bitstream, then what completes its last byte. -/
theorem payloadBits_of_packed {s : State} {hdr : List Byte} {bits : List Bool} (hi : s.inputBytes = hdr ++ packBits bits)
    (hp : s.freq.payOff = hdr.length) : ∃ pad, s.payloadBits = bits ++ pad := by
  obtain ⟨hlen, hbit⟩ := packBits_spec bits
  have hl := congrArg List.length hi
  rw [State.inputBytes_length, List.length_append] at hl
  have havail : s.availBits = 8 * (packBits bits).length := by rw [State.availBits, hl, hp, Nat.add_sub_cancel_left]
  have hbits : bits.length ≤ s.availBits := by rw [havail, hlen, ceil8]; omega
  have hk : ∀ k < s.availBits, s.payloadBit k = bits.getD k false := by
    intro k hk
    rw [havail] at hk
    rw [← hbit k hk, State.payloadBit, streamBit]
    congr 1
    have hb : hdr.length + k / 8 < s.inputBytes.length := by rw [State.inputBytes_length]; omega
    have h1 : s.inputBytes[hdr.length + k / 8] = s.inByte (hdr.length + k / 8) := by simp [State.inputBytes]
    rw [hp, ← h1, List.getElem_of_eq hi, List.getElem_append_right (by omega), List.getD_eq_getElem _ _ (by omega)]
    simp only [Nat.add_sub_cancel_left]
  refine ⟨s.payloadBits.drop bits.length, ?_⟩
  have ht : s.payloadBits.take bits.length = bits := by
    apply List.ext_getElem
    · rw [List.length_take, State.payloadBits_length, Nat.min_eq_left hbits]
    · intro i h1 h2
      rw [List.getElem_take]
      simp only [State.payloadBits, List.getElem_map, List.getElem_range]
      rw [hk i (by omega), List.getD_eq_getElem _ _ h2]
  conv => lhs; rw [← List.take_append_drop bits.length s.payloadBits, ht]

/-- A table of one symbol: every byte of the input is that symbol (R125). -/
theorem single_symbol {s : State} (hF : FreqFacts s) (hT : TreeFacts s) (ho : s.freq.origin = .enc)
    (h1 : s.freq.nsym = 1) :
    (s.node s.tree.root).kind = .leaf ∧ s.inputBytes = List.replicate s.freq.total (s.node s.tree.root).sym := by
  have hroot : s.tree.root = 0 := by rw [hT.root, h1]
  have hs := hT.shape hF
  have hk := hs.leaf 0 (by omega)
  rw [hroot]
  refine ⟨hk, List.eq_replicate_iff.2 ⟨by rw [State.inputBytes_length, (hF.counted ho).2.1], fun b hb => ?_⟩⟩
  have hc : 0 < s.count b.toNat := by rw [(hF.counted ho).1 _ b.isLt]; exact occurrences_pos.2 ⟨b, hb, rfl⟩
  obtain ⟨i, hi, he⟩ := mem_leaves (count := s.count) b.isLt (by omega)
  rw [hF.leaves_length, h1] at hi
  have hi0 : i = 0 := by omega
  subst hi0
  rw [hT.leaf_node hF (by omega), he]
  show b = BitVec.ofNat 8 b.toNat
  rw [BitVec.ofNat_toNat, BitVec.setWidth_eq]

end Sys2Proof.Machine
end

