-- ==== Sys2Proof/Laws/Heap.lean ====
section
/-! SUPPORT. The heap of R127 and R128: its operations keep the heap property and the members. -/

namespace Sys2Proof.Machine

/-- The arena indices of a heap's members are distinct (R126: "never already present"). -/
def Heap.Distinct (h : List Key) : Prop := (h.map Prod.snd).Nodup

theorem Heap.at_of_lt {h : Heap} {k : Nat} (hk : k < h.length) : h.at k = h[k] := by simp [Heap.at, hk]

theorem Heap.swap_length (h : Heap) (i j : Nat) : (h.swap i j).length = h.length := by simp [Heap.swap]

theorem Heap.swap_at {h : Heap} {i j : Nat} (hi : i < h.length) (hj : j < h.length) (k : Nat) :
    (h.swap i j).at k = if k = j then h.at i else if k = i then h.at j else h.at k := by
  unfold Heap.swap Heap.at
  simp only [List.getD_eq_getElem?_getD, List.getElem?_set, List.length_set]
  by_cases h1 : j = k <;> by_cases h2 : i = k <;> simp_all [eq_comm]

theorem Heap.swap_perm {h : Heap} {i j : Nat} (hi : i < h.length) (hj : j < h.length) : (h.swap i j).Perm h := by
  unfold Heap.swap
  rw [Heap.at_of_lt hi, Heap.at_of_lt hj]
  exact List.set_set_perm hi hj

theorem Heap.Distinct.perm {h g : List Key} (d : Heap.Distinct h) (p : g.Perm h) : Heap.Distinct g :=
  ((p.map Prod.snd).nodup_iff).2 d

theorem Heap.Distinct.total {h : Heap} (d : Heap.Distinct h) {i j : Nat} (hi : i < h.length) (hj : j < h.length)
    (hne : i ≠ j) : Key.before (h.at i) (h.at j) = true ∨ Key.before (h.at j) (h.at i) = true := by
  apply Key.before_total
  rw [Heap.at_of_lt hi, Heap.at_of_lt hj]
  intro hc
  refine hne ((List.Nodup.getElem_inj_iff d (hi := by simpa using hi) (hj := by simpa using hj)).1 ?_)
  simpa using hc

theorem Heap.parent_lt {k : Nat} (h : k ≠ 0) : Heap.parent k < k := by unfold Heap.parent; omega

theorem Heap.up_perm (fuel : Nat) : ∀ (k : Nat) (h : Heap), k < h.length → (Heap.up fuel k h).Perm h := by
  induction fuel with
  | zero => intro k h _; exact .refl _
  | succ fuel ih =>
    intro k h hk
    unfold Heap.up
    split
    · next hc =>
      have hp := Heap.parent_lt hc.1
      exact (ih _ _ (by rw [Heap.swap_length]; omega)).trans (Heap.swap_perm hk (by omega))
    · exact .refl _

/-- The heap property but for the pair of `k` and its parent, as `insert` goes up (R127). -/
structure Heap.Rising (h : Heap) (k : Nat) : Prop where
  below : ∀ j, 0 < j → j < h.length → j ≠ k → Key.before (h.at (Heap.parent j)) (h.at j) = true
  across : k ≠ 0 → ∀ j, 0 < j → j < h.length → Heap.parent j = k →
    Key.before (h.at (Heap.parent k)) (h.at j) = true

theorem Heap.Rising.swap {h : Heap} {k : Nat} (r : h.Rising k) (hk : k < h.length) (h0 : k ≠ 0)
    (hb : Key.before (h.at k) (h.at (Heap.parent k)) = true) :
    (h.swap k (Heap.parent k)).Rising (Heap.parent k) := by
  have hp := Heap.parent_lt h0
  have hat := fun j => Heap.swap_at (h := h) hk (j := Heap.parent k) (by omega) j
  have sib : ∀ j, 0 < j → j < h.length → Heap.parent j = Heap.parent k → j ≠ k →
      Key.before (h.at (Heap.parent k)) (h.at j) = true := fun j h1 h2 h3 h4 => h3 ▸ r.below j h1 h2 h4
  constructor
  · intro j h1 h2 h3
    rw [Heap.swap_length] at h2
    have hjp := Heap.parent_lt (k := j) (by omega)
    rw [hat, hat, if_neg h3]
    by_cases hj : j = k
    · subst hj
      rw [if_pos rfl, if_pos rfl]; exact hb
    · rw [if_neg hj]
      by_cases hq : Heap.parent j = Heap.parent k
      · rw [if_pos hq]; exact Key.before_trans hb (sib j h1 h2 hq hj)
      · rw [if_neg hq]
        by_cases hk' : Heap.parent j = k
        · rw [if_pos hk']; exact r.across h0 j h1 h2 hk'
        · rw [if_neg hk']; exact r.below j h1 h2 hj
  · intro hp0 j h1 h2 h3
    rw [Heap.swap_length] at h2
    have hg := Heap.parent_lt hp0
    have hjp := Heap.parent_lt (k := j) (by omega)
    have hgp := r.below (Heap.parent k) (by omega) (by omega) (by omega)
    rw [hat, hat, if_neg (by omega), if_neg (by omega), if_neg (by omega)]
    by_cases hj : j = k
    · rw [if_pos hj]; exact hgp
    · rw [if_neg hj]; exact Key.before_trans hgp (sib j h1 h2 h3 hj)

/-- Going up restores the heap property (R127). -/
theorem Heap.Rising.up (fuel : Nat) : ∀ {k : Nat} {h : Heap}, h.Rising k → Heap.Distinct h → k < h.length → k ≤ fuel →
    (Heap.up fuel k h).Ordered := by
  induction fuel with
  | zero =>
    intro k h r d hk hf j h1 h2
    exact r.below j h1 h2 (by omega)
  | succ fuel ih =>
    intro k h r d hk hf
    unfold Heap.up
    split
    · next hc =>
      have hp := Heap.parent_lt hc.1
      exact ih (r.swap hk hc.1 hc.2) (d.perm (Heap.swap_perm hk (by omega))) (by rw [Heap.swap_length]; omega) (by omega)
    · next hc =>
      intro j h1 h2
      by_cases hj : j = k
      · subst hj
        have hp := Heap.parent_lt (k := j) (by omega)
        refine (d.total h2 (by omega) (by omega)).resolve_left fun hb => hc ⟨by omega, hb⟩
      · exact r.below j h1 h2 hj

theorem Heap.push_perm (h : Heap) (x : Key) : (h.push x).Perm (x :: h) :=
  (Heap.up_perm _ _ _ (by simp)).trans List.perm_append_comm

/-- The heap property but for the pairs of `k` and its children, as `extract_min` goes down (R128). -/
structure Heap.Sinking (h : Heap) (k : Nat) : Prop where
  rest : ∀ j, 0 < j → j < h.length → Heap.parent j ≠ k → Key.before (h.at (Heap.parent j)) (h.at j) = true
  across : k ≠ 0 → ∀ j, 0 < j → j < h.length → Heap.parent j = k →
    Key.before (h.at (Heap.parent k)) (h.at j) = true

/-- What `m` of R128 is. -/
theorem Heap.least_cases {h : Heap} (d : Heap.Distinct h) {k : Nat} (hk : k < h.length) :
    (h.least k = k ∧ ∀ j, 0 < j → j < h.length → Heap.parent j = k → Key.before (h.at k) (h.at j) = true)
    ∨ (0 < h.least k ∧ h.least k < h.length ∧ Heap.parent (h.least k) = k
      ∧ Key.before (h.at (h.least k)) (h.at k) = true
      ∧ ∀ j, 0 < j → j < h.length → Heap.parent j = k → j ≠ h.least k →
        Key.before (h.at (h.least k)) (h.at j) = true) := by
  have child : ∀ j, 0 < j → Heap.parent j = k → j = 2 * k + 1 ∨ j = 2 * k + 2 := by
    intro j h1 h2; unfold Heap.parent at h2; omega
  have par1 : Heap.parent (2 * k + 1) = k := by unfold Heap.parent; omega
  have par2 : Heap.parent (2 * k + 2) = k := by unfold Heap.parent; omega
  have tot := fun {i j : Nat} (hi : i < h.length) (hj : j < h.length) (hne : i ≠ j) => d.total hi hj hne
  simp only [Heap.least]
  by_cases c1 : 2 * k + 1 < h.length ∧ Key.before (h.at (2 * k + 1)) (h.at k) = true
  · rw [if_pos c1]
    by_cases c2 : 2 * k + 2 < h.length ∧ Key.before (h.at (2 * k + 2)) (h.at (2 * k + 1)) = true
    · rw [if_pos c2]
      refine .inr ⟨by omega, c2.1, par2, Key.before_trans c2.2 c1.2, fun j h1 h2 h3 h4 => ?_⟩
      rcases child j h1 h3 with rfl | rfl
      · exact c2.2
      · exact absurd rfl h4
    · rw [if_neg c2]
      refine .inr ⟨by omega, c1.1, par1, c1.2, fun j h1 h2 h3 h4 => ?_⟩
      rcases child j h1 h3 with rfl | rfl
      · exact absurd rfl h4
      · exact (tot c1.1 h2 (by omega)).resolve_right fun hb => c2 ⟨h2, hb⟩
  · rw [if_neg c1]
    by_cases c2 : 2 * k + 2 < h.length ∧ Key.before (h.at (2 * k + 2)) (h.at k) = true
    · rw [if_pos c2]
      refine .inr ⟨by omega, c2.1, par2, c2.2, fun j h1 h2 h3 h4 => ?_⟩
      rcases child j h1 h3 with rfl | rfl
      · exact Key.before_trans c2.2 ((tot hk h2 (by omega)).resolve_right fun hb => c1 ⟨h2, hb⟩)
      · exact absurd rfl h4
    · rw [if_neg c2]
      refine .inl ⟨rfl, fun j h1 h2 h3 => ?_⟩
      rcases child j h1 h3 with rfl | rfl
      · exact (tot hk h2 (by omega)).resolve_right fun hb => c1 ⟨h2, hb⟩
      · exact (tot hk h2 (by omega)).resolve_right fun hb => c2 ⟨h2, hb⟩

theorem Heap.down_spec (fuel : Nat) : ∀ {k : Nat} {h : Heap}, h.Sinking k → Heap.Distinct h → k < h.length →
    h.length ≤ fuel + k → (Heap.down fuel k h).Ordered ∧ (Heap.down fuel k h).Perm h := by
  induction fuel with
  | zero => intro k h _ _ hk hf; omega
  | succ fuel ih =>
    intro k h r d hk hf
    unfold Heap.down
    obtain ⟨hm, hall⟩ | ⟨hm0, hml, hmp, hmb, hall⟩ := Heap.least_cases d hk
    · rw [if_pos hm]
      refine ⟨fun j h1 h2 => ?_, .refl _⟩
      by_cases hj : Heap.parent j = k
      · rw [hj]; exact hall j h1 h2 hj
      · exact r.rest j h1 h2 hj
    · have hlt : k < h.least k := by have := Heap.parent_lt (k := h.least k) (by omega); omega
      rw [if_neg (by omega)]
      set m := h.least k with hmdef
      have hat := fun j => Heap.swap_at (h := h) hk hml j
      have hs : (h.swap k m).Sinking m := by
        constructor
        · intro j h1 h2 h3
          rw [Heap.swap_length] at h2
          have hjp := Heap.parent_lt (k := j) (by omega)
          rw [hat, hat, if_neg h3]
          by_cases hpk : Heap.parent j = k
          · rw [if_pos hpk]
            by_cases hjm : j = m
            · rw [if_pos hjm]; exact hmb
            · rw [if_neg hjm, if_neg (by omega)]; exact hall j h1 h2 hpk hjm
          · rw [if_neg hpk, if_neg (by rintro rfl; exact hpk hmp)]
            by_cases hjk : j = k
            · subst hjk
              rw [if_pos rfl]; exact r.across (by omega) m hm0 hml hmp
            · rw [if_neg hjk]; exact r.rest j h1 h2 hpk
        · intro _ j h1 h2 h3
          rw [Heap.swap_length] at h2
          have hjp := Heap.parent_lt (k := j) (by omega)
          rw [hmp, hat, hat, if_neg (by omega), if_pos rfl, if_neg (by omega), if_neg (by omega)]
          have := r.rest j h1 h2 (by omega)
          rwa [h3] at this
      have := ih hs (d.perm (Heap.swap_perm hk hml)) (by rw [Heap.swap_length]; exact hml)
        (by rw [Heap.swap_length]; omega)
      exact ⟨this.1, this.2.trans (Heap.swap_perm hk hml)⟩

/-- The member at the top of a heap is the least (R127). -/
theorem Heap.Ordered.top {h : Heap} (o : h.Ordered) : ∀ k, 0 < k → k < h.length → Key.before (h.at 0) (h.at k) = true := by
  intro k
  induction k using Nat.strong_induction_on with
  | _ k ih =>
    intro h1 h2
    have hp := Heap.parent_lt (k := k) (by omega)
    by_cases h0 : Heap.parent k = 0
    · have := o k h1 h2; rwa [h0] at this
    · exact Key.before_trans (ih _ hp (by omega) (by omega)) (o k h1 h2)

/-- The array `extract_min` starts to mend: the last member at the top (R128). -/
theorem Heap.Ordered.lastUp {r : Key} {h : Heap} (o : Heap.Ordered (r :: h)) (hne : h ≠ []) :
    Heap.Sinking (h.getLast hne :: h.dropLast) 0 := by
  have hat : ∀ j, 0 < j → j < h.length → Heap.at (h.getLast hne :: h.dropLast) j = Heap.at (r :: h) j := by
    intro j h1 h2
    obtain ⟨j, rfl⟩ : ∃ i, j = i + 1 := ⟨j - 1, by omega⟩
    have : j < h.length - 1 := by omega
    have h3 : j < h.length := by omega
    simp [Heap.at, this, h3]
  have hlen : (h.getLast hne :: h.dropLast).length = h.length := by
    have := List.length_pos_of_ne_nil hne
    simp; omega
  constructor
  · intro j h1 h2 h3
    rw [hlen] at h2
    have hp := Heap.parent_lt (k := j) (by omega)
    rw [hat _ h1 h2, hat _ (by omega) (by omega)]
    exact o j h1 (by simp; omega)
  · intro h0; exact absurd rfl h0

end Sys2Proof.Machine
end

