-- ==== Sys2Proof/Laws/PerInstr.lean ====
section
/-! SUPPORT. The family `Encoding`: what holds of every command as syntax (R90 to R93), one lemma per command. -/

namespace Sys2Proof.Laws.Encoding

/-- The command has one word, the word is legal and selects one row of the opcode map, and decoding it gives the command
back. -/
def Statement (i : Instr) : Prop :=
  i.wellFormed = true ∧ encode i = [encodeWord i] ∧ CmdWord.wellFormed (encodeWord i) = true
    ∧ decodeWord (encodeWord i) = .ok i
    ∧ (opcodeMap.filter fun r => r.selects (encodeWord i)) = [⟨encodeWord i, 0xFF, i⟩]

theorem freq : Statement .freq := ⟨rfl, rfl, by decide, rfl, by decide⟩
theorem build : Statement .build := ⟨rfl, rfl, by decide, rfl, by decide⟩
theorem assign : Statement .assign := ⟨rfl, rfl, by decide, rfl, by decide⟩
theorem pack : Statement .pack := ⟨rfl, rfl, by decide, rfl, by decide⟩
theorem ser : Statement .ser := ⟨rfl, rfl, by decide, rfl, by decide⟩
theorem deser : Statement .deser := ⟨rfl, rfl, by decide, rfl, by decide⟩
theorem walk : Statement .walk := ⟨rfl, rfl, by decide, rfl, by decide⟩
theorem encode : Statement .encode := ⟨rfl, rfl, by decide, rfl, by decide⟩
theorem decode : Statement .decode := ⟨rfl, rfl, by decide, rfl, by decide⟩
theorem clear : Statement .clear := ⟨rfl, rfl, by decide, rfl, by decide⟩

end Sys2Proof.Laws.Encoding
end

