-- ==== Sys2Proof/Laws/Stack.lean ====
section
/-! SUPPORT. The traversal stack of R144: its rounds on a subtree record what `visit` records, and the paths on the stack
grow strictly from the bottom to the second entry, which bounds the stack. -/

namespace Sys2Proof.Machine

/-! ### One round -/

theorem Traversal.round_empty (node : Nat → Node) (c : Store Code) : Traversal.round node ⟨[], c⟩ = ⟨[], c⟩ := rfl

theorem Traversal.round_leaf {node : Nat → Node} {e : StackEntry} (h : (node e.index).kind = .leaf)
    (rest : List StackEntry) (c : Store Code) :
    Traversal.round node ⟨e :: rest, c⟩ = ⟨rest, Store.write c (node e.index).sym.toNat e.code⟩ := by
  simp [Traversal.round, h]

theorem Traversal.round_internal {node : Nat → Node} {e : StackEntry} (h : (node e.index).kind = .internal)
    (rest : List StackEntry) (c : Store Code) :
    Traversal.round node ⟨e :: rest, c⟩ = ⟨e.child node false :: e.child node true :: rest, c⟩ := by
  simp [Traversal.round, h]

theorem Traversal.rounds_empty (node : Nat → Node) (k : Nat) (c : Store Code) :
    Traversal.rounds node k ⟨[], c⟩ = ⟨[], c⟩ := by
  induction k with
  | zero => rfl
  | succ k ih => exact ih

theorem Traversal.rounds_add (node : Nat → Node) (j k : Nat) (t : Traversal) :
    Traversal.rounds node (j + k) t = Traversal.rounds node k (Traversal.rounds node j t) := by
  induction j generalizing t with
  | zero => rw [Nat.zero_add]; rfl
  | succ j ih => rw [Nat.add_right_comm]; exact ih _

theorem Traversal.rounds_succ (node : Nat → Node) (k : Nat) (t : Traversal) :
    Traversal.rounds node (k + 1) t = (Traversal.rounds node k t).round node := Traversal.rounds_add node k 1 t

/-! ### What the rounds record -/

/-- Writing the codes recorded, as `codeTable` does. -/
def writeCodes (codes : List (Byte × List Bool)) (c : Store Code) : Store Code :=
  codes.foldl (fun t e => Store.write t e.1.toNat (Code.ofPath e.2)) c

theorem codeTable_eq_writeCodes (codes : List (Byte × List Bool)) (root : Nat) :
    codeTable codes = writeCodes codes (Traversal.start root).codet := rfl

/-- An entry for a node is worked off, with everything below the node, before the rest of the stack is touched; what is
written is what `visit` records. It takes one round for each node: twice the leaves, less one. -/
theorem Traversal.rounds_entry {node : Nat → Node} {d i : Nat} (path : List Bool) (hs : Shallow node d i)
    (rest : List StackEntry) (c : Store Code) :
    1 ≤ (visit node d i path).length
    ∧ Traversal.rounds node (2 * (visit node d i path).length - 1) ⟨⟨i, path.length, path⟩ :: rest, c⟩
        = ⟨rest, writeCodes (visit node d i path) c⟩ := by
  induction d generalizing i path rest c with
  | zero => exact absurd (hs [] (way_nil _ _)) (by simp)
  | succ d ih =>
    cases hk : (node i).kind with
    | leaf =>
      rw [visit_leaf hk]
      exact ⟨le_rfl, Traversal.round_leaf (e := ⟨i, path.length, path⟩) hk rest c⟩
    | internal =>
      have hb : ∀ b, Shallow node d (descend node i b) := fun b q hq => by
        have := hs (b :: q) ((way_cons ..).2 ⟨hk, hq⟩)
        simpa using this
      have hl := ih (path ++ [false]) (hb false) (⟨(node i).right, path.length + 1, path ++ [true]⟩ :: rest) c
      have hr := ih (path ++ [true]) (hb true) rest (writeCodes (visit node d (node i).left (path ++ [false])) c)
      simp only [descend, Bool.false_eq_true, if_false, if_true, List.length_append, List.length_singleton] at hl hr
      rw [visit_internal hk, List.length_append]
      generalize visit node d (node i).left (path ++ [false]) = left at hl hr ⊢
      generalize visit node d (node i).right (path ++ [true]) = right at hl hr ⊢
      refine ⟨by omega, ?_⟩
      rw [show 2 * (left.length + right.length) - 1 = 1 + ((2 * left.length - 1) + (2 * right.length - 1)) by omega,
        Traversal.rounds_add, Traversal.rounds_add]
      have h1 := Traversal.round_internal (e := ⟨i, path.length, path⟩) hk rest c
      rw [show Traversal.rounds node 1 ⟨⟨i, path.length, path⟩ :: rest, c⟩ = _ from h1]
      simp only [StackEntry.child, Bool.false_eq_true, if_false, if_true]
      rw [hl.2, hr.2, writeCodes, writeCodes, writeCodes, List.foldl_append]

/-! ### How large the stack gets -/

/-- The paths on a stack: each leads to its node, and from the second entry down each is shorter than the one above it
and none is empty. -/
structure StackOk (node : Nat → Node) (root : Nat) (stack : List StackEntry) : Prop where
  ways : ∀ e ∈ stack, Way node root e.path ∧ follow node root e.path = e.index ∧ e.length = e.path.length
  pending : ∀ e rest, stack = e :: rest →
    (rest.Pairwise fun a b => b.length < a.length) ∧ ∀ f ∈ rest, 1 ≤ f.length ∧ f.length ≤ e.length

theorem StackOk.start (node : Nat → Node) (root : Nat) : StackOk node root (Traversal.start root).stack where
  ways := by
    intro e he
    rw [Traversal.start, List.mem_singleton] at he
    subst he
    exact ⟨way_nil _ _, rfl, rfl⟩
  pending := by
    intro e rest h
    cases h
    exact ⟨.nil, fun f hf => by cases hf⟩

theorem StackOk.round {node : Nat → Node} {root : Nat} {t : Traversal} (h : StackOk node root t.stack) :
    StackOk node root (t.round node).stack := by
  obtain ⟨stack, c⟩ := t
  match stack with
  | [] => exact h
  | e :: rest =>
    obtain ⟨hp, hr⟩ := h.pending e rest rfl
    cases hk : (node e.index).kind with
    | leaf =>
      rw [Traversal.round_leaf hk]
      refine ⟨fun f hf => h.ways f (by simp [hf]), fun f rest' he => ?_⟩
      obtain rfl : rest = f :: rest' := he
      rw [List.pairwise_cons] at hp
      exact ⟨hp.2, fun g hg => ⟨(hr g (by simp [hg])).1, (hp.1 g hg).le⟩⟩
    | internal =>
      rw [Traversal.round_internal hk]
      obtain ⟨hw, hf, hl⟩ := h.ways e (by simp)
      have child : ∀ b, Way node root (e.child node b).path
          ∧ follow node root (e.child node b).path = (e.child node b).index
          ∧ (e.child node b).length = (e.child node b).path.length := fun b => by
        refine ⟨(way_snoc ..).2 ⟨hw, by rw [hf]; exact hk⟩, ?_, by simp [StackEntry.child, hl]⟩
        simp only [StackEntry.child, follow_append, follow_cons, follow_nil, hf, descend]
      refine ⟨fun f hm => ?_, fun f rest' he => ?_⟩
      · rcases List.mem_cons.1 hm with rfl | hm
        · exact child false
        rcases List.mem_cons.1 hm with rfl | hm
        · exact child true
        · exact h.ways f (by simp [hm])
      · obtain ⟨rfl, rfl⟩ := List.cons.inj he
        have hlen : ∀ b, (e.child node b).length = e.length + 1 := fun _ => rfl
        refine ⟨List.pairwise_cons.2 ⟨fun g hg => ?_, hp⟩, fun g hg => ?_⟩
        · have := (hr g hg).2
          rw [hlen]; omega
        · rcases List.mem_cons.1 hg with rfl | hg
          · rw [hlen, hlen]; omega
          · have := hr g hg
            rw [hlen]; omega

theorem StackOk.rounds {node : Nat → Node} {root : Nat} (k : Nat) {t : Traversal} (h : StackOk node root t.stack) :
    StackOk node root (t.rounds node k).stack := by
  induction k generalizing t with
  | zero => exact h
  | succ k ih => exact ih h.round

/-- A list of positive lengths that grow strictly has no more members than its largest length. -/
theorem pairwise_length_le {rest : List StackEntry} {m : Nat} (hp : rest.Pairwise fun a b => b.length < a.length)
    (hr : ∀ f ∈ rest, 1 ≤ f.length ∧ f.length ≤ m) : rest.length ≤ m := by
  induction rest generalizing m with
  | nil => exact Nat.zero_le _
  | cons f rest ih =>
    rw [List.pairwise_cons] at hp
    have hf := hr f (by simp)
    have := ih (m := f.length - 1) hp.2 fun g hg => ⟨(hr g (by simp [hg])).1, by have := hp.1 g hg; omega⟩
    rw [List.length_cons]; omega

/-- "each internal node on the current path contributes at most one pending sibling" (R144): in an arena of `n` leaves
the stack has at most `n` entries. -/
theorem StackOk.size {node : Nat → Node} {n : Nat} (hs : Shape node n) {stack : List StackEntry}
    (h : StackOk node (2 * n - 2) stack) : stack.length ≤ n := by
  have hpos := hs.pos
  match stack with
  | [] => exact Nat.zero_le _
  | e :: rest =>
    obtain ⟨hp, hr⟩ := h.pending e rest rfl
    obtain ⟨hw, -, hl⟩ := h.ways e (by simp)
    have hb := (hs.way_bound (by omega) hw).2
    have := pairwise_length_le hp hr
    have hle : e.path.length ≤ n - 1 := by
      by_cases hne : e.path = []
      · simp [hne]
      · have := hb hne; omega
    rw [List.length_cons]; omega

end Sys2Proof.Machine
end

