-- ==== Sys2Proof/Tests/Slice0.lean ====
section
/-! SUPPORT. Tests: what the well-formedness checks refuse, the words of the opcode map, one step of every command with
the results of spec/95_test_vectors.md, and a witness for the hypotheses of every statement. -/

namespace Sys2Proof.Tests

open Sys2Proof.Machine

-- one kernel evaluation at a time
set_option Elab.async false

/-! ### Well-formedness: one ill-formed term for each check -/

theorem test_reserved_field_refused :
    CmdWord.reservedClear 0x10 = false ∧ CmdWord.reservedClear 0x81 = false ∧ CmdWord.wellFormed 0x11 = false := by decide

theorem test_opcode_refused :
    CmdWord.opAssigned 0x00 = false ∧ CmdWord.opAssigned 0x0B = false ∧ CmdWord.wellFormed 0x0F = false := by decide

theorem test_width_refused : Params.widthOk ⟨0, 1, 1, 1⟩ = false ∧ Params.wellFormed ⟨0, 0, 0, 0⟩ = false := by decide

theorem test_inCap_refused :
    Params.inCapOk ⟨8, 0, 1, 1⟩ = false ∧ Params.inCapOk ⟨8, 256, 1, 1⟩ = false ∧ Params.inCapOk ⟨8, 255, 1, 1⟩ = true := by
  decide

theorem test_outCap_refused :
    Params.outCapOk ⟨8, 1, 0, 1⟩ = false ∧ Params.outCapOk ⟨8, 1, 256, 1⟩ = false ∧ Params.outCapOk ⟨8, 1, 255, 1⟩ = true := by
  decide

theorem test_payCap_refused :
    Params.payCapOk ⟨8, 1, 1, 0⟩ = false ∧ Params.payCapOk ⟨8, 1, 1, 256⟩ = false ∧ Params.payCapOk ⟨8, 1, 1, 255⟩ = true := by
  decide

theorem test_suggested_params_wellFormed : Params.suggested.wellFormed = true := by decide

/-! ### Decoding: the words of R91 written out as `RSV` and `OP`, and the illegal words of R92 -/

theorem test_decode_every_family :
    decodeWord 0b00000001 = .ok .freq ∧ decodeWord 0b00000010 = .ok .build ∧ decodeWord 0b00000011 = .ok .assign
      ∧ decodeWord 0b00000100 = .ok .pack ∧ decodeWord 0b00000101 = .ok .ser ∧ decodeWord 0b00000110 = .ok .deser
      ∧ decodeWord 0b00000111 = .ok .walk ∧ decodeWord 0b00001000 = .ok .encode ∧ decodeWord 0b00001001 = .ok .decode
      ∧ decodeWord 0b00001010 = .ok .clear := ⟨rfl, rfl, rfl, rfl, rfl, rfl, rfl, rfl, rfl, rfl⟩

/-- The illegal words that spec/95_test_vectors.md tries: one of each kind of R92. -/
theorem test_decode_illegal :
    decodeWord 0x00 = .error .opcodeZero ∧ decodeWord 0x0B = .error .opcodeUnassigned
      ∧ decodeWord 0x0F = .error .opcodeUnassigned ∧ decodeWord 0x10 = .error .reservedBits
      ∧ decodeWord 0x81 = .error .reservedBits ∧ decodeWord 0xFF = .error .reservedBits := ⟨rfl, rfl, rfl, rfl, rfl, rfl⟩

theorem test_decode_takes_one_byte : decode [0x08, 0x09] = .ok (.encode, [0x09]) ∧ decode [] = .error .noWord := ⟨rfl, rfl⟩

theorem test_table_word : decodeTableWord 8 0x07 = some .walk ∧ decodeTableWord 8 0x17 = none
    ∧ decodeTableWord 8 0x107 = some .walk := ⟨rfl, rfl, rfl⟩

theorem test_opcode_map_rows_disjoint :
    opcodeMap.Pairwise fun a b => a.pattern &&& a.mask &&& b.mask ≠ b.pattern &&& a.mask &&& b.mask := by decide

/-! ### Fixtures -/

/-- Parameters wide enough for every example, with a capacity of 32 input bytes. -/
def wide : Params := ⟨16, 32, 4000, 64⟩

/-- Parameters with one byte of output and one of payload. -/
def tight : Params := ⟨8, 32, 1, 1⟩

/-- A core after reset, with an input the host has written. -/
def loaded (p : Params) (bytes : List Byte) : State :=
  { State.reset with params := p, inLen := bytes.length, ibuf := Store.ofList 0 bytes }

/-- The next state of an outcome. -/
def nextState : Host.Outcome State Fault Refusal → State
  | .next t => t
  | .fault _ => .reset
  | .refused _ => .reset

/-- The state after a command. -/
def after (i : Instr) (s : State) : State := nextState (exec i s)

/-- A core on the encode path, after `PACK`, for an input with its tree and codes. -/
def onEncode (p : Params) (input : List Byte) (nsym root : Nat) (nodes : List Node) (codes : List (Byte × List Bool))
    (nbits : Nat) (payload : List Byte) : State :=
  { loaded p input with
    stt := .done
    phase := some .pack
    freq := ⟨true, input.length, nsym, 0, .enc, countTable input⟩
    tree := ⟨true, root, nodes.length, Store.ofList 0 nodes⟩
    code := ⟨true, codeTable codes⟩
    pay := ⟨true, nbits, payload.length, Store.ofList 0 payload⟩ }

/-- Vector E7: input `"aab"`. -/
def aab (p : Params) : State :=
  onEncode p [0x61, 0x61, 0x62] 2 2 [⟨.leaf, 0x61, 0, 0, 2⟩, ⟨.leaf, 0x62, 0, 0, 1⟩, ⟨.internal, 0, 1, 0, 3⟩]
    [(0x62, [false]), (0x61, [true])] 3 [0xC0]

/-- A single symbol, input `"AA"` (as vector E2). -/
def aa (p : Params) : State :=
  onEncode p [0x41, 0x41] 1 0 [⟨.leaf, 0x41, 0, 0, 2⟩] [(0x41, [false])] 2 [0x00]

/-- The artifact of vector E7: header `"2\n97 2\n98 1\n"`, payload `C0`. -/
def artifactAab : List Byte := [0x32, 0x0A, 0x39, 0x37, 0x20, 0x32, 0x0A, 0x39, 0x38, 0x20, 0x31, 0x0A, 0xC0]

/-- A core on the decode path, after `BUILD`, for an artifact with the table and tree of `"aab"`. -/
def decoding (p : Params) (payload : List Byte) : State :=
  { loaded p (artifactAab.take 12 ++ payload) with
    stt := .done
    phase := some .build
    freq := ⟨true, 3, 2, 12, .dec, Store.ofList 0 (symbols.map (freqOf [(97, 2), (98, 1)]))⟩
    tree := ⟨true, 2, 3, Store.ofList 0 [⟨.leaf, 0x61, 0, 0, 2⟩, ⟨.leaf, 0x62, 0, 0, 1⟩, ⟨.internal, 0, 1, 0, 3⟩]⟩ }

/-- A decode path whose root is a leaf: header `"1\n65 2\n"`. -/
def decodingAa (p : Params) (payload : List Byte) : State :=
  { loaded p ([0x31, 0x0A, 0x36, 0x35, 0x20, 0x32, 0x0A] ++ payload) with
    stt := .done
    phase := some .build
    freq := ⟨true, 2, 1, 7, .dec, Store.ofList 0 (symbols.map (freqOf [(65, 2)]))⟩
    tree := ⟨true, 0, 1, Store.ofList 0 [⟨.leaf, 0x41, 0, 0, 2⟩]⟩ }

/-- The fixture as it was before the units above a level ran. -/
def upTo (phase : UnitOp) (hi : Nat) (s : State) : State := { s.invalidateRange hi 4 with phase := some phase }

/-- A core that the host is about to use. -/
def withHost (s : State) (ops : List HostOp) : State := { s with host := ops }

/-- A core in the middle of a command. -/
def running (cmd : Instr) (window : Nat) (s : State) : State := { s with stt := .busy cmd window, err := none }

/-! ### One step of every command -/

/-- Vector E7, `FREQ` (row F1's form). -/
theorem test_freq_counts : (after .freq (loaded wide [0x61, 0x61, 0x62])).status = 0x0106
    ∧ (after .freq (loaded wide [0x61, 0x61, 0x62])).freq.nsym = 2
    ∧ (after .freq (loaded wide [0x61, 0x61, 0x62])).count 0x61 = 2
    ∧ (after .freq (loaded wide [0x61, 0x61, 0x62])).count 0x63 = 0 := by decide +kernel

/-- Row F5. -/
theorem test_freq_empty : (after .freq (loaded wide [])).status = 0x0103
    ∧ (after .freq (loaded wide [])).err = some .emptyInput := by decide +kernel

/-- Vector E7, `BUILD`. -/
theorem test_build_lighter_left : (after .build (upTo .freq 1 (aab wide))).status = 0x020E
    ∧ (after .build (upTo .freq 1 (aab wide))).tree = (aab wide).tree := by decide +kernel

/-- R191. -/
theorem test_build_needs_freq : (after .build (loaded wide [0x61])).status = 0x0003
    ∧ (after .build (loaded wide [0x61])).err = some .sequence := by decide +kernel

/-- R127, R128, worked by hand: the new key goes up past its parent; the last member goes to the top and down again. -/
theorem test_heap : Heap.push [(1, 3), (2, 0), (2, 1)] (1, 2) = [(1, 2), (1, 3), (2, 1), (2, 0)]
    ∧ Heap.pop [(1, 2), (1, 3), (2, 1), (2, 0)] = some ((1, 2), [(1, 3), (2, 0), (2, 1)]) := by decide

/-- Vector E7, `ASSIGN`. -/
theorem test_assign_paths : (after .assign (upTo .build 2 (aab wide))).status = 0x031E
    ∧ ((after .assign (upTo .build 2 (aab wide))).codeOf 0x61).path = [true]
    ∧ ((after .assign (upTo .build 2 (aab wide))).codeOf 0x62).path = [false]
    ∧ ((after .assign (upTo .build 2 (aab wide))).codeOf 0x63).path = [] := by decide +kernel

/-- R144, worked by hand on the arena of vector E7 (root 2, its left child 1 is `b`, its right child 0 is `a`): the left
child is on top, is written first, and the right child is left. -/
theorem test_stack :
    ((Traversal.start 2).rounds (aab wide).node 1).stack = [⟨1, 1, [false]⟩, ⟨0, 1, [true]⟩]
      ∧ ((Traversal.start 2).rounds (aab wide).node 2).stack = [⟨0, 1, [true]⟩]
      ∧ Store.read ((Traversal.start 2).rounds (aab wide).node 2).codet 0x62 = some ⟨1, 0⟩
      ∧ Store.read (codeTableByStack (aab wide).node 2) 0x61 = some ⟨1, 1⟩ := by decide +kernel

/-- Vector E2, `ASSIGN`. -/
theorem test_assign_single : ((after .assign (upTo .build 2 (aa wide))).codeOf 0x41).path = [false] := by decide +kernel

/-- Vector E7, `PACK`. -/
theorem test_pack_msb_first : (after .pack (upTo .assign 3 (aab wide))).status = 0x043E
    ∧ (after .pack (upTo .assign 3 (aab wide))).pay = (aab wide).pay := by decide +kernel

/-- Vector E3: the bitstream `0 110 111 0 100 0 101 0 110 111 0` packs to `6E 8A DC`. -/
theorem test_packBits : packBits [false, true, true, false, true, true, true, false, true, false, false, false, true, false,
    true, false, true, true, false, true, true, true, false] = [0x6E, 0x8A, 0xDC] := by decide +kernel

/-- Vector E7, `SER`. -/
theorem test_ser_artifact : (after .ser (aab wide)).status = 0x057E ∧ (after .ser (aab wide)).stt = .done
    ∧ (after .ser (aab wide)).outputBytes = artifactAab := by decide +kernel

/-- Vector E7, `DESER`. -/
theorem test_deser_header : (after .deser (loaded wide artifactAab)).status = 0x0686
    ∧ (after .deser (loaded wide artifactAab)).freq.payOff = 12 ∧ (after .deser (loaded wide artifactAab)).freq.total = 3
    ∧ (after .deser (loaded wide artifactAab)).freq.nsym = 2
    ∧ (after .deser (loaded wide artifactAab)).count 0x61 = 2 := by decide +kernel

/-- A leading zero in a field (R165). -/
theorem test_deser_leading_zero : (after .deser (loaded wide [0x30, 0x31, 0x0A])).status = 0x0603
    ∧ (after .deser (loaded wide [0x30, 0x31, 0x0A])).err = some .corruptStream := by decide +kernel

/-- Vector E7, `WALK`. -/
theorem test_walk_emits : (after .walk (decoding wide [0xC0])).status = 0x07CE
    ∧ (after .walk (decoding wide [0xC0])).outputBytes = [0x61, 0x61, 0x62] := by decide +kernel

/-- The payload is missing (R185). -/
theorem test_walk_no_bits : (after .walk (decoding wide [])).status = 0x078F
    ∧ (after .walk (decoding wide [])).err = some .corruptStream := by decide +kernel

/-- Row F5 for `ENCODE`. -/
theorem test_encode_empty : (after .encode (loaded wide [])).status = 0x0103 := by decide +kernel

/-- The artifact of vector E5. -/
def artifactAb : List Byte := [0x32, 0x0A, 0x39, 0x37, 0x20, 0x31, 0x0A, 0x39, 0x38, 0x20, 0x31, 0x0A, 0x40]

/-- Vector E5. -/
theorem test_encode_ab : (after .encode (loaded wide [0x61, 0x62])).stt = .done
    ∧ (after .encode (loaded wide [0x61, 0x62])).outputBytes = artifactAb := by decide +kernel

/-- Vector E7, decoded. -/
theorem test_decode_aab : (after .decode (loaded wide artifactAab)).outputBytes = [0x61, 0x61, 0x62] := by decide +kernel

/-- An artifact cut in the header. -/
theorem test_decode_cut : (after .decode (loaded wide (artifactAab.take 9))).status = 0x0603 := by decide +kernel

/-- R195. -/
theorem test_clear : (after .clear (aab wide)).status = 0x0000 ∧ (after .clear (aab wide)).inLen = 3 := by decide +kernel

/-- The first command after reset: `FREQ` finds the empty input, `BUILD` has no table. -/
theorem test_step_from_reset : (nextState (step (State.reset.withFetchWord 8 0x01))).status = 0x0103
    ∧ (nextState (step (State.reset.withFetchWord 8 0x02))).err = some .sequence
    ∧ (nextState (step (State.reset.withFetchWord 8 0x0B))).err = some .illegalCommand := by decide +kernel

/-- A command that runs for two transactions of the host: the first poll reads `BUSY`, the write is ignored. -/
theorem test_busy_poll : (nextState (step (running .freq 1 (withHost (loaded wide [0x61]) [⟨.regWrite regINLEN 0, 0⟩])))).inLen = 1
    ∧ (nextState (step (running .freq 0 (loaded wide [0x61])))).status = 0x0106 := by decide +kernel

/-! ### The fixtures have the invariant -/

theorem loaded_inputBytes (p : Params) (input : List Byte) : (loaded p input).inputBytes = input := by
  apply List.ext_getElem
  · rw [State.inputBytes_length]; rfl
  · intro i h1 h2
    simp [State.inputBytes, State.inByte, loaded, h2]

theorem onEncode_sound {p : Params} {input : List Byte} {nsym root nbits : Nat} {nodes : List Node}
    {codes : List (Byte × List Bool)} {payload : List Byte} (hp : p.wellFormed = true) (h1 : 1 ≤ input.length)
    (h2 : input.length ≤ p.inCap) (hn : nsym = distinctSymbols (occurrences input))
    (ht : nodes = (buildArena (occurrences input)).1) (hr : root = 2 * nsym - 2)
    (hc : codes = treeCodes (onEncode p input nsym root nodes codes nbits payload).node root)
    (hb : nbits = (onEncode p input nsym root nodes codes nbits payload).codeStream.length)
    (hy : payload = packBits (onEncode p input nsym root nodes codes nbits payload).codeStream)
    (hl : payload.length ≤ p.payCap) : Sound (onEncode p input nsym root nodes codes nbits payload) := by
  set s := onEncode p input nsym root nodes codes nbits payload with hs
  have hin : s.inputBytes = input := loaded_inputBytes p input
  have hcap : p.inCap ≤ p.cmax := by
    have := hp
    simp only [Params.wellFormed, Params.inCapOk, Bool.and_eq_true, decide_eq_true_eq] at this
    exact this.1.1.2.2
  have hcnt : ∀ x < 256, s.count x = occurrences input x := fun x hx => by
    show (Store.read (countTable input) x).getD _ = _
    rw [countTable, read_table _ hx]; rfl
  have hF : FreqFacts s := FreqFacts.of_counted h1 h2 (h2.trans hcap) (by rw [hin]; rfl) rfl (by rw [hin]; exact hn) rfl rfl
  have harena : buildArena s.count = buildArena (occurrences input) := buildArena_congr hcnt
  have hT : TreeFacts s := by
    have hd : 1 ≤ distinctSymbols s.count := hF.nsym ▸ hF.nsym_range.1
    obtain ⟨-, w, hw⟩ := buildArena_building hd
    refine (TreeFacts.of_built hF ?_ ?_ ?_).1
    · rw [harena, ← ht]; rfl
    · rw [hw]
      show root = 2 * distinctSymbols s.count - 2
      rw [hr, distinctSymbols_congr hcnt, ← hn]
    · rw [harena, ← ht]; rfl
  have hC : CodeFacts s := CodeFacts.of_assigned hF hT (by show codeTable codes = _; rw [hc]; rfl)
  have hlen : s.codeStream.length = s.streamLength := codeStream_length (hF.counted rfl).1
  have hP : PayFacts s := by
    refine PayFacts.of_packed (hF.counted rfl).1 ?_ (hb.trans hlen) ?_ ?_
    · rw [← hlen, ← packBits_length, ← hy]; exact hl
    · show payload.length = _; rw [← hy]
    · show Store.ofList 0 payload = _; rw [← hy]
  have hnl : nodes.length ≤ nodeMax := by
    have hd : 1 ≤ distinctSymbols (occurrences input) := hn ▸ hF.nsym_range.1
    have := distinctSymbols_le (occurrences input)
    rw [ht, buildArena_length hd, nodeMax]
    omega
  obtain ⟨hcw, hcr, -⟩ := codeTable_ok codes
  exact {
    params := hp
    inLen := h2.trans hcap
    stores := ⟨⟨Store.wf_ofList _ _, Store.ofList_in_range _ _ h2⟩, table_ok _, ⟨Store.wf_ofList _ _,
      Store.ofList_in_range _ _ hnl⟩, ⟨hcw, hcr⟩, ⟨Store.wf_ofList _ _, Store.ofList_in_range _ _ hl⟩,
      ⟨Store.wf_nil, fun e he => by cases he⟩⟩
    tree_needs_freq := fun _ => rfl
    code_needs_tree := fun _ => rfl
    pay_needs_code := fun _ => ⟨rfl, rfl⟩
    freq_cleared := fun hv => by cases hv
    tree_cleared := fun hv => by cases hv
    code_cleared := fun hv => by cases hv
    pay_cleared := fun hv => by cases hv
    out_cleared := fun _ => rfl
    freq := fun _ => hF
    tree := fun _ => hT
    code := fun _ => hC
    pay := fun _ => hP
    out := fun hv => by cases hv }

theorem sound_aab : Sound (aab wide) :=
  onEncode_sound (by decide) (by decide) (by decide) (by decide +kernel) (by decide +kernel) rfl (by decide +kernel)
    (by decide +kernel) (by decide +kernel) (by decide)

theorem sound_aa : Sound (aa wide) :=
  onEncode_sound (by decide) (by decide) (by decide) (by decide +kernel) (by decide +kernel) rfl (by decide +kernel)
    (by decide +kernel) (by decide +kernel) (by decide)

theorem inv_upTo {s : State} (h : Sound s) (hb : s.stt = .done) (he : s.err = none) (u : UnitOp) (hi : Nat) :
    Inv (upTo u hi s) := by
  refine Sound.inv_of_idle ((h.invalidateRange hi 4 (by omega)).congr rfl rfl rfl rfl rfl rfl rfl rfl rfl) ?_ ?_ ?_
  · show s.stt.isBusy = false; rw [hb]; rfl
  · show s.stt = .error ↔ s.err ≠ none
    rw [hb, he]
    exact ⟨fun h => (by cases h), fun h => absurd rfl h⟩
  · show s.err ≠ _
    rw [he]; exact fun h => by cases h

theorem inv_counted : Inv (upTo .freq 1 (aab wide)) := inv_upTo sound_aab rfl rfl _ _
theorem inv_built : Inv (upTo .build 2 (aab wide)) := inv_upTo sound_aab rfl rfl _ _
theorem inv_built_single : Inv (upTo .build 2 (aa wide)) := inv_upTo sound_aa rfl rfl _ _
theorem inv_assigned : Inv (upTo .assign 3 (aab wide)) := inv_upTo sound_aab rfl rfl _ _
theorem inv_packed : Inv (upTo .pack 4 (aab wide)) := inv_upTo sound_aab rfl rfl _ _

/-! ### Witnesses: for every statement with hypotheses, a state and operands that meet all of them -/

theorem exec_after (i : Instr) (s : State) : exec i s = .next (after i s) := by
  unfold after
  cases h : exec i s with
  | next t => rfl
  | fault r => cases r
  | refused r =>
    rw [exec_eq_runCommand, runCommand] at h
    split at h
    · cases h
    · split at h <;> cases h

theorem step_next (s : State) : step s = .next (nextState (step s)) := by
  cases h : step s with
  | next t => rfl
  | fault r => cases r
  | refused r =>
    exfalso
    unfold step at h
    split at h
    · cases h
    all_goals
      unfold State.runIdle at h
      split at h
      · cases h
      · next op rest _ =>
        rcases serve_cases op { s with host := rest } with ⟨_, e⟩ | ⟨v, -, e⟩ | ⟨_, e⟩ | ⟨_, _, -, e⟩ | ⟨-, e⟩ | e <;>
          rw [e] at h <;> try cases h
        unfold State.present at h
        split at h
        · cases h
        · split at h
          · cases h
          · rw [exec_after] at h; cases h

theorem aab_count (p : Params) : ∀ x < 256, (aab p).count x = occurrences [0x61, 0x61, 0x62] x := fun x hx => by
  show (Store.read (countTable [0x61, 0x61, 0x62]) x).getD _ = _
  rw [countTable, read_table _ hx]; rfl

theorem aa_count (p : Params) : ∀ x < 256, (aa p).count x = occurrences [0x41, 0x41] x := fun x hx => by
  show (Store.read (countTable [0x41, 0x41]) x).getD _ = _
  rw [countTable, read_table _ hx]; rfl

theorem witness_DecodeEncodeAgree : decodeWord 0x0A = .ok .clear := rfl

theorem witness_StepRunsDecodedCommand :
    (withHost (loaded wide [0x61]) [⟨.regWrite regCMD 0x0A, 0⟩]).stt.isBusy = false
      ∧ (withHost (loaded wide [0x61]) [⟨.regWrite regCMD 0x0A, 0⟩]).host = ⟨.regWrite regCMD 0x0A, 0⟩ :: []
      ∧ decodeWord (BitVec.ofNat 8 0x0A) = .ok .clear ∧ decodeTableWord 8 0x0A = some .clear := ⟨rfl, rfl, rfl, rfl⟩

/-- The first and the last illegal words, and a value wider than the register. -/
theorem witness_IllegalWordIsRejected : ∀ v ∈ [0x00, 0x0B, 0xFF, 0x100],
    (withHost (aab wide) [⟨.regWrite regCMD v, 0⟩]).stt.isBusy = false
      ∧ (withHost (aab wide) [⟨.regWrite regCMD v, 0⟩]).host = ⟨.regWrite regCMD v, 0⟩ :: []
      ∧ (v % 256 = 0x00 ∨ 0x0B ≤ v % 256) := fun v hv => by
  refine ⟨rfl, rfl, ?_⟩
  simp only [List.mem_cons, List.not_mem_nil, or_false] at hv
  omega

theorem witness_PrerequisitesDecide :
    (loaded wide [0x61]).stt.isBusy = false
      ∧ (∃ t, exec .build (loaded wide [0x61]) = .next t ∧ t.err = some .sequence)
      ∧ (∃ t, exec .assign (loaded wide [0x61]) = .next t ∧ t.err = some .sequence)
      ∧ (∃ t, exec .pack (loaded wide [0x61]) = .next t ∧ t.err = some .sequence)
      ∧ (∃ t, exec .ser (loaded wide [0x61]) = .next t ∧ t.err = some .sequence)
      ∧ (∃ t, exec .walk (loaded wide [0x61]) = .next t ∧ t.err = some .sequence)
      ∧ exec .freq (loaded wide [0x61]) = .next (after .freq (loaded wide [0x61])) :=
  ⟨rfl, ⟨_, rfl, rfl⟩, ⟨_, rfl, rfl⟩, ⟨_, rfl, rfl⟩, ⟨_, rfl, rfl⟩, ⟨_, rfl, rfl⟩, exec_after _ _⟩

/-- Each clause: busy, an illegal word, a missing prerequisite, an accepted command (ending at once, and later). -/
theorem witness_CommandWriteFollowsTheAcceptanceRule :
    ((withHost (running .freq 1 (loaded wide [0x61])) [⟨.regWrite regCMD 0x01, 0⟩]).host = ⟨.regWrite regCMD 0x01, 0⟩ :: []
        ∧ (withHost (running .freq 1 (loaded wide [0x61])) [⟨.regWrite regCMD 0x01, 0⟩]).stt = .busy .freq (0 + 1))
      ∧ ((withHost (loaded wide [0x61]) [⟨.regWrite regCMD 0x0B, 0⟩]).stt.isBusy = false
        ∧ decodeWord (BitVec.ofNat 8 0x0B) = .error .opcodeUnassigned)
      ∧ ((withHost (loaded wide [0x61]) [⟨.regWrite regCMD 0x02, 0⟩]).prereq .build = false
        ∧ decodeWord (BitVec.ofNat 8 0x02) = .ok .build)
      ∧ ((withHost (loaded wide [0x61]) [⟨.regWrite regCMD 0x01, 2⟩]).prereq .freq = true
        ∧ decodeWord (BitVec.ofNat 8 0x01) = .ok .freq ∧ 2 ≠ 0) :=
  ⟨⟨rfl, rfl⟩, ⟨rfl, rfl⟩, ⟨rfl, rfl⟩, ⟨rfl, rfl, by decide⟩⟩

theorem witness_BusyCoreShowsOnlyBusy : ∀ t ∈ [Txn.regWrite regINLEN 9, .memWrite .ibuf 0 7, .regRead regSTATUS,
    .memRead .obuf 0, .reset],
    (withHost (running .freq 1 (loaded wide [0x61])) [⟨t, 0⟩]).stt = .busy .freq (0 + 1)
      ∧ (withHost (running .freq 1 (loaded wide [0x61])) [⟨t, 0⟩]).host = ⟨t, 0⟩ :: [] := fun _ _ => ⟨rfl, rfl⟩

theorem witness_BusyWindowIsUnobserved :
    let ops : List HostOp := [⟨.regRead regSTATUS, 0⟩, ⟨.memWrite .ibuf 0 7, 0⟩]
    let s := withHost (loaded wide [0x61]) (⟨.regWrite regCMD 0x01, ops.length⟩ :: (ops ++ []))
    s.stt.isBusy = false ∧ ops ≠ [] ∧ decodeWord (BitVec.ofNat 8 0x01) = .ok .freq ∧ s.prereq .freq = true
      ∧ s.host = ⟨.regWrite regCMD 0x01, ops.length⟩ :: (ops ++ []) ∧ ∀ op ∈ ops, op.txn ≠ .reset :=
  ⟨rfl, by decide, rfl, rfl, rfl, by decide⟩

/-- Not busy, busy with transactions to come, and busy with none. -/
theorem witness_ResetAbandonsEverything : ∀ s ∈ [aab wide, running .encode 2 (aab wide), running .encode 0 (aab wide)],
    (withHost s [⟨.reset, 0⟩]).host = ⟨.reset, 0⟩ :: [] := fun _ _ => rfl

theorem witness_busy_zero : ∃ cmd, (running .encode 0 (aab wide)).stt = .busy cmd 0 := ⟨_, rfl⟩

/-- The last register number and the first reserved one. -/
theorem witness_RegisterReads : ∀ n ∈ [(0x00 : BitVec 8), 0x0B, 0x0C, 0xFF],
    (withHost (aab wide) [⟨.regRead n, 0⟩]).stt.isBusy = false
      ∧ (withHost (aab wide) [⟨.regRead n, 0⟩]).host = ⟨.regRead n, 0⟩ :: [] := fun _ _ => ⟨rfl, rfl⟩

/-- The last address in range, with specified contents, and the first out of range. -/
theorem witness_MemoryReads :
    (aab wide).stt.isBusy = false ∧ Space.ibuf.size (aab wide).params ≤ 32 ∧ 2 < Space.ibuf.size (aab wide).params
      ∧ (aab wide).specified .ibuf 2 = some (.byte 0x62) ∧ (aab wide).specified .nodet 2 = some (.node ⟨.internal, 0, 1, 0, 3⟩)
      ∧ (aab wide).specified .pbuf 0 = some (.byte 0xC0) := by decide +kernel

/-- The last address of `IBUF` and the largest length. -/
theorem witness_HostWritesInvalidate :
    (aab wide).stt.isBusy = false
      ∧ (withHost (aab wide) [⟨.memWrite .ibuf 31 7, 0⟩]).host = ⟨.memWrite .ibuf 31 7, 0⟩ :: [] ∧ 31 < (aab wide).params.inCap
      ∧ (withHost (aab wide) [⟨.regWrite regINLEN 65535, 0⟩]).host = ⟨.regWrite regINLEN 65535, 0⟩ :: []
      ∧ 65535 ≤ (aab wide).params.cmax := ⟨rfl, rfl, by decide, rfl, by decide⟩

/-- The first address out of range and the first reserved number. -/
theorem witness_OutOfRangeAccesses :
    (aab wide).stt.isBusy = false ∧ Space.ibuf.size (aab wide).params ≤ 32 ∧ Space.nodet.size (aab wide).params ≤ 511
      ∧ 0x0C ≤ (0x0C : BitVec 8).toNat
      ∧ (withHost (aab wide) [⟨.memRead .nodet 511, 0⟩]).host = ⟨.memRead .nodet 511, 0⟩ :: [] := by decide +kernel

theorem witness_ReadOnlyWritesAreIgnored :
    (withHost (aab wide) [⟨.memWrite .obuf 0 7, 0⟩]).stt.isBusy = false ∧ Space.obuf ≠ .ibuf
      ∧ regSTATUS ≠ 0x00 ∧ regSTATUS ≠ 0x03 := by decide +kernel

theorem witness_WrittenInputByteIsKept :
    let s := withHost (aab wide) [⟨.regWrite regCMD 0x0A, 0⟩]
    step s = .next (nextState (step s)) ∧ Store.read s.ibuf 0 = some 0x61
      ∧ ∀ op rest, s.host = op :: rest → op.txn ≠ .reset ∧ ∀ c, op.txn ≠ .memWrite .ibuf 0 c := by
  refine ⟨step_next _, rfl, fun op rest h => ?_⟩
  cases h
  exact ⟨by decide, fun c hc => by cases hc⟩

theorem witness_NothingHappensByItself : (aab wide).stt.isBusy = false ∧ (aab wide).host = [] := ⟨rfl, rfl⟩

theorem witness_EveryCommandEnds : (running .encode 3 (aab wide)).stt = .busy .encode 3 ∧ (running .encode 3 (aab wide)).host = [] :=
  ⟨rfl, rfl⟩

theorem witness_CommandsKeepTheInput : exec .encode (aab wide) = .next (after .encode (aab wide)) := exec_after _ _

theorem witness_UnitCommandsTouchTheirLevelUp :
    (upTo .freq 1 (aab wide)).stt.isBusy = false ∧ (upTo .freq 1 (aab wide)).prereq UnitOp.build.command = true
      ∧ exec UnitOp.build.command (upTo .freq 1 (aab wide)) = .next (after UnitOp.build.command (upTo .freq 1 (aab wide))) :=
  ⟨rfl, rfl, exec_after _ _⟩

/-- The shortest input and the longest that fits. -/
theorem witness_FreqCountsTheInput : ∀ n ∈ [1, 32],
    (loaded wide (List.replicate n 0x41)).stt.isBusy = false ∧ 1 ≤ (loaded wide (List.replicate n 0x41)).inLen
      ∧ (loaded wide (List.replicate n 0x41)).inLen ≤ (loaded wide (List.replicate n 0x41)).params.inCap := by decide +kernel

/-- One byte too many, and none. -/
theorem witness_FreqFails :
    (loaded wide (List.replicate 33 0x41)).params.inCap < (loaded wide (List.replicate 33 0x41)).inLen
      ∧ (loaded wide []).inLen = 0 ∧ (loaded wide []).stt.isBusy = false := by decide +kernel

theorem witness_BuildMakesAValidArena :
    Inv (upTo .freq 1 (aab wide)) ∧ (upTo .freq 1 (aab wide)).stt.isBusy = false
      ∧ (upTo .freq 1 (aab wide)).freq.valid = true := ⟨inv_counted, rfl, rfl⟩

theorem witness_BuildCombinesTheTwoLeastKeys :
    Inv (upTo .freq 1 (aab wide)) ∧ (upTo .freq 1 (aab wide)).stt.isBusy = false
      ∧ (upTo .freq 1 (aab wide)).freq.valid = true ∧ (upTo .freq 1 (aab wide)).freq.nsym ≤ 2 := ⟨inv_counted, rfl, rfl, le_rfl⟩

theorem witness_BuildOfOneSymbolIsALeaf :
    (upTo .freq 1 (aa wide)).stt.isBusy = false ∧ (upTo .freq 1 (aa wide)).freq.valid = true ∧ 0x41 < 256
      ∧ (upTo .freq 1 (aa wide)).count 0x41 ≠ 0 ∧ ∀ y < 256, y ≠ 0x41 → (upTo .freq 1 (aa wide)).count y = 0 := by
  have hc : ∀ x < 256, (upTo .freq 1 (aa wide)).count x = occurrences [0x41, 0x41] x := aa_count wide
  refine ⟨rfl, rfl, by decide, by rw [hc _ (by decide)]; decide, fun y hy hne => ?_⟩
  rw [hc y hy]
  have : ∀ y < 256, y ≠ 0x41 → occurrences [0x41, 0x41] y = 0 := by decide +kernel
  exact this y hy hne

theorem witness_SameTableSameTree :
    let s := upTo .freq 1 (aab wide)
    let s' := upTo .deser 1 (decoding wide [0xC0])
    s.stt.isBusy = false ∧ s'.stt.isBusy = false ∧ s.freq.valid = true ∧ s'.freq.valid = true
      ∧ (∀ x < 256, ∃ c, Store.read s.freq.freqt x = some c ∧ Store.read s'.freq.freqt x = some c)
      ∧ (∃ x < 256, s.count x ≠ 0) ∧ exec .build s = .next (after .build s) ∧ exec .build s' = .next (after .build s') := by
  refine ⟨rfl, rfl, rfl, rfl, fun x hx => ?_, ⟨0x61, by decide, ?_⟩, exec_after _ _, exec_after _ _⟩
  · have : ∀ x < 256, freqOf [(97, 2), (98, 1)] x = occurrences [0x61, 0x61, 0x62] x := by decide +kernel
    exact ⟨_, read_table _ hx, by rw [← this x hx]; exact read_table _ hx⟩
  · exact fun h => absurd ((aab_count wide 0x61 (by decide)).symm.trans h) (by decide)

theorem witness_HeapOperationsKeepTheHeap :
    Heap.Ordered [(1, 3), (2, 0), (2, 1)] ∧ (([(1, 3), (2, 0), (2, 1)] : Heap).map Prod.snd).Nodup
      ∧ ((1, 2) : Key).2 ∉ ([(1, 3), (2, 0), (2, 1)] : Heap).map Prod.snd ∧ ([(1, 3), (2, 0), (2, 1)] : Heap) ≠ [] := by
  refine ⟨fun k h1 h2 => ?_, by decide, by decide, by decide⟩
  have : ∀ k < 3, 0 < k → Key.before (Heap.at [(1, 3), (2, 0), (2, 1)] (Heap.parent k))
      (Heap.at [(1, 3), (2, 0), (2, 1)] k) = true := by decide
  exact this k h2 h1

theorem witness_AssignGivesLeafPaths :
    Inv (upTo .build 2 (aab wide)) ∧ (upTo .build 2 (aab wide)).stt.isBusy = false
      ∧ (upTo .build 2 (aab wide)).tree.valid = true ∧ 2 ≤ (upTo .build 2 (aab wide)).freq.nsym :=
  ⟨inv_built, rfl, rfl, le_rfl⟩

/-- Both clauses: two symbols, and one. -/
theorem witness_AssignedCodesArePrefixFree :
    (Inv (upTo .build 2 (aab wide)) ∧ (upTo .build 2 (aab wide)).tree.valid = true ∧ 2 ≤ (upTo .build 2 (aab wide)).freq.nsym)
      ∧ Inv (upTo .build 2 (aa wide)) ∧ (upTo .build 2 (aa wide)).stt.isBusy = false
      ∧ (upTo .build 2 (aa wide)).tree.valid = true ∧ (upTo .build 2 (aa wide)).freq.nsym = 1 :=
  ⟨⟨inv_built, rfl, le_rfl⟩, inv_built_single, rfl, rfl, rfl⟩

theorem witness_AssignOfALeafRoot :
    (upTo .build 2 (aa wide)).stt.isBusy = false ∧ (upTo .build 2 (aa wide)).tree.valid = true
      ∧ ((upTo .build 2 (aa wide)).node (upTo .build 2 (aa wide)).tree.root).kind = .leaf := ⟨rfl, rfl, rfl⟩

theorem witness_AssignedCodesMeetKraft :
    Inv (upTo .build 2 (aab wide)) ∧ (upTo .build 2 (aab wide)).stt.isBusy = false
      ∧ (upTo .build 2 (aab wide)).tree.valid = true ∧ 2 ≤ (upTo .build 2 (aab wide)).freq.nsym
      ∧ exec .assign (upTo .build 2 (aab wide)) = .next (after .assign (upTo .build 2 (aab wide))) :=
  ⟨inv_built, rfl, rfl, le_rfl, exec_after _ _⟩

theorem witness_PackStoresTheBitstream :
    let s := upTo .assign 3 (aab wide)
    Inv s ∧ s.stt.isBusy = false ∧ s.code.valid = true ∧ s.freq.origin = .enc
      ∧ ceil8 (s.inputBytes.flatMap fun b => (s.codeOf b.toNat).path).length ≤ s.params.payCap :=
  ⟨inv_assigned, rfl, rfl, rfl, by decide +kernel⟩

theorem witness_PackLengthIsTheSumOfCodeLengths :
    let s := upTo .assign 3 (aab wide)
    Inv s ∧ s.stt.isBusy = false ∧ s.code.valid = true ∧ s.freq.origin = .enc ∧ exec .pack s = .next (after .pack s)
      ∧ (after .pack s).pay.valid = true :=
  ⟨inv_assigned, rfl, rfl, rfl, exec_after _ _, by rw [test_pack_msb_first.2]; rfl⟩

/-- Nine bits of payload in a buffer of one byte. -/
theorem witness_PackFails :
    let s := upTo .assign 3 (onEncode tight [0x61, 0x61, 0x61, 0x61, 0x61, 0x61, 0x61, 0x61, 0x62] 2 2
      [⟨.leaf, 0x61, 0, 0, 8⟩, ⟨.leaf, 0x62, 0, 0, 1⟩, ⟨.internal, 0, 1, 0, 9⟩] [(0x62, [false]), (0x61, [true])] 0 [])
    s.stt.isBusy = false ∧ s.code.valid = true ∧ s.freq.origin = .enc
      ∧ s.params.payCap < ceil8 (symbols.map fun x => s.count x * (s.codeOf x).len).sum := by
  intro s
  refine ⟨rfl, rfl, rfl, ?_⟩
  have hi : s.inputBytes = [0x61, 0x61, 0x61, 0x61, 0x61, 0x61, 0x61, 0x61, 0x62] := loaded_inputBytes tight _
  have : s.codeStream.length = s.streamLength := codeStream_length fun x hx => by
    rw [hi]
    show (Store.read (countTable _) x).getD _ = _
    rw [countTable, read_table _ hx]; rfl
  show 1 < ceil8 s.streamLength
  rw [← this]
  decide +kernel

theorem witness_SerWritesTheArtifact :
    let s := upTo .pack 4 (aab wide)
    Inv s ∧ s.stt.isBusy = false ∧ s.pay.valid = true
      ∧ (headerText ((symbols.filter fun x => s.count x != 0).map fun x => (x, s.count x))).length + s.pay.payLen
        ≤ s.params.outCap := by
  intro s
  refine ⟨inv_packed, rfl, rfl, ?_⟩
  show (headerText (entriesOf s.count)).length + 1 ≤ 4000
  rw [entriesOf_congr (f := s.count) (aab_count wide)]
  decide +kernel

theorem witness_SerFails :
    (aab tight).stt.isBusy = false ∧ (aab tight).pay.valid = true
      ∧ (aab tight).params.outCap < (header (aab tight).freq.nsym (aab tight).count).length + (aab tight).pay.payLen := by
  refine ⟨rfl, rfl, ?_⟩
  rw [header_congr _ (aab_count tight)]
  decide +kernel

theorem valid_aab : ValidEntries (65535) [(97, 2), (98, 1)] := by constructor <;> decide

theorem witness_DeserParsesTheHeader :
    (loaded wide artifactAab).stt.isBusy = false ∧ (loaded wide artifactAab).inLen ≤ (loaded wide artifactAab).params.inCap
      ∧ ValidEntries (loaded wide artifactAab).params.cmax [(97, 2), (98, 1)]
      ∧ (loaded wide artifactAab).inputBytes = headerText [(97, 2), (98, 1)] ++ [0xC0] :=
  ⟨rfl, by decide, valid_aab, by rw [loaded_inputBytes]; decide +kernel⟩

/-- The count line `"0\n"`, and an input one byte too long. -/
theorem witness_DeserRejectsEverythingElse :
    ((loaded wide [0x30, 0x0A]).stt.isBusy = false ∧ (loaded wide [0x30, 0x0A]).inLen ≤ (loaded wide [0x30, 0x0A]).params.inCap
      ∧ ¬ ∃ entries payload, ValidEntries (loaded wide [0x30, 0x0A]).params.cmax entries
        ∧ (loaded wide [0x30, 0x0A]).inputBytes = headerText entries ++ payload)
      ∧ (loaded wide (List.replicate 33 0x30)).params.inCap < (loaded wide (List.replicate 33 0x30)).inLen := by
  refine ⟨⟨rfl, by decide, ?_⟩, by decide⟩
  rintro ⟨entries, payload, hv, hi⟩
  have h := parseHeader_text payload hv
  rw [← hi, loaded_inputBytes] at h
  have hn : parseHeader (loaded wide [0x30, 0x0A]).params.cmax [0x30, 0x0A] = none := by decide +kernel
  rw [hn] at h
  cases h

theorem witness_DeserReadsWhatSerWrites :
    Inv (aab wide) ∧ (aab wide).stt.isBusy = false ∧ (aab wide).pay.valid = true
      ∧ exec .ser (aab wide) = .next (after .ser (aab wide)) ∧ (after .ser (aab wide)).stt = .done
      ∧ (loaded wide artifactAab).stt.isBusy = false ∧ (loaded wide artifactAab).params = (aab wide).params
      ∧ (loaded wide artifactAab).inLen ≤ (loaded wide artifactAab).params.inCap
      ∧ (loaded wide artifactAab).inputBytes = (after .ser (aab wide)).outputBytes :=
  ⟨sound_aab.inv_of_idle rfl (by decide) (by decide), rfl, rfl, exec_after _ _, test_ser_artifact.2.1, rfl, rfl, by decide,
    by rw [loaded_inputBytes, test_ser_artifact.2.2]⟩

theorem witness_WalkEmitsTheLeavesReached :
    let s := decoding wide [0xC0]
    let steps : List (List Bool × Byte) := [([true], 0x61), ([true], 0x61), ([false], 0x62)]
    s.stt.isBusy = false ∧ s.tree.valid = true ∧ s.freq.origin = .dec ∧ (s.node s.tree.root).kind = .internal
      ∧ s.freq.total ≤ s.params.outCap ∧ (∀ e ∈ steps, LeafPath s.node s.tree.root e.1 e.2) ∧ steps.length = s.freq.total
      ∧ s.payloadBits = steps.flatMap Prod.fst ++ [false, false, false, false, false] := by
  unfold LeafPath; decide +kernel

theorem witness_WalkRunsOutOfBits :
    let s := decoding wide []
    s.stt.isBusy = false ∧ s.tree.valid = true ∧ s.freq.origin = .dec ∧ s.freq.total ≤ s.params.outCap
      ∧ (∀ e ∈ ([] : List (List Bool × Byte)), LeafPath s.node s.tree.root e.1 e.2)
      ∧ ([] : List (List Bool × Byte)).length < s.freq.total ∧ InnerPath s.node s.tree.root []
      ∧ s.payloadBits = ([] : List (List Bool × Byte)).flatMap Prod.fst ++ [] := by
  unfold LeafPath InnerPath; decide +kernel

theorem witness_WalkOfALeafRoot :
    let s := decodingAa wide []
    s.stt.isBusy = false ∧ s.tree.valid = true ∧ s.freq.origin = .dec ∧ (s.node s.tree.root).kind = .leaf
      ∧ s.freq.total ≤ s.params.outCap := by decide +kernel

theorem witness_WalkFailsOnCapacity :
    let s := decoding tight [0xC0]
    s.stt.isBusy = false ∧ s.tree.valid = true ∧ s.freq.origin = .dec ∧ s.params.outCap < s.freq.total := by decide +kernel

theorem witness_EncodeCompletes :
    let s := loaded wide [0x61, 0x62]
    s.params.wellFormed = true ∧ s.stt.isBusy = false ∧ 1 ≤ s.inLen ∧ s.inLen ≤ s.params.inCap
      ∧ 255 * s.inLen ≤ 8 * s.params.payCap
      ∧ s.params.payCap + (4 + 256 * (5 + (dec s.params.cmax).length)) ≤ s.params.outCap := by decide +kernel

/-- Both alternatives: one symbol, and two with their paths. -/
theorem witness_DecodeCompletes :
    ((loaded wide [0x31, 0x0A, 0x36, 0x35, 0x20, 0x32, 0x0A]).inputBytes = headerText [(65, 2)] ++ []
        ∧ ValidEntries (65535) [(65, 2)] ∧ [(65, 2)].length = 1)
      ∧ (loaded wide artifactAab).params.wellFormed = true ∧ (loaded wide artifactAab).stt.isBusy = false
      ∧ (loaded wide artifactAab).inLen ≤ (loaded wide artifactAab).params.inCap
      ∧ ValidEntries (loaded wide artifactAab).params.cmax [(97, 2), (98, 1)]
      ∧ (loaded wide artifactAab).inputBytes = headerText [(97, 2), (98, 1)] ++ [0xC0]
      ∧ ([(97, 2), (98, 1)].map Prod.snd).sum ≤ (loaded wide artifactAab).params.outCap
      ∧ PayloadPaths [(97, 2), (98, 1)] [0xC0] [([true], 0x61), ([true], 0x61), ([false], 0x62)] := by
  refine ⟨⟨by rw [loaded_inputBytes]; decide +kernel, by constructor <;> decide, rfl⟩, by decide, rfl, by decide, valid_aab,
    by rw [loaded_inputBytes]; decide +kernel, by decide,
    (decoding wide [0xC0]).node, [false, false, false, false, false], by decide +kernel, ?_, rfl, by decide +kernel⟩
  unfold LeafPath; decide +kernel

theorem witness_CompositeOutcomes :
    (aab wide).stt.isBusy = false ∧ exec .encode (aab wide) = .next (after .encode (aab wide))
      ∧ exec .decode (aab wide) = .next (after .decode (aab wide)) := ⟨rfl, exec_after _ _, exec_after _ _⟩

theorem witness_CompositeIsStepwise : (aab wide).stt.isBusy = false := rfl

/-- The same input in two cores with different histories. -/
theorem witness_CompositesDependOnTheInputAlone :
    (aab wide).stt.isBusy = false ∧ (loaded wide [0x61, 0x61, 0x62]).stt.isBusy = false
      ∧ (aab wide).params = (loaded wide [0x61, 0x61, 0x62]).params ∧ (aab wide).inLen = (loaded wide [0x61, 0x61, 0x62]).inLen
      ∧ (aab wide).inputBytes = (loaded wide [0x61, 0x61, 0x62]).inputBytes := ⟨rfl, rfl, rfl, rfl, rfl⟩

theorem witness_RoundTrip :
    let s := loaded wide [0x61, 0x62]
    let s' := loaded wide artifactAb
    s.params.wellFormed = true ∧ s.stt.isBusy = false ∧ exec .encode s = .next (after .encode s)
      ∧ (after .encode s).stt = .done ∧ s'.stt.isBusy = false ∧ s'.params = s.params
      ∧ s'.inputBytes = (after .encode s).outputBytes ∧ (after .encode s).out.outLen ≤ s.params.inCap
      ∧ s.inLen ≤ s.params.outCap := by
  refine ⟨by decide, rfl, exec_after _ _, test_encode_ab.1, rfl, rfl, ?_, ?_, by decide⟩
  · rw [loaded_inputBytes, test_encode_ab.2]
  · rw [← State.outputBytes_length, test_encode_ab.2]
    decide

theorem witness_ClearForgets : (aab wide).stt.isBusy = false := rfl

theorem witness_StepKeepsTheInvariant :
    Inv (upTo .freq 1 (aab wide))
      ∧ step (upTo .freq 1 (aab wide)) = .next (nextState (step (upTo .freq 1 (aab wide)))) := ⟨inv_counted, step_next _⟩

theorem witness_RegistersFitTheirWidths : Inv (upTo .pack 4 (aab wide)) := inv_packed

end Sys2Proof.Tests
end

section
/-! PROOFS. The family `10_state`: reset, registers, `Invalidate`, the input buffer, and the invariants (spec/10_state.md
R20 to R45). Each part has its lemmas first; the theorems that settle the obligations stand at the end. -/

namespace Sys2Proof.Machine

/-! ### The host's side (R21, R39, R60): what no command writes -/

/-- The bytes of `IBUF` as the core reads them follow from the buffer and the number of the reset. -/
theorem SameHostSide.of_fields {s t : State} (params : t.params = s.params) (inLen : t.inLen = s.inLen)
    (ibuf : t.ibuf = s.ibuf) (host : t.host = s.host) (replies : t.replies = s.replies) (tick : t.tick = s.tick)
    (fill : t.fill = s.fill) : SameHostSide s t :=
  { params, inLen, ibuf, host, replies, tick, fill, inByte := State.inByte_congr ibuf fill }

theorem SameHostSide.refl (s : State) : SameHostSide s s := .of_fields rfl rfl rfl rfl rfl rfl rfl

theorem SameHostSide.trans {s t u : State} (h : SameHostSide s t) (k : SameHostSide t u) : SameHostSide s u :=
  .of_fields (k.params.trans h.params) (k.inLen.trans h.inLen) (k.ibuf.trans h.ibuf) (k.host.trans h.host)
    (k.replies.trans h.replies) (k.tick.trans h.tick) (k.fill.trans h.fill)

theorem accept_sameHostSide (i : Instr) (n : Nat) (s : State) : SameHostSide s (s.accept i n) :=
  .of_fields rfl rfl rfl rfl rfl rfl rfl

theorem enterError_sameHostSide (e : ErrCode) (s : State) : SameHostSide s (s.enterError e) :=
  .of_fields rfl rfl rfl rfl rfl rfl rfl

theorem invalidate_sameHostSide (l : Level) (s : State) : SameHostSide s (s.invalidate l) :=
  .of_fields rfl rfl rfl rfl rfl rfl rfl

theorem startUnit_sameHostSide (u : UnitOp) (s : State) : SameHostSide s (s.startUnit u) :=
  .of_fields rfl rfl rfl rfl rfl rfl rfl

theorem setFlag_sameHostSide (l : Level) (s : State) : SameHostSide s (s.setFlag l) := by
  apply SameHostSide.of_fields <;> simp

theorem SameBut.sameHostSide {l : Level} {s t : State} (h : SameBut l s t) : SameHostSide s t := by
  cases l <;> (simp only [SameBut] at h; rw [h]; exact .of_fields rfl rfl rfl rfl rfl rfl rfl)

theorem endCommand_sameHostSide (r : State × Option ErrCode) : SameHostSide r.1 (endCommand r) := by
  obtain ⟨s, _ | e⟩ := r <;> exact .of_fields rfl rfl rfl rfl rfl rfl rfl

theorem runUnit_sameHostSide (u : UnitOp) (s : State) : SameHostSide s (runUnit u (unitBody u) s).1 := by
  rcases runUnit_cases u s with ⟨t, -, hf, he⟩ | ⟨e, -, he⟩ <;> rw [he]
  · exact (startUnit_sameHostSide u s).trans (hf.sameHostSide.trans (setFlag_sameHostSide u.level t))
  · exact startUnit_sameHostSide u s

theorem runPath_sameHostSide (us : List UnitOp) (s : State) : SameHostSide s (runPath us s).1 := by
  induction us generalizing s with
  | nil => exact .refl s
  | cons u us ih =>
    have hu := runUnit_sameHostSide u s
    rw [runPath_cons]
    generalize runUnit u (unitBody u) s = r at hu
    obtain ⟨t, _ | e⟩ := r
    · exact hu.trans (ih t)
    · exact hu

/-- Coming to its end, a command leaves the host's side (R192 to R195). -/
theorem finish_sameHostSide (i : Instr) (s : State) : SameHostSide s (finish i s) := by
  by_cases hc : i = .clear
  · subst hc
    exact .of_fields rfl rfl rfl rfl rfl rfl rfl
  · rw [finish_eq_runPath hc]
    exact (runPath_sameHostSide (path i) s).trans (endCommand_sameHostSide _)

theorem exec_sameHostSide {i : Instr} {s t : State} (h : exec i s = .next t) : SameHostSide s t := by
  rcases exec_cases i h with ⟨-, rfl⟩ | ⟨-, -, rfl⟩ | ⟨-, -, rfl⟩
  · exact .refl t
  · exact enterError_sameHostSide .sequence s
  · exact (accept_sameHostSide i 0 s).trans (finish_sameHostSide i _)

/-- A command word presented to a core that is not busy leaves the host's side, whatever the word is (R190). -/
theorem present_sameHostSide {w : CmdWord} {n : Nat} {s t : State} (hb : s.stt.isBusy = false)
    (h : s.present w n = .next t) : SameHostSide s t := by
  rcases present_cases w n hb with he | he | ⟨i, -, -, ⟨-, he⟩ | ⟨-, he⟩⟩ <;> rw [he] at h <;> cases h
  · exact enterError_sameHostSide .illegalCommand s
  · exact enterError_sameHostSide .sequence s
  · exact (accept_sameHostSide i 0 s).trans (finish_sameHostSide i _)
  · exact accept_sameHostSide i n s

/-! ### `IBUF` under the host's transactions (R39, R61, R64) -/

/-- A host write to `IBUF` leaves the bytes at the other addresses. -/
theorem writeInput_read_other (s : State) {a c : Nat} (b : Byte) (h : c ≠ a) :
    Store.read (s.writeInput a b).ibuf c = Store.read s.ibuf c := by
  unfold State.writeInput
  split
  · exact Store.read_write_other s.ibuf b h
  · rfl

/-- Of the transactions to a core that is not busy, only `Reset` and a write to the address touch a byte of `IBUF`. -/
theorem serve_read_ibuf {op : HostOp} {s t : State} {a : Nat} (hb : s.stt.isBusy = false) (h : s.serve op = .next t)
    (hr : op.txn ≠ .reset) (hw : ∀ c, op.txn ≠ .memWrite .ibuf a c) : Store.read t.ibuf a = Store.read s.ibuf a := by
  rcases serve_cases op s with ⟨r, he⟩ | ⟨v, -, he⟩ | ⟨v, he⟩ | ⟨c, b, ht, he⟩ | ⟨ht, -⟩ | he
  · rw [he] at h; cases h; rfl
  · rw [he] at h
    rw [(present_sameHostSide hb h).ibuf]
  · rw [he] at h; cases h; rfl
  · rw [he] at h; cases h
    exact writeInput_read_other s b fun hc => hw b (hc ▸ ht)
  · exact absurd ht hr
  · rw [he] at h; cases h; rfl

/-- Of the transactions to a busy core, only `Reset` touches `IBUF` (R63). -/
theorem serveBusy_ibuf (op : HostOp) (s : State) (hr : op.txn ≠ .reset) : (s.serveBusy op).ibuf = s.ibuf := by
  rcases serveBusy_cases op s with ⟨r, he⟩ | ⟨ht, -⟩ | he
  · rw [he]; rfl
  · exact absurd ht hr
  · rw [he]

/-- One step keeps a byte of `IBUF` that its transaction neither resets nor writes (R39). -/
theorem step_read_ibuf {s t : State} {a : Nat} (h : step s = .next t)
    (hop : ∀ op rest, s.host = op :: rest → op.txn ≠ .reset ∧ ∀ c, op.txn ≠ .memWrite .ibuf a c) :
    Store.read t.ibuf a = Store.read s.ibuf a := by
  rcases step_cases h with ⟨cmd, n, -, -, rfl⟩ | ⟨cmd, n, op, rest, -, hh, rfl⟩ | ⟨-, -, rfl⟩ | ⟨op, rest, hb, hh, he⟩
  · rw [(finish_sameHostSide cmd s).ibuf]
  · rw [serveBusy_ibuf op _ (hop op rest hh).1]
  · rfl
  · exact serve_read_ibuf (s := { s with host := rest }) hb he (hop op rest hh).1 (hop op rest hh).2

/-! ### The invariants under each event (R45) -/

theorem Sound.recast {s : State} (h : Sound s) (a : RunState) (b : Option ErrCode) (c : List HostOp) (d : List Reply)
    (n : Nat) : Sound (s.recast a b c d n) :=
  h.congr rfl rfl rfl rfl rfl rfl rfl rfl rfl

theorem prereq_accept (i j : Instr) (n : Nat) (s : State) : (s.accept i n).prereq j = s.prereq j := by
  cases j <;> rfl

/-- An error that a rule of the core raises (R200, R202, R208). -/
theorem Inv.enterError {s : State} (h : Inv s) {e : ErrCode} (he : e ≠ .ioUnavailable) : Inv (s.enterError e) :=
  Sound.inv_of_idle (h.sound.recast .error (some e) s.host s.replies s.tick) rfl ⟨fun _ => nofun, fun _ => rfl⟩
    fun hc => he (Option.some.inj hc)

/-- A command that is left running has its prerequisite (R190, R191). -/
theorem Inv.accept {s : State} (h : Inv s) {i : Instr} (hp : s.prereq i = true) (n : Nat) : Inv (s.accept i n) := by
  refine Sound.inv (h.sound.recast (.busy i n) none s.host s.replies s.tick) ⟨nofun, fun hc => absurd rfl hc⟩ nofun ?_
  intro cmd window hc
  cases hc
  exact (prereq_accept i i n s).trans hp

/-- A command that ends at once (R190, R196). -/
theorem Inv.finish_accept {s : State} (h : Inv s) {i : Instr} (hp : s.prereq i = true) (n : Nat) :
    Inv (finish i (s.accept i n)) :=
  Inv.of_finish (h.accept hp n).sound ((prereq_accept i i n s).trans hp) rfl

theorem Inv.reply {s : State} (h : Inv s) (r : Reply) : Inv (s.reply r) := h.port s.host (r :: s.replies) (s.tick + 1)

theorem inv_resetCore {s : State} (h : s.params.wellFormed = true) : Inv s.resetCore :=
  (Sound.resetCore h).inv_of_idle rfl ⟨nofun, fun hc => absurd rfl hc⟩ nofun

theorem Inv.writeInLen {s : State} (h : Inv s) (hb : s.stt.isBusy = false) (v : Nat) : Inv (s.writeInLen v) :=
  (h.sound.writeInLen v).inv_of_idle hb h.error_iff h.err_raised

/-- `STATE` and `ERR` stay under a host write to `IBUF` (R64). -/
theorem writeInput_control (a : Nat) (b : Byte) (s : State) :
    (s.writeInput a b).stt = s.stt ∧ (s.writeInput a b).err = s.err := by
  unfold State.writeInput
  split <;> exact ⟨rfl, rfl⟩

theorem Inv.writeInput {s : State} (h : Inv s) (hb : s.stt.isBusy = false) (a : Nat) (b : Byte) :
    Inv (s.writeInput a b) := by
  obtain ⟨hs, he⟩ := writeInput_control a b s
  exact (h.sound.writeInput a b).inv_of_idle (hs ▸ hb) (by rw [hs, he]; exact h.error_iff) (he ▸ h.err_raised)

theorem Inv.present {s t : State} (h : Inv s) (hb : s.stt.isBusy = false) {w : CmdWord} {n : Nat}
    (ht : s.present w n = .next t) : Inv t := by
  rcases present_cases w n hb with he | he | ⟨i, -, hp, ⟨-, he⟩ | ⟨-, he⟩⟩ <;> rw [he] at ht <;> cases ht
  · exact h.enterError nofun
  · exact h.enterError nofun
  · exact h.finish_accept hp 0
  · exact h.accept hp n

/-- A transaction to a core that is not busy keeps the invariants. -/
theorem Inv.serve {s t : State} (h : Inv s) (hb : s.stt.isBusy = false) {op : HostOp} (ht : s.serve op = .next t) :
    Inv t := by
  rcases serve_cases op s with ⟨r, he⟩ | ⟨v, -, he⟩ | ⟨v, he⟩ | ⟨a, b, -, he⟩ | ⟨-, he⟩ | he <;> rw [he] at ht
  · cases ht; exact h.reply r
  · exact h.present hb ht
  · cases ht; exact h.writeInLen hb v
  · cases ht; exact h.writeInput hb a b
  · cases ht; exact inv_resetCore h.params
  · cases ht; exact h

/-- A transaction to a busy core keeps the invariants (R63). -/
theorem Inv.serveBusy {s : State} (h : Inv s) (op : HostOp) : Inv (s.serveBusy op) := by
  rcases serveBusy_cases op s with ⟨r, he⟩ | ⟨-, he⟩ | he <;> rw [he]
  · exact h.reply r
  · exact inv_resetCore h.params
  · exact h

/-- The running command, with one transaction fewer to land before it ends. -/
theorem Inv.shorten {s : State} (h : Inv s) {cmd : Instr} {m : Nat} (hs : s.stt = .busy cmd m) (n : Nat) :
    Inv { s with stt := .busy cmd n } := by
  have he : s.err = none := h.err_of_busy (by rw [hs]; rfl)
  have hacc := h.accept (h.running cmd m hs) n
  rwa [State.accept, ← he] at hacc

theorem Inv.step {s t : State} (h : Inv s) (ht : step s = .next t) : Inv t := by
  rcases step_cases ht with ⟨cmd, n, hs, -, rfl⟩ | ⟨cmd, n, op, rest, hs, -, rfl⟩ | ⟨-, -, rfl⟩ | ⟨op, rest, hb, -, he⟩
  · exact Inv.of_finish h.sound (h.running cmd n hs) (h.err_of_busy (by rw [hs]; rfl))
  · exact ((h.shorten hs n).port rest s.replies s.tick).serveBusy op
  · exact h
  · exact (h.port rest s.replies s.tick).serve hb he

/-! ### `STATUS` (R23) -/

theorem RunState.number_lt (r : RunState) : r.number < 4 := by cases r <;> simp [RunState.number]

theorem Origin.number_eq_toNat (o : Origin) : o.number = (o == .dec).toNat := by cases o <;> rfl

theorem phaseNumber_lt (p : Option UnitOp) : phaseNumber p < 8 := by
  rcases p with _ | u
  · decide
  · cases u <;> decide

/-- The fields of `STATUS` do not overlap: the sum of R23 fits the word. -/
theorem State.status_toNat (s : State) :
    s.status.toNat = s.stt.number + 4 * s.freq.valid.toNat + 8 * s.tree.valid.toNat + 16 * s.code.valid.toNat
      + 32 * s.pay.valid.toNat + 64 * s.out.valid.toNat + 128 * (s.freq.origin == .dec).toNat
      + 256 * phaseNumber s.phase := by
  have hs := s.stt.number_lt
  have hp := phaseNumber_lt s.phase
  have h0 := s.freq.valid.toNat_le
  have h1 := s.tree.valid.toNat_le
  have h2 := s.code.valid.toNat_le
  have h3 := s.pay.valid.toNat_le
  have h4 := s.out.valid.toNat_le
  have ho := (s.freq.origin == .dec).toNat_le
  rw [State.status, BitVec.toNat_ofNat, Origin.number_eq_toNat, Nat.mod_eq_of_lt (by omega)]

/-- A bit of a word, from the word's value. -/
theorem getLsbD_eq_of_div {n : Nat} {w : BitVec n} {k : Nat} {b : Bool} (h : w.toNat / 2 ^ k % 2 = b.toNat) :
    w.getLsbD k = b := by
  rw [← BitVec.testBit_toNat, Nat.testBit_eq_decide_div_mod_eq, h]
  cases b <;> rfl

/-- A field of a word, from the word's value. -/
theorem extractLsb'_eq_of_div {n : Nat} {w : BitVec n} {k l v : Nat} (h : w.toNat / 2 ^ k % 2 ^ l = v % 2 ^ l) :
    w.extractLsb' k l = BitVec.ofNat l v := by
  apply BitVec.eq_of_toNat_eq
  rw [BitVec.extractLsb'_toNat, Nat.shiftRight_eq_div_pow, h, BitVec.toNat_ofNat]

/-! ### A core with nothing in it (R44) -/

/-- Registers 0, `STATE = IDLE`, no error, contents unspecified. -/
structure Blank (s : State) : Prop where
  stt : s.stt = .idle
  phase : s.phase = none
  err : s.err = none
  inLen : s.inLen = 0
  ibuf : s.ibuf = []
  levels : InvalidFrom 0 s

theorem blank_resetCore (s : State) : Blank s.resetCore :=
  ⟨rfl, rfl, rfl, rfl, rfl, fun _ => rfl, fun _ => rfl, fun _ => rfl, fun _ => rfl, fun _ => rfl⟩

/-- The state after reset is one that `Reset` leaves: of a core with the suggested parameters (R7), an empty host port
and the counter of free values at 0 (log 2, 4). -/
theorem reset_eq_resetCore : State.reset = ({ State.reset with tick := 0 } : State).resetCore := rfl

/-- With `STATE = IDLE`, no `PHASE` and every level invalid, `STATUS` is 0 (R23, R44). -/
theorem status_of_invalid {s : State} (hs : s.stt = .idle) (hp : s.phase = none) (h : InvalidFrom 0 s) :
    s.status = 0x0000 := by
  obtain ⟨hf, ht, hc, hy, ho⟩ := h
  unfold State.status
  rw [hs, hp, hf (Nat.zero_le _), ht (Nat.zero_le _), hc (Nat.zero_le _), hy (Nat.zero_le _), ho (Nat.zero_le _)]
  rfl

theorem Blank.status {s : State} (h : Blank s) : s.status = 0x0000 := status_of_invalid h.stt h.phase h.levels

theorem Blank.regValue {s : State} (h : Blank s) (n : BitVec 8) : s.regValue n = 0 := by
  obtain ⟨hf, ht, -, hy, ho⟩ := h.levels
  unfold State.regValue
  rw [h.status, h.err, h.inLen, hf (Nat.zero_le _), ht (Nat.zero_le _), hy (Nat.zero_le _), ho (Nat.zero_le _)]
  split <;> rfl

theorem Blank.specified {s : State} (h : Blank s) (sp : Space) (a : Nat) : s.specified sp a = none := by
  obtain ⟨hf, ht, hc, hy, ho⟩ := h.levels
  cases sp
  case ibuf => simp [State.specified, h.ibuf]
  case obuf => simp [State.specified, ho, OutLevel.invalid]
  case pbuf => simp [State.specified, hy, PayLevel.invalid]
  case freqt => simp [State.specified, hf, FreqLevel.invalid]
  case nodet => simp [State.specified, ht, TreeLevel.invalid]
  case codet => simp [State.specified, hc, CodeLevel.invalid]

/-! ### The register file (R21) -/

/-- A reserved register number reads 0. -/
theorem regValue_reserved (s : State) {n : BitVec 8} (h : 0x0C ≤ n.toNat) : s.regValue n = 0 := by
  unfold State.regValue
  split <;> omega

/-- No number of `ERR` is above 6 (R200). -/
theorem errNumber_le (e : Option ErrCode) : errNumber e ≤ 6 := by
  rcases e with _ | e
  · decide
  · cases e <;> decide

/-- A value up to `CMAX` has `CNT_W` bits (R7). -/
theorem lt_of_le_cmax {p : Params} {v : Nat} (h : v ≤ p.cmax) : v < 2 ^ p.cntW := by
  have := Nat.two_pow_pos p.cntW
  unfold Params.cmax at h
  omega

/-- What fits `OBUF` or `PBUF` is countable (R7); for `IBUF` see `Sound.inCap_le`. -/
theorem capacities_le_cmax {p : Params} (h : p.wellFormed = true) : p.outCap ≤ p.cmax ∧ p.payCap ≤ p.cmax := by
  simp only [Params.wellFormed, Params.outCapOk, Params.payCapOk, Bool.and_eq_true, decide_eq_true_eq] at h
  obtain ⟨⟨-, -, hout⟩, -, hpay⟩ := h
  exact ⟨hout, hpay⟩

/-- `TOTAL`, `NSYM` and `PAY_OFF` under the invariants (R27 to R29). -/
theorem Inv.freq_registers {s : State} (h : Inv s) :
    s.freq.total ≤ s.params.cmax ∧ s.freq.nsym ≤ 256 ∧ s.freq.payOff ≤ s.params.cmax := by
  cases hv : s.freq.valid with
  | false =>
    rw [h.freq_cleared hv]
    exact ⟨Nat.zero_le _, Nat.zero_le _, Nat.zero_le _⟩
  | true =>
    have hF := h.freq hv
    refine ⟨hF.total_range.2, hF.nsym_range.2, ?_⟩
    cases ho : s.freq.origin with
    | enc => rw [(hF.counted ho).2.2]; exact Nat.zero_le _
    | dec => exact (hF.parsed ho).2.trans h.inLen

/-- `ROOT` and `NNODES` under the invariants (R30, R31): a tree of at most 256 leaves. -/
theorem Inv.tree_registers {s : State} (h : Inv s) : s.tree.root < nodeMax ∧ s.tree.nnodes ≤ nodeMax := by
  cases hv : s.tree.valid with
  | false =>
    rw [h.tree_cleared hv]
    decide
  | true =>
    have hT := h.tree hv
    have hn := (h.freq (h.tree_needs_freq hv)).nsym_range.2
    rw [hT.root, hT.nnodes, nodeMax]
    omega

/-- `NBITS` and `PAY_LEN` under the invariants (R32, R33): the payload fits `PBUF`. -/
theorem Inv.pay_registers {s : State} (h : Inv s) :
    s.pay.nbits ≤ 8 * s.params.cmax ∧ s.pay.payLen ≤ s.params.cmax := by
  cases hv : s.pay.valid with
  | false =>
    rw [h.pay_cleared hv]
    exact ⟨Nat.zero_le _, Nat.zero_le _⟩
  | true =>
    obtain ⟨hlen, hcap⟩ := (h.pay hv).payLen
    have hle := hcap.trans (capacities_le_cmax h.params).2
    rw [ceil8] at hlen
    omega

/-- `OUT_LEN` under the invariants (R26): the output fits `OBUF`. -/
theorem Inv.out_register {s : State} (h : Inv s) : s.out.outLen ≤ s.params.cmax := by
  cases hv : s.out.valid with
  | false => rw [h.out_cleared hv]; exact Nat.zero_le _
  | true => exact (h.out hv).outLen.trans (capacities_le_cmax h.params).1

/-- A value of eight times `CMAX` has `NB_W` bits (R7). -/
theorem lt_of_le_eight_cmax {p : Params} {v : Nat} (h : v ≤ 8 * p.cmax) : v < 2 ^ p.nbW := by
  have hc := lt_of_le_cmax (le_refl p.cmax)
  rw [Params.nbW, pow_add]
  omega

/-- Under the invariants every register holds a value of its width (R21). -/
theorem Inv.regValue_lt {s : State} (h : Inv s) (n : BitVec 8) : s.regValue n < 2 ^ regWidth s.params n := by
  obtain ⟨htotal, hnsym, hpayOff⟩ := h.freq_registers
  obtain ⟨hroot, hnnodes⟩ := h.tree_registers
  obtain ⟨hnbits, hpayLen⟩ := h.pay_registers
  have herr := errNumber_le s.err
  rw [nodeMax] at hroot hnnodes
  unfold State.regValue regWidth
  split
  · decide
  · exact s.status.isLt
  · exact herr.trans_lt (by decide)
  · exact lt_of_le_cmax h.inLen
  · exact lt_of_le_cmax h.out_register
  · exact lt_of_le_cmax htotal
  · exact hnsym.trans_lt (by decide)
  · exact lt_of_le_cmax hpayOff
  · exact hroot.trans (by decide)
  · exact hnnodes.trans_lt (by decide)
  · exact lt_of_le_eight_cmax hnbits
  · exact lt_of_le_cmax hpayLen
  · exact Nat.two_pow_pos _

/-! ### The statements of the family -/

/-- Settles O59: each event at the host port keeps the invariants (`Inv.step`). -/
theorem stepKeepsTheInvariant : Obligations.StepKeepsTheInvariant := by
  unfold Obligations.StepKeepsTheInvariant
  exact fun _ _ h ht => h.step ht

/-- Settles O12: the fields of `STATUS` do not overlap, so each is read back from the sum by a division. -/
theorem statusFields : Obligations.StatusFields := by
  unfold Obligations.StatusFields
  intro s
  have hw := s.status_toNat
  have hs := s.stt.number_lt
  have hp := phaseNumber_lt s.phase
  have h0 := s.freq.valid.toNat_le
  have h1 := s.tree.valid.toNat_le
  have h2 := s.code.valid.toNat_le
  have h3 := s.pay.valid.toNat_le
  have h4 := s.out.valid.toNat_le
  have ho := (s.freq.origin == .dec).toNat_le
  refine ⟨extractLsb'_eq_of_div ?_, getLsbD_eq_of_div ?_, getLsbD_eq_of_div ?_, getLsbD_eq_of_div ?_,
    getLsbD_eq_of_div ?_, getLsbD_eq_of_div ?_, getLsbD_eq_of_div ?_, extractLsb'_eq_of_div ?_,
    extractLsb'_eq_of_div (v := 0) ?_⟩ <;> rw [hw] <;> omega

/-- Settles O18: no event but the two that R39 names touches the byte (`step_read_ibuf`). -/
theorem writtenInputByteIsKept : Obligations.WrittenInputByteIsKept := by
  unfold Obligations.WrittenInputByteIsKept
  intro s t a b h hb hop
  have hread : Store.read t.ibuf a = some b := (step_read_ibuf h hop).trans hb
  exact ⟨hread, by rw [State.inByte, hread]; rfl⟩

/-- Settles O23: every unit writes its own level only, and acceptance and the command's end write `STATE` and `ERR`. -/
theorem commandsKeepTheInput : Obligations.CommandsKeepTheInput := by
  unfold Obligations.CommandsKeepTheInput
  exact fun _ _ _ h => exec_sameHostSide h

/-- Settles O60: each register is bounded by a capacity, by `IN_LEN` or by the 256 symbols (`Inv.regValue_lt`). -/
theorem registersFitTheirWidths : Obligations.RegistersFitTheirWidths := by
  unfold Obligations.RegistersFitTheirWidths
  exact fun _ n h => h.regValue_lt n

/-- Settles O11: the state after reset is one that `Reset` leaves, which is blank. -/
theorem resetState : Obligations.ResetState := by
  unfold Obligations.ResetState
  rw [reset_eq_resetCore]
  have h := blank_resetCore { State.reset with tick := 0 }
  exact ⟨h.stt, h.status, h.err, h.phase, h.inLen, h.levels, h.regValue, h.specified⟩

/-- Settles O13: the read replies with the register's value, number by number. -/
theorem registerReads : Obligations.RegisterReads := by
  unfold Obligations.RegisterReads
  intro s n k rest hb hh
  refine ⟨s.regValue n, step_txn hb hh, ?_, ?_, ?_, ?_, ?_, ?_, ?_, ?_, ?_, ?_, ?_, ?_, regValue_reserved s⟩ <;>
    (intro hn; subst hn; rfl)

/-- Settles O17: `IBUF` is the one space, and `CMD` and `IN_LEN` are the two registers, that a write reaches. -/
theorem readOnlyWritesAreIgnored : Obligations.ReadOnlyWritesAreIgnored := by
  unfold Obligations.ReadOnlyWritesAreIgnored
  intro s k rest hb
  constructor
  · intro sp a b hh hsp
    rw [step_txn hb hh]
    exact if_neg hsp
  · intro n v hh hcmd hinLen
    rw [step_txn hb hh]
    exact (if_neg hcmd).trans (if_neg hinLen)

/-- Settles O22, level by level. -/
theorem invalidateClearsLevelsFrom : Obligations.InvalidateClearsLevelsFrom := by
  unfold Obligations.InvalidateClearsLevelsFrom
  intro l s
  refine ⟨?_, ?_, invalidate_sameHostSide l s, rfl, rfl, rfl, rfl⟩
  · cases l <;> simp [InvalidFrom, Level.index, State.invalidate, State.invalidateRange]
  · cases l <;> simp [SameBelow, Level.index, State.invalidate, State.invalidateRange]

/-- Settles O58: a reset keeps the invariants, and the suggested parameters are legal (R7). -/
theorem invariantAtReset : Obligations.InvariantAtReset := by
  unfold Obligations.InvariantAtReset
  rw [reset_eq_resetCore]
  exact inv_resetCore (by decide)

end Sys2Proof.Machine
end

section
/-! PROOFS. The family `20_memory`: the host's transactions while the core is not busy and while it is, and the window
of a running command (spec/20_memory.md R60 to R64). Each part has its lemmas first; the theorems that settle the
obligations stand at the end. -/

namespace Sys2Proof.Machine

/-! ### A command and its window (R61, R190, R196) -/

/-- A prerequisite does not look at the host's queue (R191). -/
theorem prereq_host (i : Instr) (ops : List HostOp) (s : State) :
    ({ s with host := ops } : State).prereq i = s.prereq i := by
  cases i <;> rfl

/-- A legal word written to `CMD`, with no transaction to land while its command runs, is `exec` of that command. -/
theorem step_cmd_now {s : State} {v : Nat} {i : Instr} {rest : List HostOp} (hb : s.stt.isBusy = false)
    (hh : s.host = ⟨.regWrite regCMD v, 0⟩ :: rest) (hd : decodeWord (BitVec.ofNat 8 v) = .ok i) :
    step s = exec i { s with host := rest } :=
  (step_txn hb hh).trans (present_now hd _)

/-- An accepted command with transactions to land before its end is left running (R190, R196). -/
theorem step_cmd_later {s : State} {v n : Nat} {i : Instr} {rest : List HostOp} (hb : s.stt.isBusy = false)
    (hh : s.host = ⟨.regWrite regCMD v, n⟩ :: rest) (hd : decodeWord (BitVec.ofNat 8 v) = .ok i) (hn : n ≠ 0)
    (hp : s.prereq i = true) : step s = .next (({ s with host := rest } : State).accept i n) := by
  rw [step_txn hb hh]
  exact present_later hd hn ((prereq_host i rest s).trans hp)

/-- The host's question about a word of 8 bits is the decoder's answer for its low byte (R61, R90). -/
theorem decodeWord_of_tableWord {w : Nat} {i : Instr} (h : decodeTableWord 8 w = some i) :
    decodeWord (BitVec.ofNat 8 (w % 2 ^ 8)) = .ok i := by
  have hbytes : tableBytes 8 w = [BitVec.ofNat 8 (w % 2 ^ 8)] := by simp [tableBytes]
  rw [decodeTableWord, hbytes, decode] at h
  cases hd : decodeWord (BitVec.ofNat 8 (w % 2 ^ 8)) with
  | error e =>
    rw [hd] at h
    cases h
  | ok j =>
    rw [hd] at h
    cases h
    rfl

theorem withFetchWord_of_idle {s : State} (hb : s.stt.isBusy = false) (nbits w : Nat) :
    s.withFetchWord nbits w = { s with host := ⟨.regWrite regCMD (w % 2 ^ nbits), 0⟩ :: s.host } := by
  cases hs : s.stt with
  | busy cmd n => rw [hs] at hb; cases hb
  | _ => simp [State.withFetchWord, hs]

/-- A word fetched while the core is busy is a write to `CMD` that lands while it is, and is ignored (R63). -/
theorem step_withFetchWord_of_busy {s : State} {cmd : Instr} {n : Nat} (hs : s.stt = .busy cmd n) (nbits w : Nat) :
    step (s.withFetchWord nbits w) = .next s := by
  have hbusy : (s.withFetchWord nbits w).stt = .busy cmd (n + 1) := by simp [State.withFetchWord, hs]
  rw [step_busy_txn hbusy rfl]
  change Host.Outcome.next { s with stt := .busy cmd n } = .next s
  rw [← hs]

/-- What the host has read by the end of a command makes no difference to the command: it stays beside the result (R63,
R196). -/
theorem finish_accept_replies (i : Instr) (s : State) (replies : List Reply) (tick : Nat) :
    finish i { s.accept i 0 with replies := replies, tick := tick }
      = { finish i (s.accept i 0) with replies := replies, tick := tick } := by
  have hhost : (finish i (s.accept i 0)).host = s.host := (finish_sameHostSide i _).host
  refine (finish_recast i (s.accept i 0) (.busy i 0) s.host replies tick rfl).trans ?_
  rw [← hhost]

/-- The window of a running command, from its acceptance to its end (R63, R196): after the transactions `ops` and the
end of the command, the core is as if the command had ended at once, and the host has a reply for each of its reads. -/
theorem run_window (i : Instr) (s : State) {ops : List HostOp} (rest : List HostOp) (hr : ∀ op ∈ ops, op.txn ≠ .reset) :
    ∃ new : List Reply, new.length = ops.countP (fun op => op.txn.isRead)
      ∧ Sys2Proof.core.run (ops.length + 1) (({ s with host := ops ++ rest } : State).accept i ops.length)
        = .next { finish i (({ s with host := rest } : State).accept i 0) with
            replies := new ++ s.replies, tick := s.tick + new.length } := by
  obtain ⟨new, hnew, hwindow⟩ :=
    busy_run i rest 1 ops (({ s with host := ops ++ rest } : State).accept i ops.length) rfl rfl hr
  refine ⟨new, hnew, hwindow.trans ?_⟩
  rw [← finish_accept_replies]
  exact run_next (M := Sys2Proof.core) 0 (step_busy_end (n := 0)
    (s := { ({ s with host := rest } : State).accept i 0 with
      replies := new ++ s.replies, tick := s.tick + new.length }) rfl (.inl rfl))

/-! ### Reads and writes (R61 to R64) -/

/-- `STATUS` as the host reads it while the core is busy: 16 bits, of which the lowest two are 1 (R63). -/
theorem busyRegValue_status (s : State) : s.busyRegValue regSTATUS % 4 = 1 ∧ s.busyRegValue regSTATUS < 2 ^ 16 := by
  have hfree := Nat.mod_lt (Config.freeRead s.tick 0) (Nat.two_pow_pos 14)
  rw [State.busyRegValue, if_pos rfl]
  omega

theorem unitValue_out_of_range {s : State} {sp : Space} {a : Nat} (h : sp.size s.params ≤ a) :
    s.unitValue sp a = sp.zero := if_neg (not_lt.mpr h)

theorem unitValue_specified {s : State} {sp : Space} {a : Nat} {e : Datum} (ha : a < sp.size s.params)
    (he : s.specified sp a = some e) : s.unitValue sp a = e := by
  rw [State.unitValue, if_pos ha, he, Option.getD_some]

theorem writeInput_in_range {s : State} {a : Nat} (b : Byte) (ha : a < s.params.inCap) :
    s.writeInput a b = ({ s with ibuf := Store.write s.ibuf a b } : State).invalidateInput := if_pos ha

theorem writeInput_out_of_range {s : State} {a : Nat} (b : Byte) (ha : s.params.inCap ≤ a) :
    s.writeInput a b = s := if_neg (not_lt.mpr ha)

/-- A write in range touches `IBUF` and levels 0 to 3 only (R64). -/
theorem writeInput_invalidates {s : State} {a : Nat} (b : Byte) (ha : a < s.params.inCap) :
    s.writeInput a b = { s with
      ibuf := (s.writeInput a b).ibuf, freq := .invalid, tree := .invalid, code := .invalid, pay := .invalid } := by
  rw [writeInput_in_range b ha]
  rfl

/-- A value up to `CMAX` is stored whole, and levels 0 to 3 become invalid (R25, R64). -/
theorem writeInLen_of_le_cmax {s : State} {v : Nat} (hv : v ≤ s.params.cmax) :
    s.writeInLen v = { s with
      inLen := v, freq := .invalid, tree := .invalid, code := .invalid, pay := .invalid } := by
  rw [State.writeInLen, Nat.mod_eq_of_lt (lt_of_le_cmax hv)]
  rfl

/-- The byte that the core then reads at the address is the byte written (R39, R64). -/
theorem writeInput_inByte {s : State} {a : Nat} (b : Byte) (ha : a < s.params.inCap) :
    (s.writeInput a b).inByte a = b := by
  rw [writeInput_in_range b ha, State.inByte, State.invalidateInput_ibuf, Store.read_write_same, Option.getD_some]

/-- A write out of range is ignored: in `IBUF` by the test of the address, elsewhere as every write is (R61, R62). -/
theorem serve_memWrite_out_of_range {s : State} {sp : Space} {a : Nat} (b : Byte) (k : Nat) (h : sp.size s.params ≤ a) :
    s.serve ⟨.memWrite sp a b, k⟩ = .next s := by
  by_cases hsp : sp = .ibuf
  · subst hsp
    exact congrArg Host.Outcome.next (writeInput_out_of_range b h)
  · exact if_neg hsp

theorem serve_memRead_out_of_range {s : State} {sp : Space} {a : Nat} (k : Nat) (h : sp.size s.params ≤ a) :
    s.serve ⟨.memRead sp a, k⟩ = .next (s.reply (.datum sp.zero)) := by
  rw [← unitValue_out_of_range h]
  rfl

/-- A write to a reserved register number is ignored (R21, R62). -/
theorem serve_regWrite_reserved (s : State) {n : BitVec 8} (v k : Nat) (h : 0x0C ≤ n.toNat) :
    s.serve ⟨.regWrite n v, k⟩ = .next s := by
  have hcmd : n ≠ regCMD := by rintro rfl; exact absurd h (by decide)
  have hinLen : n ≠ regINLEN := by rintro rfl; exact absurd h (by decide)
  exact (if_neg hcmd).trans (if_neg hinLen)

theorem serve_regRead_reserved (s : State) {n : BitVec 8} (k : Nat) (h : 0x0C ≤ n.toNat) :
    s.serve ⟨.regRead n, k⟩ = .next (s.reply (.reg 0)) := by
  rw [← regValue_reserved s h]
  rfl

/-! ### The statements of the family -/

/-- Settles O9: the command is accepted (`step_cmd_later`), and its window leaves the core as if it had ended at once
(`run_window`). -/
theorem busyWindowIsUnobserved : Obligations.BusyWindowIsUnobserved := by
  unfold Obligations.BusyWindowIsUnobserved
  intro s v i ops rest hb hne hd hp hh hr
  have hn : ops.length ≠ 0 := List.length_eq_zero_iff.not.mpr hne
  obtain ⟨new, hnew, hwindow⟩ := run_window i s rest hr
  exact ⟨_, _, (run_next (M := Sys2Proof.core) _ (step_cmd_later hb hh hd hn hp)).trans hwindow,
    exec_of_accepted i hb ((prereq_host i rest s).trans hp), new, hnew, rfl⟩

/-- Settles O8: each kind of transaction, as `State.serveBusy` answers it. -/
theorem busyCoreShowsOnlyBusy : Obligations.BusyCoreShowsOnlyBusy := by
  unfold Obligations.BusyCoreShowsOnlyBusy
  intro s cmd n k t rest hs hh
  have hstep := step_busy_txn hs hh
  refine ⟨?_, ?_, ?_⟩
  · rintro (⟨r, v, rfl⟩ | ⟨sp, a, b, rfl⟩) <;> exact hstep
  · rintro (⟨r, rfl⟩ | ⟨sp, a, rfl⟩)
    · refine ⟨_, hstep, fun hr => ?_⟩
      cases hr
      exact ⟨_, rfl, busyRegValue_status _⟩
    · exact ⟨_, hstep, nofun⟩
  · rintro rfl
    have hblank := blank_resetCore { s with stt := .busy cmd n, host := rest }
    exact ⟨_, hstep, hblank.stt, hblank.levels, hblank.err, hblank.phase, hblank.inLen, hblank.ibuf, rfl⟩

/-- Settles O15: the value is stored and levels 0 to 3 become invalid (`writeInput_invalidates`,
`writeInLen_of_le_cmax`). -/
theorem hostWritesInvalidate : Obligations.HostWritesInvalidate := by
  unfold Obligations.HostWritesInvalidate
  intro s k rest hb
  constructor
  · intro a b hh ha
    exact ⟨_, step_txn hb hh, writeInput_inByte b ha, fun c hc => writeInput_read_other _ b hc,
      writeInput_invalidates b ha⟩
  · intro v hh hv
    exact (step_txn hb hh).trans (congrArg Host.Outcome.next (writeInLen_of_le_cmax hv))

/-- Settles O4: a core that is not busy runs the command (`step_cmd_now`); in a busy one the write is ignored, as `exec`
is. -/
theorem stepRunsDecodedCommand : Obligations.StepRunsDecodedCommand := by
  unfold Obligations.StepRunsDecodedCommand
  refine ⟨fun s v i rest => step_cmd_now, fun s w i hw => ?_⟩
  cases hs : s.stt with
  | busy cmd n => rw [step_withFetchWord_of_busy hs, exec_of_busy i (by rw [hs]; rfl)]
  | _ =>
    have hb : s.stt.isBusy = false := by rw [hs]; rfl
    rw [withFetchWord_of_idle hb]
    exact step_cmd_now hb rfl (decodeWord_of_tableWord hw)

/-- Settles O14: the reply is `State.unitValue`, which is the unit or the zero unit. -/
theorem memoryReads : Obligations.MemoryReads := by
  unfold Obligations.MemoryReads
  intro s sp a k rest hb hh
  exact ⟨_, step_txn hb hh, unitValue_out_of_range, fun ha _ he => unitValue_specified ha he⟩

/-- Settles O16, for each of the four kinds of access. -/
theorem outOfRangeAccesses : Obligations.OutOfRangeAccesses := by
  unfold Obligations.OutOfRangeAccesses
  intro s k rest hb
  refine ⟨?_, ?_, ?_, ?_⟩
  · intro sp a b hh ha
    exact (step_txn hb hh).trans (serve_memWrite_out_of_range b k ha)
  · intro sp a hh ha
    exact (step_txn hb hh).trans (serve_memRead_out_of_range k ha)
  · intro n v hh hn
    exact (step_txn hb hh).trans (serve_regWrite_reserved _ v k hn)
  · intro n hh hn
    exact (step_txn hb hh).trans (serve_regRead_reserved _ k hn)

end Sys2Proof.Machine
end

section
/-! PROOFS. The family `30_encoding`: decoding a command word is the inverse of encoding a command, the opcode map says
the same, and the words left over are illegal (spec/30_encoding.md R90 to R92). -/

namespace Sys2Proof

/-! ### The encoder's side (R91) -/

/-- The per-command laws of `Laws.Encoding`, of every command. -/
theorem encoding_statement (i : Instr) : Laws.Encoding.Statement i := by
  cases i with
  | freq => exact Laws.Encoding.freq
  | build => exact Laws.Encoding.build
  | assign => exact Laws.Encoding.assign
  | pack => exact Laws.Encoding.pack
  | ser => exact Laws.Encoding.ser
  | deser => exact Laws.Encoding.deser
  | walk => exact Laws.Encoding.walk
  | encode => exact Laws.Encoding.encode
  | decode => exact Laws.Encoding.decode
  | clear => exact Laws.Encoding.clear

@[simp] theorem decodeWord_encodeWord (i : Instr) : decodeWord (encodeWord i) = .ok i := by
  obtain ⟨-, -, -, hdecode, -⟩ := encoding_statement i
  exact hdecode

/-- Decoding reads the one word at the front and leaves the bytes after it alone (R90: "one fixed length"). -/
theorem decode_encode_append (i : Instr) (rest : List Byte) : decode (encode i ++ rest) = .ok (i, rest) := by
  simp [encode, decode]

/-! ### The decoder's side (R90, R91) -/

/-- `RSV` is the high half of the word. -/
theorem CmdWord.rsv_toNat (w : CmdWord) : (CmdWord.rsv w).toNat = w.toNat / 16 := by
  have hw := w.isLt
  simp only [CmdWord.rsv, BitVec.extractLsb'_toNat, Nat.shiftRight_eq_div_pow]
  omega

/-- `OP` is the low half of the word. -/
theorem CmdWord.op_toNat (w : CmdWord) : (CmdWord.op w).toNat = w.toNat % 16 := by
  simp [CmdWord.op]

theorem CmdWord.rsv_eq_zero_iff (w : CmdWord) : CmdWord.rsv w = 0 ↔ w.toNat < 16 := by
  rw [← BitVec.toNat_inj, CmdWord.rsv_toNat]
  simp

/-- With `RSV` clear, the opcode is the whole word. -/
theorem decodeWord_of_lt {w : CmdWord} (h : w.toNat < 16) : decodeWord w = decodeOp w.toNat := by
  rw [decodeWord, if_pos ((CmdWord.rsv_eq_zero_iff w).mpr h), CmdWord.op_toNat, Nat.mod_eq_of_lt h]

theorem decodeWord_of_ge {w : CmdWord} (h : 16 ≤ w.toNat) : decodeWord w = .error .reservedBits :=
  if_neg fun hrsv => absurd ((CmdWord.rsv_eq_zero_iff w).mp hrsv) (Nat.not_lt.mpr h)

/-- An opcode stands for no command but the one whose word it is. -/
theorem encodeWord_toNat_of_decodeOp {n : Nat} {i : Instr} (h : decodeOp n = .ok i) : (encodeWord i).toNat = n := by
  unfold decodeOp at h
  split at h <;> cases h <;> rfl

/-- The only word that decodes to a command is the command's own. -/
theorem decodeWord_eq_ok_iff {w : CmdWord} {i : Instr} : decodeWord w = .ok i ↔ w = encodeWord i := by
  constructor
  · intro h
    by_cases hw : w.toNat < 16
    · rw [decodeWord_of_lt hw] at h
      exact BitVec.eq_of_toNat_eq (encodeWord_toNat_of_decodeOp h).symm
    · rw [decodeWord_of_ge (Nat.not_lt.mp hw)] at h
      cases h
  · rintro rfl
    exact decodeWord_encodeWord i

/-- The decoder refuses an opcode when it is none of the ten (R92). -/
theorem decodeOp_error_iff : ∀ n, (∃ e, decodeOp n = .error e) ↔ n = 0x00 ∨ 0x0B ≤ n
  | 0 => ⟨fun _ => .inl rfl, fun _ => ⟨.opcodeZero, rfl⟩⟩
  | 1 | 2 | 3 | 4 | 5 | 6 | 7 | 8 | 9 | 10 => by simp [decodeOp]
  | n + 11 => ⟨fun _ => .inr (Nat.le_add_left 11 n), fun _ => ⟨.opcodeUnassigned, rfl⟩⟩

/-! ### The opcode map (R91) -/

/-- A row holds its command's word, and its mask compares the whole word. -/
theorem mem_opcodeMap_pattern_mask :
    ∀ r ∈ opcodeMap, r.pattern = encodeWord r.instr ∧ r.mask = BitVec.allOnes 8 := by
  decide

/-- A row of the map is selected by the word of its command and by no other. -/
theorem OpcodeRow.selects_iff {r : OpcodeRow} (hr : r ∈ opcodeMap) (w : CmdWord) :
    r.selects w = true ↔ w = encodeWord r.instr := by
  obtain ⟨hpattern, hmask⟩ := mem_opcodeMap_pattern_mask r hr
  rw [OpcodeRow.selects, hpattern, hmask, BitVec.and_allOnes, beq_iff_eq]

theorem exists_opcodeRow (i : Instr) : ∃ r ∈ opcodeMap, r.instr = i := by
  obtain ⟨-, -, -, -, hfilter⟩ := encoding_statement i
  have hmem : (⟨encodeWord i, 0xFF, i⟩ : OpcodeRow) ∈ opcodeMap.filter fun r => r.selects (encodeWord i) := by
    rw [hfilter]
    exact List.mem_singleton_self _
  exact ⟨_, List.mem_of_mem_filter hmem, rfl⟩

/-- The decoder computes the opcode map. -/
theorem decodeWord_eq_ok_iff_opcodeMap (w : CmdWord) (i : Instr) :
    decodeWord w = .ok i ↔ ∃ r ∈ opcodeMap, r.selects w = true ∧ r.instr = i := by
  rw [decodeWord_eq_ok_iff]
  constructor
  · rintro rfl
    obtain ⟨r, hr, rfl⟩ := exists_opcodeRow i
    exact ⟨r, hr, (OpcodeRow.selects_iff hr _).mpr rfl, rfl⟩
  · rintro ⟨r, hr, hsel, rfl⟩
    exact (OpcodeRow.selects_iff hr w).mp hsel

/-! ### The statements of the family -/

/-- Settles O3: the law of each command gives the first part, and no opcode stands for a command with another word
(`decodeWord_eq_ok_iff`). -/
theorem decodeEncodeAgree : Obligations.DecodeEncodeAgree := by
  unfold Obligations.DecodeEncodeAgree
  exact ⟨decode_encode_append, fun _ _ => decodeWord_eq_ok_iff.mp⟩

/-- Settles O1: the ten words are the words of the ten commands, and a row is selected by its command's word only. -/
theorem opcodeMapDecodes : Obligations.OpcodeMapDecodes := by
  unfold Obligations.OpcodeMapDecodes
  exact ⟨decodeWord_encodeWord .freq, decodeWord_encodeWord .build, decodeWord_encodeWord .assign,
    decodeWord_encodeWord .pack, decodeWord_encodeWord .ser, decodeWord_encodeWord .deser,
    decodeWord_encodeWord .walk, decodeWord_encodeWord .encode, decodeWord_encodeWord .decode,
    decodeWord_encodeWord .clear, decodeWord_eq_ok_iff_opcodeMap⟩

/-- Settles O2: a word with `RSV` clear is refused with its opcode, and a word with `RSV` set is at least `0x10`. -/
theorem illegalWordsAreTheOthers : Obligations.IllegalWordsAreTheOthers := by
  unfold Obligations.IllegalWordsAreTheOthers
  intro w
  by_cases hw : w.toNat < 16
  · rw [decodeWord_of_lt hw, decodeOp_error_iff]
  · have hge : 16 ≤ w.toNat := Nat.not_lt.mp hw
    exact ⟨fun _ => .inr (by omega), fun _ => ⟨_, decodeWord_of_ge hge⟩⟩

end Sys2Proof
end

section
/-! PROOFS. The family `40_frequency_counter`: what `FREQ` leaves when it counts the input, and when it raises
(spec/40_frequency_counter.md R110 to R112). -/

namespace Sys2Proof.Machine

/-! ### The state a successful `FREQ` leaves (R110, R111) -/

/-- Level 0 as `FREQ` writes it. -/
def FreqLevel.counted (s : State) : FreqLevel where
  valid := true
  total := s.inLen
  nsym := distinctSymbols (occurrences s.inputBytes)
  payOff := 0
  origin := .enc
  freqt := countTable s.inputBytes

/-- The state after `FREQ` has counted the input of `s`. -/
def State.counted (s : State) : State :=
  { s with
    stt := .done, err := none, phase := some .freq, freq := .counted s, tree := .invalid, code := .invalid,
    pay := .invalid, out := .invalid }

theorem exec_freq_counted {s : State} (hb : s.stt.isBusy = false) (h1 : 1 ≤ s.inLen) (h2 : s.inLen ≤ s.params.inCap) :
    exec .freq s = .next s.counted :=
  exec_unit_ok (u := .freq) hb rfl (freqBody_ok h1 h2)

/-- The count of a symbol, position by position. -/
theorem occurrences_inputBytes (s : State) (x : Nat) :
    occurrences s.inputBytes x = (List.range s.inLen).countP fun i => (s.inByte i).toNat == x :=
  List.countP_map ..

theorem State.counted_read (s : State) {x : Nat} (hx : x < 256) :
    Store.read s.counted.freq.freqt x = some (occurrences s.inputBytes x) :=
  read_table _ hx

theorem State.counted_specified (s : State) {x : Nat} (hx : x < 256) :
    s.counted.specified .freqt x = some (.count (occurrences s.inputBytes x)) :=
  congrArg (Option.map Datum.count) (s.counted_read hx)

theorem State.counted_count (s : State) {x : Nat} (hx : x < 256) : s.counted.count x = occurrences s.inputBytes x := by
  rw [State.count, s.counted_read hx, Option.getD_some]

theorem State.counted_nsym (s : State) : s.counted.freq.nsym = distinctSymbols s.counted.count :=
  (distinctSymbols_congr fun _ hx => s.counted_count hx).symm

theorem State.counted_sum (s : State) : (symbols.map s.counted.count).sum = s.inLen := by
  rw [map_symbols_congr fun _ hx => s.counted_count hx, sum_occurrences, State.inputBytes_length]

/-- `STATE = DONE`, `FREQ_V = 1`, `ORIGIN = ENC`, `PHASE = 1`, and the other flags 0 (R23). -/
theorem State.counted_status (s : State) : s.counted.status = 0x0106 :=
  BitVec.eq_of_toNat_eq s.counted.status_toNat

theorem State.counted_invalidFrom (s : State) : InvalidFrom 1 s.counted :=
  ⟨fun h => absurd h (by decide), fun _ => rfl, fun _ => rfl, fun _ => rfl, fun _ => rfl⟩

/-! ### When the body raises (R110, R112) -/

theorem freqBody_capacity {s : State} (h : s.params.inCap < s.inLen) : unitBody .freq s = .error .capacity :=
  if_pos h

theorem freqBody_emptyInput {s : State} (h : s.inLen = 0) : unitBody .freq s = .error .emptyInput := by
  have hfits : ¬ s.inLen > s.params.inCap := by omega
  exact (if_neg hfits).trans (if_pos h)

/-! ### The statements of the family -/

/-- Settles O25: the command leaves `State.counted`, whose table holds the occurrences of each symbol. -/
theorem freqCountsTheInput : Obligations.FreqCountsTheInput := by
  unfold Obligations.FreqCountsTheInput
  intro s hb h1 h2
  have hexec := exec_freq_counted hb h1 h2
  have htable : ∀ x < 256, s.counted.specified .freqt x
      = some (.count ((List.range s.inLen).countP fun i => (s.inByte i).toNat == x)) := fun x hx => by
    rw [s.counted_specified hx, occurrences_inputBytes]
  exact ⟨s.counted, hexec, rfl, rfl, s.counted_status, htable, rfl, s.counted_nsym, rfl, rfl, s.counted_sum,
    s.counted_invalidFrom, exec_sameHostSide hexec⟩

/-- Settles O26: a body that raises leaves the state as the start of the unit made it (`exec_unit_error`). -/
theorem freqFails : Obligations.FreqFails := by
  unfold Obligations.FreqFails
  intro s hb
  constructor
  · intro hlong
    exact exec_unit_error (u := .freq) hb rfl (freqBody_capacity hlong)
  · intro hempty
    exact exec_unit_error (u := .freq) hb rfl (freqBody_emptyInput hempty)

end Sys2Proof.Machine
end

section
/-! PROOFS. The family `41_tree_builder`: the arena that `BUILD` makes, and the heap in the place of the sorted list
(spec/41_tree_builder.md R120 to R131). -/

namespace Sys2Proof.Machine

/-! ### The state `BUILD` leaves (R120) -/

/-- Level 1 as `BUILD` writes it. -/
def TreeLevel.built (s : State) : TreeLevel where
  valid := true
  root := rootOf s.fill (buildArena s.count).2
  nnodes := (buildArena s.count).1.length
  nodet := Store.ofList 0 (buildArena s.count).1

/-- The state after `BUILD` has made the tree of the table of `s`. -/
def State.built (s : State) : State :=
  { s with
    stt := .done, err := none, phase := some .build, tree := .built s, code := .invalid, pay := .invalid, out := .invalid }

/-- `BUILD` cannot fail (R120): its only condition is the prerequisite `FREQ_V = 1`. -/
theorem exec_build_built {s : State} (hb : s.stt.isBusy = false) (hv : s.freq.valid = true) :
    exec .build s = .next s.built :=
  exec_unit_ok (u := .build) hb hv rfl

theorem State.built_invalidFrom (s : State) : InvalidFrom 2 s.built :=
  ⟨fun h => absurd h (by decide), fun h => absurd h (by decide), fun _ => rfl, fun _ => rfl, fun _ => rfl⟩

theorem FreqFacts.built {s : State} (hF : FreqFacts s) : FreqFacts s.built := hF.congr rfl rfl rfl rfl rfl

theorem TreeFacts.built {s : State} (hF : FreqFacts s) : TreeFacts s.built :=
  (TreeFacts.of_built hF.built rfl rfl rfl).1

theorem Combined.built {s : State} (hF : FreqFacts s) {j : Nat} (h1 : s.freq.nsym ≤ j) (h2 : j < s.built.tree.nnodes) :
    Combined s.built.node s.freq.nsym j :=
  (TreeFacts.of_built hF.built rfl rfl rfl).2 j h1 h2

/-- With a symbol in the table, the root is the member the rounds leave, and not a free value (R124). -/
theorem rootOf_buildArena {count : Nat → Nat} (h : ∃ x < 256, count x ≠ 0) (fill : Nat) :
    rootOf fill (buildArena count).2 = 2 * distinctSymbols count - 2 := by
  obtain ⟨-, w, hw⟩ := buildArena_building (distinctSymbols_pos.2 h)
  rw [hw, rootOf]

/-- Level 1 depends on the 256 counts alone (R129). -/
theorem TreeLevel.built_congr {s s' : State} (hc : ∀ x < 256, s'.count x = s.count x) (h : ∃ x < 256, s.count x ≠ 0) :
    TreeLevel.built s' = TreeLevel.built s := by
  rw [TreeLevel.built, TreeLevel.built, buildArena_congr hc, rootOf_buildArena h, rootOf_buildArena h]

/-! ### A table of one symbol (R125) -/

section OneSymbol

variable {count : Nat → Nat} {x : Nat} (hx : x < 256) (hc : count x ≠ 0) (hy : ∀ y < 256, y ≠ x → count y = 0)
include hx hc hy

theorem leaves_of_one_symbol : leaves count = [Node.leafOf x (count x)] := by
  have hfilter : (symbols.filter fun y => count y != 0) = symbols.filter (· == x) :=
    List.filter_congr fun y hm => by
      by_cases h : y = x
      · simp [h, hc]
      · simp [h, hy y (mem_symbols.1 hm) h]
  have hone : symbols.count x = 1 := List.count_eq_one_of_mem List.nodup_range (mem_symbols.2 hx)
  rw [leaves, hfilter, List.filter_beq, hone, List.replicate_one, List.map_singleton]

/-- No round is run. -/
theorem buildArena_of_one_symbol : buildArena count = ([Node.leafOf x (count x)], [(count x, 0)]) := by
  rw [buildArena, leaves_of_one_symbol hx hc hy]
  rfl

end OneSymbol

/-! ### The heap's `insert` and `extract_min` (R127, R128) -/

theorem Heap.at_append_of_lt {h : Heap} {k : Nat} (x : Key) (hk : k < h.length) : Heap.at (h ++ [x]) k = h.at k := by
  simp [Heap.at, List.getElem?_append_left hk]

theorem Heap.Distinct.cons {h : Heap} {x : Key} (d : Heap.Distinct h) (hx : x.2 ∉ h.map Prod.snd) :
    Heap.Distinct (x :: h) :=
  List.nodup_cons.2 ⟨hx, d⟩

/-- With the new member at the end, only the pair of it and its parent may be out of order. -/
theorem Heap.Ordered.rising_append {h : Heap} (o : h.Ordered) (x : Key) : Heap.Rising (h ++ [x]) h.length := by
  constructor
  · intro j h0 hj hne
    rw [List.length_append, List.length_singleton] at hj
    have hlt : j < h.length := by omega
    have hp := Heap.parent_lt (k := j) (by omega)
    rw [Heap.at_append_of_lt x hlt, Heap.at_append_of_lt x (hp.trans hlt)]
    exact o j h0 hlt
  · intro _ j h0 hj hp
    rw [List.length_append, List.length_singleton] at hj
    have := Heap.parent_lt (k := j) (by omega)
    omega

theorem Heap.push_ordered {h : Heap} {x : Key} (o : h.Ordered) (d : Heap.Distinct h) (hx : x.2 ∉ h.map Prod.snd) :
    (h.push x).Ordered :=
  (o.rising_append x).up _ ((d.cons hx).perm List.perm_append_comm) (by simp) le_rfl

/-- The top of a heap comes before every other member. -/
theorem Heap.Ordered.before_mem {r : Key} {h : Heap} (o : Heap.Ordered (r :: h)) {e : Key} (he : e ∈ h) :
    Key.before r e = true := by
  obtain ⟨i, hi, rfl⟩ := List.mem_iff_getElem.1 he
  have := o.top (i + 1) (by omega) (by simpa using hi)
  simpa [Heap.at, hi] using this

theorem Heap.getLast_cons_dropLast_perm {h : Heap} (hne : h ≠ []) : (h.getLast hne :: h.dropLast).Perm h := by
  conv => rhs; rw [← List.dropLast_append_getLast hne]
  exact (List.perm_append_singleton _ _).symm

/-- `extract_min` takes the top and leaves a heap of the others. -/
theorem Heap.pop_cons {r : Key} {h : Heap} (o : Heap.Ordered (r :: h)) (d : Heap.Distinct (r :: h)) :
    ∃ rest, Heap.pop (r :: h) = some (r, rest) ∧ Heap.Ordered rest ∧ h.Perm rest := by
  cases h with
  | nil => exact ⟨[], rfl, fun k _ hk => absurd hk (Nat.not_lt_zero k), .refl _⟩
  | cons a t =>
    have hne : a :: t ≠ [] := List.cons_ne_nil a t
    have hperm := Heap.getLast_cons_dropLast_perm hne
    have hdist : Heap.Distinct (a :: t) := (List.nodup_cons.1 d).2
    obtain ⟨ho, hp⟩ := Heap.down_spec (a :: t).length (o.lastUp hne) (hdist.perm hperm) (Nat.succ_pos _)
      hperm.length_eq.le
    exact ⟨_, rfl, ho, (hp.trans hperm).symm⟩

/-! ### The heap and the sorted list hold the same queue (R126) -/

/-- The members of a queue, once as a heap and once as a sorted list. -/
structure Heap.Realises (h : Heap) (q : List Key) : Prop where
  ordered : h.Ordered
  sorted : Key.Sorted q
  distinct : Heap.Distinct h
  perm : h.Perm q

theorem Heap.Realises.empty : Heap.Realises [] [] where
  ordered := fun k _ hk => absurd hk (Nat.not_lt_zero k)
  sorted := .nil
  distinct := .nil
  perm := .refl _

theorem Heap.Realises.push {h : Heap} {q : List Key} {x : Key} (r : h.Realises q) (hx : x.2 ∉ q.map Prod.snd) :
    (h.push x).Realises (Key.insert x q) := by
  have hxh : x.2 ∉ h.map Prod.snd := fun hm => hx ((r.perm.map Prod.snd).mem_iff.1 hm)
  have hne : ∀ e ∈ q, e.2 ≠ x.2 := fun e he hc => hx (hc ▸ List.mem_map_of_mem he)
  exact {
    ordered := Heap.push_ordered r.ordered r.distinct hxh
    sorted := Key.insert_sorted r.sorted hne
    distinct := (r.distinct.cons hxh).perm (Heap.push_perm h x)
    perm := (Heap.push_perm h x).trans ((r.perm.cons x).trans (Key.insert_perm x q).symm) }

theorem Key.not_before_of_before {a b : Key} (h : Key.before a b = true) : Key.before b a ≠ true := by
  rw [Key.before_iff] at h
  rw [ne_eq, Key.before_iff]
  omega

/-- The least member is the same however the members are stored: the key order has one least (R122). -/
theorem Heap.Realises.top_eq {a b : Key} {h : Heap} {q : List Key} (r : Heap.Realises (a :: h) (b :: q)) : a = b := by
  by_contra hne
  have hb : b ∈ h := (List.mem_cons.1 (r.perm.mem_iff.2 List.mem_cons_self)).resolve_left (Ne.symm hne)
  have ha : a ∈ q := (List.mem_cons.1 (r.perm.mem_iff.1 List.mem_cons_self)).resolve_left hne
  exact Key.not_before_of_before (r.ordered.before_mem hb) ((List.pairwise_cons.1 r.sorted).1 a ha)

theorem Heap.Realises.pop {h : Heap} {k : Key} {q : List Key} (r : h.Realises (k :: q)) :
    ∃ rest, h.pop = some (k, rest) ∧ Heap.Realises rest q := by
  cases h with
  | nil => exact absurd r.perm.length_eq (by simp)
  | cons a h =>
    obtain rfl := r.top_eq
    obtain ⟨rest, hpop, ho, hp⟩ := Heap.pop_cons r.ordered r.distinct
    have hd : Heap.Distinct h := (List.nodup_cons.1 r.distinct).2
    exact ⟨rest, hpop, ho, (List.pairwise_cons.1 r.sorted).2, hd.perm hp.symm, hp.symm.trans r.perm.cons_inv⟩

/-! ### The rounds with the heap (R126) -/

/-- Inserting the same keys one after another. -/
theorem Heap.Realises.foldl (ks : List Key) {h : Heap} {q : List Key} (r : h.Realises q)
    (hn : ((ks ++ q).map Prod.snd).Nodup) :
    (ks.foldl Heap.push h).Realises (ks.foldl (fun q k => Key.insert k q) q) := by
  induction ks generalizing h q with
  | nil => exact r
  | cons k ks ih =>
    have hperm : (ks ++ Key.insert k q).Perm (k :: (ks ++ q)) :=
      ((Key.insert_perm k q).append_left ks).trans List.perm_middle
    have hfresh : k.2 ∉ q.map Prod.snd := fun hm =>
      (List.nodup_cons.1 hn).1 (List.map_subset Prod.snd (List.subset_append_right ks q) hm)
    exact ih (r.push hfresh) (((hperm.map Prod.snd).nodup_iff).2 hn)

/-- One round: the heap extracts the two keys that stand first in the sorted list. -/
theorem combineByHeap_cons_cons (fuel : Nat) (arena : List Node) {h : Heap} {a b : Key} {q : List Key}
    (r : h.Realises (a :: b :: q)) : ∃ rest, Heap.Realises rest q ∧ combineByHeap (fuel + 1) arena h
      = combineByHeap fuel (arena ++ [Node.internalOf a.2 b.2 (a.1 + b.1)]) (rest.push (a.1 + b.1, arena.length)) := by
  obtain ⟨h', hpop, r'⟩ := r.pop
  obtain ⟨rest, hpop', r''⟩ := r'.pop
  exact ⟨rest, r'', by simp only [combineByHeap, hpop, hpop']⟩

/-- A heap of at most one member ends the rounds. -/
theorem combineByHeap_of_length_le_one (fuel : Nat) (arena : List Node) {h : Heap} (hl : h.length ≤ 1) :
    combineByHeap fuel arena h = (arena, h) := by
  match fuel, h with
  | 0, _ => rfl
  | _ + 1, [] => rfl
  | _ + 1, [_] => rfl
  | _ + 1, _ :: _ :: _ => simp at hl

theorem combine_of_length_le_one (fuel : Nat) (arena : List Node) {q : List Key} (hl : q.length ≤ 1) :
    combine fuel arena q = (arena, q) := by
  match fuel, q with
  | 0, _ => rfl
  | _ + 1, [] => rfl
  | _ + 1, [_] => rfl
  | _ + 1, _ :: _ :: _ => simp at hl

theorem Heap.Realises.eq_of_length_le_one {h : Heap} {q : List Key} (r : h.Realises q) (hl : q.length ≤ 1) : h = q := by
  match q, r, hl with
  | [], r, _ => exact r.perm.eq_nil
  | [k], r, _ => exact List.perm_singleton.1 r.perm

/-- The simulation: each round keeps the heap and the sorted list the same queue, and adds the same node. The indices of
the queue are those of nodes in the arena, so that the index of the new node is not among them. -/
theorem combineByHeap_eq_combine (fuel : Nat) : ∀ (arena : List Node) (h : Heap) (q : List Key), h.Realises q →
    (∀ k ∈ q, k.2 < arena.length) → q.length ≤ fuel + 1 → combineByHeap fuel arena h = combine fuel arena q := by
  induction fuel with
  | zero =>
    intro arena h q r _ hl
    rw [combine_of_length_le_one 0 arena hl, r.eq_of_length_le_one hl]
    rfl
  | succ fuel ih =>
    intro arena h q r hlt hl
    obtain hone | ⟨a, b, q, rfl⟩ : q.length ≤ 1 ∨ ∃ a b t, q = a :: b :: t := by
      match q with
      | [] | [_] => exact .inl (by simp)
      | a :: b :: t => exact .inr ⟨a, b, t, rfl⟩
    · obtain rfl := r.eq_of_length_le_one hone
      rw [combine_of_length_le_one _ arena hone, combineByHeap_of_length_le_one _ arena hone]
    · obtain ⟨rest, r', hround⟩ := combineByHeap_cons_cons fuel arena r
      have hold : ∀ k ∈ q, k.2 < arena.length := fun k hk => hlt k (by simp [hk])
      have hfresh : arena.length ∉ q.map Prod.snd := fun hm => by
        obtain ⟨k, hk, he⟩ := List.mem_map.1 hm
        exact absurd (hold k hk) (by omega)
      rw [hround, combine]
      refine ih _ _ _ (r'.push hfresh) (fun k hk => ?_) ?_
      · rw [List.length_append, List.length_singleton]
        rcases Key.mem_insert.1 hk with rfl | hk
        · exact Nat.lt_succ_self _
        · exact (hold k hk).trans (Nat.lt_succ_self _)
      · rw [Key.insert_length]
        simpa using hl

/-- After the leaf loop (R120), with the heap and with the sorted list. -/
theorem Heap.realises_leafQueue (ls : List Node) : ((leafKeys ls).foldl Heap.push []).Realises (leafQueue ls) :=
  Heap.Realises.empty.foldl (leafKeys ls) (by rw [List.append_nil, leafKeys_snd]; exact List.nodup_range)

theorem leafQueue_index_lt {ls : List Node} {k : Key} (hk : k ∈ leafQueue ls) : k.2 < ls.length := by
  have hm : k.2 ∈ (leafKeys ls).map Prod.snd := List.mem_map_of_mem ((leafQueue_perm ls).mem_iff.1 hk)
  rwa [leafKeys_snd, List.mem_range] at hm

/-! ### The statements of the family -/

/-- Settles O27: the command leaves `State.built`, whose arena has the shape of R131 by `TreeFacts.of_built`. -/
theorem buildMakesAValidArena : Obligations.BuildMakesAValidArena := by
  unfold Obligations.BuildMakesAValidArena
  intro s hI hb hv
  have hexec := exec_build_built hb hv
  have hT : TreeFacts s.built := .built (hI.freq hv)
  exact ⟨s.built, hexec, rfl, rfl, rfl, rfl, hT.nnodes, hT.root, hT.root_weight, hT, rfl, s.built_invalidFrom,
    exec_sameHostSide hexec⟩

/-- Settles O28: every round keeps `Building`, so every internal node is `Combined` in the arena that `BUILD` leaves. -/
theorem buildCombinesTheTwoLeastKeys : Obligations.BuildCombinesTheTwoLeastKeys := by
  unfold Obligations.BuildCombinesTheTwoLeastKeys
  intro s hI hb hv
  refine ⟨s.built, exec_build_built hb hv, rfl, fun j h1 h2 => ?_⟩
  have hc := Combined.built (hI.freq hv) h1 h2
  exact ⟨hc.left_queued, hc.right_queued, hc.left_least, hc.right_next, hc.distinct, hc.kind, hc.sym, hc.weight⟩

/-- Settles O32: the two queues hold the same members after the leaf loop, and the rounds keep it so. -/
theorem heapBuildsTheSameArena : Obligations.HeapBuildsTheSameArena := by
  unfold Obligations.HeapBuildsTheSameArena
  intro count
  have hlen : (leafQueue (leaves count)).length ≤ (leaves count).length + 1 := by rw [leafQueue_length]; omega
  exact combineByHeap_eq_combine _ _ _ _ (Heap.realises_leafQueue _) (fun _ hk => leafQueue_index_lt hk) hlen

/-- Settles O29: the arena of a table of one symbol is its leaf. -/
theorem buildOfOneSymbolIsALeaf : Obligations.BuildOfOneSymbolIsALeaf := by
  unfold Obligations.BuildOfOneSymbolIsALeaf
  intro s x hb hv hx hc hy
  have harena := buildArena_of_one_symbol hx hc hy
  have htree : TreeLevel.built s = ⟨true, 0, 1, [(0, Node.leafOf x (s.count x))]⟩ := by
    rw [TreeLevel.built, harena]; rfl
  have hnode : s.built.node 0 = Node.leafOf x (s.count x) := by
    rw [State.node, State.built, htree]; rfl
  exact ⟨s.built, exec_build_built hb hv, rfl, congrArg TreeLevel.root htree, congrArg TreeLevel.nnodes htree, hnode⟩

/-- Settles O30: level 1 is a function of the 256 counts, and these are what the tables hold. -/
theorem sameTableSameTree : Obligations.SameTableSameTree := by
  unfold Obligations.SameTableSameTree
  intro s s' t t' hb hb' hv hv' htable hsym ht ht'
  have hcount : ∀ x < 256, s'.count x = s.count x := fun x hx => by
    obtain ⟨c, h, h'⟩ := htable x hx
    rw [State.count, State.count, h, h', Option.getD_some, Option.getD_some]
  rw [exec_build_built hb hv] at ht
  rw [exec_build_built hb' hv'] at ht'
  cases ht
  cases ht'
  exact TreeLevel.built_congr hcount hsym

/-- Settles O31: `insert` mends the path above the new member, `extract_min` the path below the top. -/
theorem heapOperationsKeepTheHeap : Obligations.HeapOperationsKeepTheHeap := by
  unfold Obligations.HeapOperationsKeepTheHeap
  constructor
  · intro h x o d hx
    exact ⟨Heap.push_ordered o d hx, Heap.push_perm h x⟩
  · intro h o d hne
    obtain ⟨r, h, rfl⟩ := List.exists_cons_of_ne_nil hne
    obtain ⟨rest, hpop, ho, hp⟩ := Heap.pop_cons o d
    exact ⟨r, rest, hpop, ho, hp.cons r, fun e he => (Key.before_iff r e).1 (o.before_mem (hp.mem_iff.2 he))⟩

end Sys2Proof.Machine
end

section
/-! PROOFS. The family `42_code_assigner`: the code table that `ASSIGN` leaves, the traversal stack in the place of the
recursive `visit`, and the Kraft equality (spec/42_code_assigner.md R140 to R145). -/

namespace Sys2Proof.Machine

/-! ### The state `ASSIGN` leaves (R140) -/

/-- Level 2 as `ASSIGN` writes it. -/
def CodeLevel.assigned (s : State) : CodeLevel where
  valid := true
  codet := codeTable (treeCodes s.node s.tree.root)

/-- The state after `ASSIGN` has recorded the codes of the tree of `s`. -/
def State.assigned (s : State) : State :=
  { s with stt := .done, err := none, phase := some .assign, code := .assigned s, pay := .invalid, out := .invalid }

/-- `ASSIGN` cannot fail (R140): its only condition is the prerequisite `TREE_V = 1`. -/
theorem exec_assign_assigned {s : State} (hb : s.stt.isBusy = false) (hv : s.tree.valid = true) :
    exec .assign s = .next s.assigned :=
  exec_unit_ok (u := .assign) hb hv rfl

theorem State.assigned_invalidFrom (s : State) : InvalidFrom 3 s.assigned :=
  ⟨fun h => absurd h (by decide), fun h => absurd h (by decide), fun h => absurd h (by decide), fun _ => rfl,
    fun _ => rfl⟩

theorem FreqFacts.assigned {s : State} (hF : FreqFacts s) : FreqFacts s.assigned := hF.congr rfl rfl rfl rfl rfl

theorem TreeFacts.assigned {s : State} (hT : TreeFacts s) : TreeFacts s.assigned := hT.congr rfl rfl rfl rfl

/-- A record listed in `CODET` is the symbol's code, not a free value (R38). -/
theorem State.codeOf_of_read {s : State} {x : Nat} {c : Code} (h : Store.read s.code.codet x = some c) :
    s.codeOf x = c := by
  rw [State.codeOf, h, Option.getD_some]

/-! ### A root that is a leaf (R142) -/

section LeafRoot

variable {s : State} (hk : (s.node s.tree.root).kind = .leaf)
include hk

theorem State.assigned_codet_of_leafRoot :
    s.assigned.code.codet = codeTable [((s.node s.tree.root).sym, [false])] :=
  congrArg codeTable (treeCodes_leaf hk)

theorem State.assigned_codeOf_leafRoot : s.assigned.codeOf (s.node s.tree.root).sym.toNat = Code.ofPath [false] := by
  apply State.codeOf_of_read
  rw [State.assigned_codet_of_leafRoot hk]
  refine read_codeTable ⟨_, List.mem_singleton_self _, rfl⟩ fun e he _ => ?_
  rw [List.mem_singleton.1 he]

theorem State.assigned_codeOf_other {x : Nat} (hx : x < 256) (hne : x ≠ (s.node s.tree.root).sym.toNat) :
    s.assigned.codeOf x = Code.empty := by
  apply State.codeOf_of_read
  rw [State.assigned_codet_of_leafRoot hk]
  refine read_codeTable_other hx fun e he => ?_
  rw [List.mem_singleton.1 he]
  exact hne.symm

theorem codeTableByStack_leaf : codeTableByStack s.node s.tree.root = codeTable (treeCodes s.node s.tree.root) := by
  rw [codeTableByStack, treeCodes_leaf hk, hk]
  rfl

end LeafRoot

/-! ### The tree of a table: the codes recorded and the stack (R140, R144) -/

theorem Shallow.mono {node : Nat → Node} {d d' i : Nat} (h : Shallow node d i) (hd : d ≤ d') : Shallow node d' i :=
  fun q hq => (h q hq).trans_le hd

section TreeOfTable

variable {s : State} (hF : FreqFacts s) (hT : TreeFacts s)
include hF hT

/-- No way down from the root is longer than the depth that `visit` is given (R8, R143). -/
theorem TreeFacts.shallow_root : Shallow s.node 256 s.tree.root := by
  have hpos := hF.nsym_range.1
  exact ((hT.shape hF).shallow (by rw [hT.root]; omega)).mono hF.nsym_range.2

/-- The bound that R144 infers; it holds for a leaf root too. -/
theorem TreeFacts.stack_length_le (k : Nat) :
    ((Traversal.start s.tree.root).rounds s.node k).stack.length ≤ 256 := by
  have hok := (StackOk.start s.node s.tree.root).rounds k
  rw [hT.root] at hok ⊢
  exact (hok.size (hT.shape hF)).trans hF.nsym_range.2

variable (h2 : 2 ≤ s.freq.nsym)
include h2

theorem TreeFacts.root_internal : (s.node s.tree.root).kind = .internal := by
  rw [hT.root]
  exact ((hT.shape hF).internal _ (by omega) (by omega)).1

theorem TreeFacts.treeCodes_eq_visit : treeCodes s.node s.tree.root = visit s.node 256 s.tree.root [] :=
  treeCodes_internal (hT.root_internal hF h2)

theorem TreeFacts.treeCodes_length : (treeCodes s.node s.tree.root).length = s.freq.nsym := by
  have hlen := (treeCodes_perm hF hT h2).length_eq
  rw [List.length_map, ← List.countP_eq_length_filter] at hlen
  exact hlen.trans hF.nsym.symm

/-- After one round for each node the stack is empty, and `CODET` is the one that `visit` makes (R144). -/
theorem TreeFacts.rounds_nnodes :
    (Traversal.start s.tree.root).rounds s.node s.tree.nnodes = ⟨[], codeTable (treeCodes s.node s.tree.root)⟩ := by
  have hlen := hT.treeCodes_length hF h2
  rw [hT.treeCodes_eq_visit hF h2] at hlen ⊢
  rw [hT.nnodes, ← hlen]
  exact (Traversal.rounds_entry [] (hT.shallow_root hF) [] (Traversal.start s.tree.root).codet).2

/-- The rounds left over, up to the size of the arena, find the stack empty. -/
theorem TreeFacts.codeTableByStack_eq :
    codeTableByStack s.node s.tree.root = codeTable (treeCodes s.node s.tree.root) := by
  have hroom : nodeMax = s.tree.nnodes + (nodeMax - s.tree.nnodes) := by
    have h256 := hF.nsym_range.2
    rw [hT.nnodes, nodeMax]
    omega
  have hbyStack : codeTableByStack s.node s.tree.root = ((Traversal.start s.tree.root).rounds s.node nodeMax).codet := by
    rw [codeTableByStack, hT.root_internal hF h2]
  rw [hbyStack, hroom, Traversal.rounds_add, hT.rounds_nnodes hF h2, Traversal.rounds_empty]

/-! ### The lengths of the codes (R143) -/

/-- The record of a symbol is as long as the path recorded for it. -/
theorem State.assigned_len_of_recorded {e : Byte × List Bool} (he : e ∈ treeCodes s.node s.tree.root) :
    (s.assigned.codeOf e.1.toNat).len = e.2.length := by
  have hpath : LeafPath s.node s.tree.root e.2 e.1 := by
    rw [hT.root] at he ⊢
    exact (mem_treeCodes (hT.shape hF) h2 hF.nsym_range.2).1 he
  have hcount := hT.symbol_of_leafPath hF hpath
  obtain ⟨q, hq, -, -, hcode, -⟩ := codeOf_leafPath hF.assigned hT.assigned rfl h2 e.1.isLt hcount
  rw [BitVec.ofNat_toNat, BitVec.setWidth_eq] at hq
  rw [hcode, Code.ofPath_len, hT.leafPath_unique hF hpath hq]

/-- The Kraft equality, from the sum over the paths that `visit` records. -/
theorem State.assigned_kraft :
    ((symbols.filter fun x => s.count x != 0).map fun x => 2 ^ (255 - (s.assigned.codeOf x).len)).sum = 2 ^ 255 := by
  calc ((symbols.filter fun x => s.count x != 0).map fun x => 2 ^ (255 - (s.assigned.codeOf x).len)).sum
      = (((treeCodes s.node s.tree.root).map fun e => e.1.toNat).map
          fun x => 2 ^ (255 - (s.assigned.codeOf x).len)).sum := ((treeCodes_perm hF hT h2).map _).sum_eq.symm
    _ = ((treeCodes s.node s.tree.root).map fun e => 2 ^ (255 - e.2.length)).sum := by
        rw [List.map_map]
        exact congrArg List.sum (List.map_congr_left fun e he =>
          congrArg (fun len => 2 ^ (255 - len)) (State.assigned_len_of_recorded hF hT h2 he))
    _ = ((visit s.node 256 s.tree.root []).map fun e => 2 ^ (255 - e.2.length)).sum := by
        rw [hT.treeCodes_eq_visit hF h2]
    _ = 2 ^ 255 := visit_kraft [] (hT.shallow_root hF) le_rfl

end TreeOfTable

/-! ### The statements of the family -/

/-- Settles O33: the records are the leaf paths (`codeOf_leafPath`), and the stack works each node off in one round
(`TreeFacts.rounds_nnodes`). -/
theorem assignGivesLeafPaths : Obligations.AssignGivesLeafPaths := by
  unfold Obligations.AssignGivesLeafPaths
  intro s hI hb hv h2
  have hF := hI.freq (hI.tree_needs_freq hv)
  have hT := hI.tree hv
  have hexec := exec_assign_assigned hb hv
  have hpaths : ∀ x < 256, 0 < s.count x →
      LeafPath s.node s.tree.root (s.assigned.codeOf x).path (BitVec.ofNat 8 x) := fun x hx hc => by
    obtain ⟨q, hq, -, -, -, hpath⟩ := codeOf_leafPath hF.assigned hT.assigned rfl h2 hx hc
    rw [hpath]
    exact hq
  have habsent : ∀ x < 256, s.count x = 0 → s.assigned.codeOf x = ⟨0, 0⟩ :=
    fun x hx hc => codeOf_absent hF.assigned hT.assigned rfl hx hc
  exact ⟨s.assigned, hexec, rfl, rfl, rfl, rfl, hpaths, habsent, (hT.codeTableByStack_eq hF h2).symm,
    congrArg Traversal.stack (hT.rounds_nnodes hF h2), hT.stack_length_le hF, rfl, rfl, s.assigned_invalidFrom,
    exec_sameHostSide hexec⟩

/-- Settles O34: what `ASSIGN` writes has the facts of level 2 (`CodeFacts.of_assigned`). -/
theorem assignedCodesArePrefixFree : Obligations.AssignedCodesArePrefixFree := by
  unfold Obligations.AssignedCodesArePrefixFree
  intro s hI hb hv
  have hF := hI.freq (hI.tree_needs_freq hv)
  have hC : CodeFacts s.assigned := .of_assigned hF.assigned (hI.tree hv).assigned rfl
  have hlengths : 2 ≤ s.freq.nsym → ∀ x < 256, 0 < s.count x →
      1 ≤ (s.assigned.codeOf x).len ∧ (s.assigned.codeOf x).len ≤ s.freq.nsym - 1 :=
    fun h2 x hx hc => ⟨(hC.coded x hx).2 hc, hC.lengths h2 x hx⟩
  exact ⟨s.assigned, exec_assign_assigned hb hv, rfl, hC.coded, fun h2 => ⟨hlengths h2, hC.prefix_free h2⟩, hC.single⟩

/-- Settles O36: the coded symbols are those that `visit` records, each once (`State.assigned_kraft`). -/
theorem assignedCodesMeetKraft : Obligations.AssignedCodesMeetKraft := by
  unfold Obligations.AssignedCodesMeetKraft
  intro s t hI hb hv h2 ht
  rw [exec_assign_assigned hb hv] at ht
  cases ht
  exact State.assigned_kraft (hI.freq (hI.tree_needs_freq hv)) (hI.tree hv) h2

/-- Settles O35: the one code recorded is that of the root's symbol. -/
theorem assignOfALeafRoot : Obligations.AssignOfALeafRoot := by
  unfold Obligations.AssignOfALeafRoot
  intro s hb hv hk
  have hcode := State.assigned_codeOf_leafRoot hk
  exact ⟨s.assigned, exec_assign_assigned hb hv, rfl, hcode, by rw [hcode]; rfl,
    fun _ hx hne => State.assigned_codeOf_other hk hx hne, (codeTableByStack_leaf hk).symm⟩

end Sys2Proof.Machine
end

section
/-! PROOFS. The family `43_bit_encoder`: the payload that `PACK` leaves, its length, and the payload that does not fit
(spec/43_bit_encoder.md R150 to R155). -/

namespace Sys2Proof.Machine

/-! ### The state a successful `PACK` leaves (R150) -/

/-- Level 3 as `PACK` writes it. -/
def PayLevel.packed (s : State) : PayLevel where
  valid := true
  nbits := s.streamLength
  payLen := (packBits s.codeStream).length
  pbuf := Store.ofList 0 (packBits s.codeStream)

/-- The state after `PACK` has stored the bitstream of `s`. -/
def State.packed (s : State) : State :=
  { s with stt := .done, err := none, phase := some .pack, pay := .packed s, out := .invalid }

/-- The prerequisite of `PACK` (R191). -/
theorem State.prereq_pack {s : State} (hv : s.code.valid = true) (ho : s.freq.origin = .enc) :
    s.prereq .pack = true := by
  rw [State.prereq, hv, ho]
  rfl

theorem exec_pack_packed {s : State} (hb : s.stt.isBusy = false) (hv : s.code.valid = true) (ho : s.freq.origin = .enc)
    (hcap : ceil8 s.streamLength ≤ s.params.payCap) : exec .pack s = .next s.packed :=
  exec_unit_ok (u := .pack) hb (State.prereq_pack hv ho) (packBody_ok hcap)

theorem PayFacts.packed {s : State} (hc : ∀ x < 256, s.count x = occurrences s.inputBytes x)
    (hcap : ceil8 s.streamLength ≤ s.params.payCap) : PayFacts s.packed :=
  .of_packed hc hcap rfl rfl rfl

/-- `STATE = DONE`, `FREQ_V = TREE_V = CODE_V = PAY_V = 1`, `OUT_V = 0`, `ORIGIN = ENC`, `PHASE = 4` (R23). -/
theorem State.packed_status {s : State} (hf : s.freq.valid = true) (ht : s.tree.valid = true) (hv : s.code.valid = true)
    (ho : s.freq.origin = .enc) : s.packed.status = 0x043E := by
  have hw := s.packed.status_toNat
  simp only [State.packed, hf, ht, hv, ho] at hw
  exact BitVec.eq_of_toNat_eq hw

theorem State.packed_invalidFrom (s : State) : InvalidFrom 4 s.packed :=
  ⟨fun h => absurd h (by decide), fun h => absurd h (by decide), fun h => absurd h (by decide),
    fun h => absurd h (by decide), fun _ => rfl⟩

/-! ### The bits of the payload (R151 to R153) -/

/-- A bit of the payload, read from `PBUF` (R152). -/
theorem State.payByte_getLsbD {s : State} {k : Nat} (hk : k < 8 * s.pay.payLen) :
    (s.payByte (k / 8)).getLsbD (7 - k % 8) = streamBit s.payloadBytes k := by
  have hbyte : k / 8 < s.payloadBytes.length := by rw [State.payloadBytes_length]; omega
  have hget : s.payloadBytes[k / 8] = s.payByte (k / 8) := by simp [State.payloadBytes]
  rw [streamBit, List.getD_eq_getElem _ _ hbyte, hget]

/-- `PBUF` holds the bitstream, and zero bits from its end on. -/
theorem State.packed_bit (s : State) {k : Nat} (hk : k < 8 * s.packed.pay.payLen) :
    (s.packed.payByte (k / 8)).getLsbD (7 - k % 8) = s.codeStream.getD k false := by
  have hbytes : s.packed.payloadBytes = packBits s.codeStream := payloadBytes_of_stored rfl rfl
  rw [State.payByte_getLsbD hk, hbytes]
  exact (packBits_spec s.codeStream).2 k hk

/-- The bytes of a valid payload are specified (R62). -/
theorem PayFacts.specified_payByte {s : State} (hP : PayFacts s) (hv : s.pay.valid = true) {a : Nat}
    (ha : a < s.pay.payLen) : s.specified .pbuf a = some (.byte (s.payByte a)) := by
  obtain ⟨b, hb⟩ := Option.isSome_iff_exists.1 (hP.written a ha)
  simp [State.specified, State.payByte, hv, ha, hb]

/-! ### When the body raises (R155) -/

theorem packBody_capacity {s : State} (h : s.params.payCap < ceil8 s.streamLength) :
    unitBody .pack s = .error .capacity :=
  if_pos h

theorem exec_pack_capacity {s : State} (hb : s.stt.isBusy = false) (hv : s.code.valid = true)
    (ho : s.freq.origin = .enc) (h : s.params.payCap < ceil8 s.streamLength) :
    exec .pack s = .next { s with
      stt := .error, err := some .capacity, phase := some .pack, pay := .invalid, out := .invalid } :=
  exec_unit_error (u := .pack) hb (State.prereq_pack hv ho) (packBody_capacity h)

/-- A `PACK` that leaves level 3 valid has met the capacity test. -/
theorem eq_packed_of_exec_pack {s t : State} (hb : s.stt.isBusy = false) (hv : s.code.valid = true)
    (ho : s.freq.origin = .enc) (ht : exec .pack s = .next t) (hpay : t.pay.valid = true) :
    ceil8 s.streamLength ≤ s.params.payCap ∧ t = s.packed := by
  rcases Nat.lt_or_ge s.params.payCap (ceil8 s.streamLength) with hlong | hfits
  · rw [exec_pack_capacity hb hv ho hlong] at ht
    cases ht
    cases hpay
  · rw [exec_pack_packed hb hv ho hfits] at ht
    cases ht
    exact ⟨hfits, rfl⟩

/-! ### The length of the payload (R154) -/

/-- With a code table on the encode path, the counts are those of the input (R45 item 3). -/
theorem Inv.count_eq_occurrences {s : State} (hI : Inv s) (hv : s.code.valid = true) (ho : s.freq.origin = .enc) :
    ∀ x < 256, s.count x = occurrences s.inputBytes x :=
  ((hI.freq (hI.tree_needs_freq (hI.code_needs_tree hv))).counted ho).1

theorem State.codeStream_length_eq_sum (s : State) :
    s.codeStream.length = (s.inputBytes.map fun b => (s.codeOf b.toNat).len).sum := by
  rw [State.codeStream, List.length_flatMap]
  simp only [Code.path_length]

theorem ceil8_padding (n : Nat) : 8 * ceil8 n - n ≤ 7 := by
  rw [ceil8]
  omega

/-! ### The statements of the family -/

/-- Settles O37: `PBUF` holds `packBits s.codeStream`, whose every bit `packBits_spec` gives. -/
theorem packStoresTheBitstream : Obligations.PackStoresTheBitstream := by
  unfold Obligations.PackStoresTheBitstream
  intro s hI hb hv ho hcap
  have htree := hI.code_needs_tree hv
  have hcount := hI.count_eq_occurrences hv ho
  have hlen : s.codeStream.length = s.streamLength := codeStream_length hcount
  have hfits : ceil8 s.streamLength ≤ s.params.payCap := by
    rw [← hlen]
    exact hcap
  have hexec := exec_pack_packed hb hv ho hfits
  have hP := PayFacts.packed hcount hfits
  obtain ⟨hpayLen, -⟩ := hP.payLen
  have hstream : ∀ k < s.packed.pay.nbits,
      (s.packed.payByte (k / 8)).getLsbD (7 - k % 8) = s.codeStream.getD k false := fun k hk =>
    s.packed_bit (by rw [hpayLen, ceil8]; omega)
  have hpadding : ∀ k, s.packed.pay.nbits ≤ k → k < 8 * s.packed.pay.payLen →
      (s.packed.payByte (k / 8)).getLsbD (7 - k % 8) = false := fun k hn hk => by
    rw [s.packed_bit hk]
    exact List.getD_eq_default _ _ (hlen.trans_le hn)
  exact ⟨s.packed, hexec, rfl, rfl, State.packed_status (hI.tree_needs_freq htree) htree hv ho, hlen.symm, hpayLen,
    hstream, hpadding, fun _ => hP.specified_payByte rfl, rfl, rfl, rfl, s.packed_invalidFrom,
    exec_sameHostSide hexec⟩

/-- Settles O38: `NBITS` is written as the sum over the symbols, and `codeStream_length` makes it the sum over the
input. -/
theorem packLengthIsTheSumOfCodeLengths : Obligations.PackLengthIsTheSumOfCodeLengths := by
  unfold Obligations.PackLengthIsTheSumOfCodeLengths
  intro s t hI hb hv ho ht hpay
  have hcount := hI.count_eq_occurrences hv ho
  obtain ⟨hfits, rfl⟩ := eq_packed_of_exec_pack hb hv ho ht hpay
  obtain ⟨hpayLen, -⟩ := (PayFacts.packed hcount hfits).payLen
  have hinput : s.packed.pay.nbits = (s.inputBytes.map fun b => (s.codeOf b.toNat).len).sum :=
    (codeStream_length hcount).symm.trans s.codeStream_length_eq_sum
  exact ⟨hinput, rfl, hpayLen, by rw [hpayLen]; exact ceil8_padding _⟩

/-- Settles O39: the body raises before it writes a byte, so the start of the unit is all that is left of it
(`exec_pack_capacity`). -/
theorem packFails : Obligations.PackFails := by
  unfold Obligations.PackFails
  intro s hb hv ho hlong
  exact exec_pack_capacity hb hv ho hlong

end Sys2Proof.Machine
end

section
/-! PROOFS. The family `44_container`: decimal text, the artifact that `SER` writes, and the header that `DESER` reads
(spec/44_container.md R160 to R171). -/

namespace Sys2Proof.Machine

/-! ### Fields (R165) -/

/-- The end of a field, in the spec's terms. -/
theorem fieldEnds_iff {rest : List Byte} :
    FieldEnds rest ↔ ∀ c ∈ rest.head?, ¬ (0x30 ≤ c.toNat ∧ c.toNat ≤ 0x39) :=
  forall₂_congr fun c _ => by rw [← isDigit_iff, Bool.not_eq_true]

/-- `parse_uint` reads the outputs of `dec` up to the limit, and nothing else. -/
theorem parseUint_eq_some_iff {limit v : Nat} {input rest : List Byte} :
    parseUint limit input = some (v, rest) ↔ input = dec v ++ rest ∧ v ≤ limit ∧ FieldEnds rest := by
  constructor
  · exact parseUint_some
  · rintro ⟨rfl, hlimit, hends⟩
    exact parseUint_dec limit v rest hlimit hends

/-! ### The state a successful `SER` leaves (R162) -/

/-- The artifact of a state: the header of its table, and behind it its payload (R160). -/
def State.artifact (s : State) : List Byte := header s.freq.nsym s.count ++ s.payloadBytes

theorem State.artifact_length (s : State) :
    s.artifact.length = (header s.freq.nsym s.count).length + s.pay.payLen := by
  rw [State.artifact, List.length_append, State.payloadBytes_length]

/-- Level 4 as `SER` writes it. -/
def OutLevel.serialised (s : State) : OutLevel where
  valid := true
  outLen := (header s.freq.nsym s.count).length + s.pay.payLen
  obuf := Store.ofList 0 s.artifact

/-- The state after `SER` has written the artifact of `s`. -/
def State.serialised (s : State) : State :=
  { s with stt := .done, err := none, phase := some .ser, out := .serialised s }

theorem exec_ser_serialised {s : State} (hb : s.stt.isBusy = false) (hv : s.pay.valid = true)
    (hfits : s.artifact.length ≤ s.params.outCap) : exec .ser s = .next s.serialised := by
  rw [State.artifact_length] at hfits
  exact exec_unit_ok (u := .ser) hb hv (serBody_ok hfits)

theorem State.serialised_out {s : State} (hfits : s.artifact.length ≤ s.params.outCap) :
    OutFacts s.serialised ∧ s.serialised.outputBytes = s.artifact :=
  OutFacts.of_stored rfl s.artifact_length.symm hfits

/-- The bytes of a valid output are specified (R62). -/
theorem OutFacts.specified_outByte {s : State} (hO : OutFacts s) (hv : s.out.valid = true) {a : Nat}
    (ha : a < s.out.outLen) : s.specified .obuf a = some (.byte (s.outByte a)) := by
  obtain ⟨b, hb⟩ := Option.isSome_iff_exists.1 (hO.written a ha)
  simp [State.specified, State.outByte, hv, ha, hb]

/-! ### When `SER` raises (R162, R206) -/

theorem serBody_capacity {s : State} (h : s.params.outCap < s.artifact.length) :
    unitBody .ser s = .error .capacity := by
  rw [State.artifact_length] at h
  exact if_pos h

theorem exec_ser_capacity {s : State} (hb : s.stt.isBusy = false) (hv : s.pay.valid = true)
    (h : s.params.outCap < s.artifact.length) :
    exec .ser s = .next { s with stt := .error, err := some .capacity, phase := some .ser, out := .invalid } :=
  exec_unit_error (u := .ser) hb hv (serBody_capacity h)

/-- A `SER` that ends in `DONE` has met the capacity test. -/
theorem eq_serialised_of_exec_ser {s t : State} (hb : s.stt.isBusy = false) (hv : s.pay.valid = true)
    (ht : exec .ser s = .next t) (hdone : t.stt = .done) :
    s.artifact.length ≤ s.params.outCap ∧ t = s.serialised := by
  rcases Nat.lt_or_ge s.params.outCap s.artifact.length with hlong | hfits
  · rw [exec_ser_capacity hb hv hlong] at ht
    cases ht
    cases hdone
  · rw [exec_ser_serialised hb hv hfits] at ht
    cases ht
    exact ⟨hfits, rfl⟩

/-! ### The artifact of a state with the invariants (R163, R171) -/

/-- With a payload, all levels below it are valid, and the core is on the encode path (R45 item 2). -/
theorem Inv.levels_of_pay {s : State} (hI : Inv s) (hv : s.pay.valid = true) :
    s.freq.valid = true ∧ s.tree.valid = true ∧ s.code.valid = true ∧ s.freq.origin = .enc := by
  obtain ⟨hcode, horigin⟩ := hI.pay_needs_code hv
  have htree := hI.code_needs_tree hcode
  exact ⟨hI.tree_needs_freq htree, htree, hcode, horigin⟩

/-- `NSYM` counts the entry lines, so the header is the text of the entries (R163). -/
theorem FreqFacts.artifact_eq {s : State} (hF : FreqFacts s) :
    s.artifact = headerText (entriesOf s.count) ++ s.payloadBytes := by
  rw [State.artifact, header_eq_headerText hF.nsym]

/-- The entries of a counted table are admissible (R171). -/
theorem FreqFacts.entriesOf_valid {s : State} (hF : FreqFacts s) :
    ValidEntries s.params.cmax (entriesOf s.count) := by
  obtain ⟨hpos, -⟩ := hF.nsym_range
  obtain ⟨-, hmax⟩ := hF.total_range
  rw [hF.nsym] at hpos
  rw [hF.total] at hmax
  exact Machine.entriesOf_valid hpos hmax

/-- `STATE = DONE`, all five flags 1, `ORIGIN = ENC`, `PHASE = 5` (R23). -/
theorem Inv.serialised_status {s : State} (hI : Inv s) (hv : s.pay.valid = true) : s.serialised.status = 0x057E := by
  obtain ⟨hfreq, htree, hcode, horigin⟩ := hI.levels_of_pay hv
  have hw := s.serialised.status_toNat
  simp only [State.serialised, hfreq, htree, hcode, hv, horigin] at hw
  exact BitVec.eq_of_toNat_eq hw

/-! ### The state a successful `DESER` leaves (R164) -/

/-- Level 0 as `DESER` writes it from the entries of a header. -/
def FreqLevel.parsed (entries : List (Nat × Nat)) : FreqLevel where
  valid := true
  total := (entries.map Prod.snd).sum
  nsym := entries.length
  payOff := (headerText entries).length
  origin := .dec
  freqt := enterAll entries zeroCounts

/-- The state after `DESER` has read a header with these entries. -/
def State.parsed (s : State) (entries : List (Nat × Nat)) : State :=
  { s with
    stt := .done, err := none, phase := some .deser, freq := .parsed entries, tree := .invalid, code := .invalid,
    pay := .invalid, out := .invalid }

theorem exec_deser_parsed {s : State} {entries : List (Nat × Nat)} {payload : List Byte} (hb : s.stt.isBusy = false)
    (hcap : s.inLen ≤ s.params.inCap) (hv : ValidEntries s.params.cmax entries)
    (hi : s.inputBytes = headerText entries ++ payload) : exec .deser s = .next (s.parsed entries) :=
  exec_unit_ok (u := .deser) hb rfl (deserBody_ok hcap hv hi)

/-- The table holds the frequency of every symbol, whatever the order of the lines (R167). -/
theorem State.parsed_read (s : State) {cmax x : Nat} {entries : List (Nat × Nat)} (hv : ValidEntries cmax entries)
    (hx : x < 256) : Store.read (s.parsed entries).freq.freqt x = some (freqOf entries x) :=
  read_enterAll entries zeroCounts x hv.listed_once (read_zeroCounts hx)

theorem State.parsed_specified (s : State) {cmax x : Nat} {entries : List (Nat × Nat)}
    (hv : ValidEntries cmax entries) (hx : x < 256) :
    (s.parsed entries).specified .freqt x = some (.count (freqOf entries x)) :=
  congrArg (Option.map Datum.count) (s.parsed_read hv hx)

theorem State.parsed_count (s : State) {cmax x : Nat} {entries : List (Nat × Nat)} (hv : ValidEntries cmax entries)
    (hx : x < 256) : (s.parsed entries).count x = freqOf entries x := by
  rw [State.count, s.parsed_read hv hx, Option.getD_some]

/-- `STATE = DONE`, `FREQ_V = 1`, `ORIGIN = DEC`, `PHASE = 6`, and the other flags 0 (R23). -/
theorem State.parsed_status (s : State) (entries : List (Nat × Nat)) : (s.parsed entries).status = 0x0686 :=
  BitVec.eq_of_toNat_eq (s.parsed entries).status_toNat

theorem State.parsed_invalidFrom (s : State) (entries : List (Nat × Nat)) : InvalidFrom 1 (s.parsed entries) :=
  ⟨fun h => absurd h (by decide), fun _ => rfl, fun _ => rfl, fun _ => rfl, fun _ => rfl⟩

/-! ### When `DESER` raises (R164, R166) -/

theorem deserBody_capacity {s : State} (h : s.params.inCap < s.inLen) : unitBody .deser s = .error .capacity :=
  if_pos h

theorem deserBody_corruptStream {s : State} (hcap : s.inLen ≤ s.params.inCap)
    (h : parseHeader s.params.cmax s.inputBytes = none) : unitBody .deser s = .error .corruptStream := by
  rw [unitBody, deserBody, if_neg (Nat.not_lt.2 hcap), h]

/-! ### The statements of the family -/

/-- Settles O46: the artifact is the text of the table's entries, which are admissible, and the payload
(`FreqFacts.artifact_eq`, `FreqFacts.entriesOf_valid`), so `DESER` reads those entries back. -/
theorem deserReadsWhatSerWrites : Obligations.DeserReadsWhatSerWrites := by
  unfold Obligations.DeserReadsWhatSerWrites
  intro s t s' hI hb hv ht hdone hb' hparams hcap' hinput
  obtain ⟨hfreq, -⟩ := hI.levels_of_pay hv
  have hF := hI.freq hfreq
  have hentries := hF.entriesOf_valid
  obtain ⟨hfits, rfl⟩ := eq_serialised_of_exec_ser hb hv ht hdone
  obtain ⟨-, houtput⟩ := State.serialised_out hfits
  have hartifact : s'.inputBytes = headerText (entriesOf s.count) ++ s.payloadBytes := by
    rw [hinput, houtput, hF.artifact_eq]
  have hexec := exec_deser_parsed hb' hcap' (by rw [hparams]; exact hentries) hartifact
  have hcount : ∀ x < 256, (s'.parsed (entriesOf s.count)).count x = s.count x := fun x hx => by
    rw [s'.parsed_count hentries hx, freqOf_entriesOf s.count hx]
  have hnsym : (entriesOf s.count).length = s.freq.nsym := by rw [entriesOf_length, hF.nsym]
  have htotal : ((entriesOf s.count).map Prod.snd).sum = s.freq.total := by rw [entriesOf_sum, hF.total]
  have houtLen : (headerText (entriesOf s.count)).length + s.pay.payLen = s.serialised.out.outLen := by
    rw [← header_eq_headerText hF.nsym]
    rfl
  exact ⟨_, hexec, rfl, hcount, hnsym, htotal, houtLen, rfl⟩

/-- Settles O40: by the recursion of `dec`, one digit at a time (`dec_value`, `dec_head`). -/
theorem decimalTextIsShortest : Obligations.DecimalTextIsShortest := by
  unfold Obligations.DecimalTextIsShortest
  intro v
  exact ⟨fun b hb => (isDigit_iff b).1 (dec_isDigit v b hb), dec_value v, fun h => h ▸ dec_zero, dec_head, dec_ne_nil v⟩

/-- Settles O41: `parse_uint` reads what `dec` writes and nothing else (`parseUint_eq_some_iff`). -/
theorem parsedFieldsAreExactlyDecimalText : Obligations.ParsedFieldsAreExactlyDecimalText := by
  unfold Obligations.ParsedFieldsAreExactlyDecimalText
  constructor
  · intro limit v input rest
    rw [parseUint_eq_some_iff, fieldEnds_iff]
  · exact expectByte_eq_some

/-- Settles O42: the command leaves `State.serialised`, whose output is the artifact, and the artifact's header is the
text of the entries (`FreqFacts.artifact_eq`). -/
theorem serWritesTheArtifact : Obligations.SerWritesTheArtifact := by
  unfold Obligations.SerWritesTheArtifact
  intro s hI hb hv hcap
  obtain ⟨hfreq, -⟩ := hI.levels_of_pay hv
  have hartifact := (hI.freq hfreq).artifact_eq
  have hfits : s.artifact.length ≤ s.params.outCap := by
    rw [hartifact, List.length_append, State.payloadBytes_length]
    exact hcap
  have hexec := exec_ser_serialised hb hv hfits
  obtain ⟨hO, houtput⟩ := State.serialised_out hfits
  exact ⟨s.serialised, hexec, rfl, rfl, hI.serialised_status hv, houtput.trans hartifact,
    s.serialised.outputBytes_length.symm, fun _ => hO.specified_outByte rfl, rfl, rfl, rfl, rfl,
    exec_sameHostSide hexec⟩

/-- Settles O44: the parser accepts the text of admissible entries (`parseHeader_text`, in `deserBody_ok`), and the
command leaves `State.parsed`. -/
theorem deserParsesTheHeader : Obligations.DeserParsesTheHeader := by
  unfold Obligations.DeserParsesTheHeader
  intro s entries payload hb hcap hv hi
  have hexec := exec_deser_parsed hb hcap hv hi
  exact ⟨s.parsed entries, hexec, rfl, rfl, s.parsed_status entries, rfl, rfl, fun _ => s.parsed_specified hv, rfl, rfl,
    s.parsed_invalidFrom entries, exec_sameHostSide hexec⟩

/-- Settles O45: an input the parser accepts begins with an admissible header (`parseHeader_eq_none`), and a body that
raises leaves the state as the start of the unit made it (`exec_unit_error`). -/
theorem deserRejectsEverythingElse : Obligations.DeserRejectsEverythingElse := by
  unfold Obligations.DeserRejectsEverythingElse
  intro s hb
  constructor
  · intro hcap hnone
    exact exec_unit_error (u := .deser) hb rfl (deserBody_corruptStream hcap (parseHeader_eq_none hnone))
  · intro hlong
    exact exec_unit_error (u := .deser) hb rfl (deserBody_capacity hlong)

/-- Settles O43: the body raises before it writes a byte, so the start of the unit is all that is left of it
(`exec_ser_capacity`). -/
theorem serFails : Obligations.SerFails := by
  unfold Obligations.SerFails
  intro s hb hv hlong
  exact exec_ser_capacity hb hv (s.artifact_length ▸ hlong)

end Sys2Proof.Machine
end

section
/-! PROOFS. The family `45_bit_decoder`: the output that `WALK` leaves when the payload leads it to a leaf often enough
or its root is a leaf, and when it raises (spec/45_bit_decoder.md R180 to R186). -/

namespace Sys2Proof.Machine

/-! ### The state a successful `WALK` leaves (R180) -/

/-- Level 4 as `WALK` writes it from the symbols decoded. -/
def OutLevel.walked (s : State) (bytes : List Byte) : OutLevel where
  valid := true
  outLen := s.freq.total
  obuf := Store.ofList 0 bytes

/-- The state after `WALK` has decoded these symbols. -/
def State.walked (s : State) (bytes : List Byte) : State :=
  { s with stt := .done, err := none, phase := some .walk, out := .walked s bytes }

/-- The prerequisite of `WALK` (R191). -/
theorem State.prereq_walk {s : State} (hv : s.tree.valid = true) (ho : s.freq.origin = .dec) :
    s.prereq .walk = true := by
  rw [State.prereq, hv, ho]
  rfl

theorem exec_walk_walked {s : State} {bytes : List Byte} (hb : s.stt.isBusy = false) (hv : s.tree.valid = true)
    (ho : s.freq.origin = .dec) (hcap : s.freq.total ≤ s.params.outCap) (hd : s.decoded = some bytes) :
    exec .walk s = .next (s.walked bytes) :=
  exec_unit_ok (u := .walk) hb (State.prereq_walk hv ho) (walkBody_ok (s := s.startUnit .walk) hcap hd)

/-- `TOTAL` symbols are decoded, so the output read back is the symbols decoded. -/
theorem State.walked_out {s : State} {bytes : List Byte} (hcap : s.freq.total ≤ s.params.outCap)
    (hd : s.decoded = some bytes) : OutFacts (s.walked bytes) ∧ (s.walked bytes).outputBytes = bytes := by
  have hlen := decoded_length hd
  exact OutFacts.of_stored rfl hlen.symm (by rw [hlen]; exact hcap)

/-! ### What the payload decodes to (R181 to R185) -/

theorem InnerPath.start_internal {node : Nat → Node} {i : Nat} {q : List Bool} (h : InnerPath node i q) :
    (node i).kind = .internal :=
  h 0 (Nat.zero_le _)

theorem State.decoded_of_leafRoot {s : State} (hk : (s.node s.tree.root).kind = .leaf) :
    s.decoded = some (List.replicate s.freq.total (s.node s.tree.root).sym) := by
  rw [State.decoded, hk]

theorem State.decoded_of_internalRoot {s : State} (hk : (s.node s.tree.root).kind = .internal) :
    s.decoded = walkBits s.node s.tree.root s.payloadBits s.tree.root s.freq.total := by
  rw [State.decoded, hk]

section Payload

variable {s : State} {steps : List (List Bool × Byte)}
  (hsteps : ∀ e ∈ steps, LeafPath s.node s.tree.root e.1 e.2)
include hsteps

/-- The machine stops at the last symbol, whatever bits follow (R183). -/
theorem State.decoded_of_leafPaths {surplus : List Bool} (hk : (s.node s.tree.root).kind = .internal)
    (htotal : steps.length = s.freq.total) (hbits : s.payloadBits = steps.flatMap Prod.fst ++ surplus) :
    s.decoded = some (steps.map Prod.snd) := by
  have hwalk := walkBits_steps steps surplus 0 hk hsteps
  rw [walkBits_zero, Option.map_some, List.append_nil, Nat.add_zero] at hwalk
  rw [State.decoded_of_internalRoot hk, hbits, ← htotal, hwalk]

/-- Symbols are still missing when the bits end (R185). -/
theorem State.decoded_eq_none {tail : List Bool} (htotal : steps.length < s.freq.total)
    (hi : InnerPath s.node s.tree.root tail) (hbits : s.payloadBits = steps.flatMap Prod.fst ++ tail) :
    s.decoded = none := by
  have hk := hi.start_internal
  obtain ⟨m, hm⟩ := Nat.exists_eq_add_of_lt htotal
  rw [State.decoded_of_internalRoot hk, hbits, hm, Nat.add_assoc, walkBits_steps steps tail (m + 1) hk hsteps,
    walkBits_innerPath m hi, Option.map_none]

end Payload

/-! ### When the body raises (R185, R186) -/

theorem walkBody_capacity {s : State} (h : s.params.outCap < s.freq.total) : unitBody .walk s = .error .capacity :=
  if_pos h

theorem walkBody_corruptStream {s : State} (hcap : s.freq.total ≤ s.params.outCap) (hd : s.decoded = none) :
    unitBody .walk s = .error .corruptStream := by
  rw [unitBody, walkBody, if_neg (Nat.not_lt.2 hcap), hd]

/-! ### The statements of the family -/

/-- Settles O47: the payload decodes to the symbols of the leaves reached, by induction over the paths
(`walkBits_steps`, in `State.decoded_of_leafPaths`), and the command leaves `State.walked`. -/
theorem walkEmitsTheLeavesReached : Obligations.WalkEmitsTheLeavesReached := by
  unfold Obligations.WalkEmitsTheLeavesReached
  intro s steps surplus hb hv ho hk hcap hsteps htotal hbits
  have hd := State.decoded_of_leafPaths hsteps hk htotal hbits
  have hexec := exec_walk_walked hb hv ho hcap hd
  obtain ⟨hO, houtput⟩ := State.walked_out hcap hd
  exact ⟨s.walked _, hexec, rfl, rfl, rfl, rfl, houtput, rfl, fun _ => hO.specified_outByte rfl, rfl, rfl, rfl, rfl,
    exec_sameHostSide hexec⟩

/-- Settles O48: nothing is decoded (`State.decoded_eq_none`), and a body that raises leaves the state as the start of
the unit made it (`exec_unit_error`). -/
theorem walkRunsOutOfBits : Obligations.WalkRunsOutOfBits := by
  unfold Obligations.WalkRunsOutOfBits
  intro s steps tail hb hv ho hcap hsteps htotal hi hbits
  have hd := State.decoded_eq_none hsteps htotal hi hbits
  exact exec_unit_error (u := .walk) hb (State.prereq_walk hv ho)
    (walkBody_corruptStream (s := s.startUnit .walk) hcap hd)

/-- Settles O49: what a leaf root decodes to does not mention the payload (`State.decoded_of_leafRoot`). -/
theorem walkOfALeafRoot : Obligations.WalkOfALeafRoot := by
  unfold Obligations.WalkOfALeafRoot
  intro s hb hv ho hk hcap
  have hd := State.decoded_of_leafRoot hk
  obtain ⟨-, houtput⟩ := State.walked_out hcap hd
  exact ⟨s.walked _, exec_walk_walked hb hv ho hcap hd, rfl, rfl, houtput, rfl, rfl, rfl, rfl, rfl⟩

/-- Settles O50: the capacity test comes before the payload is looked at (`walkBody_capacity`). -/
theorem walkFailsOnCapacity : Obligations.WalkFailsOnCapacity := by
  unfold Obligations.WalkFailsOnCapacity
  intro s hb hv ho hlong
  exact exec_unit_error (u := .walk) hb (State.prereq_walk hv ho) (walkBody_capacity hlong)

end Sys2Proof.Machine
end

section
/-! PROOFS. The family `46_commands`: acceptance, how a command ends, and the composite commands `ENCODE` and `DECODE`
taken apart into their units (spec/46_commands.md R190 to R199). Each part has its lemmas first; the theorems that settle
the obligations stand at the end. -/

namespace Sys2Proof.Machine

/-! ### How a command ends (R190 to R192) -/

/-- A command that has come to its end is not running (R192 to R195). -/
theorem finish_not_busy (i : Instr) (s : State) : (finish i s).stt.isBusy = false := by
  by_cases hc : i = .clear
  · subst hc
    rfl
  · rw [finish_eq_runPath hc]
    generalize runPath (path i) s = r
    obtain ⟨t, _ | e⟩ := r <;> rfl

/-- No unit raises `SequenceError` (R200, R205). -/
theorem finish_err_ne_sequence (i : Instr) {s : State} (he : s.err = none) : (finish i s).err ≠ some .sequence := by
  by_cases hc : i = .clear
  · subst hc
    exact nofun
  · rw [finish_eq_runPath hc]
    have hraised := runPath_error (path i) s
    have hkept := (runPath_control (path i) s).2
    generalize runPath (path i) s = r at hraised hkept
    obtain ⟨t, _ | e⟩ := r
    · exact fun h => nomatch (hkept.trans he).symm.trans h
    · intro h
      cases h
      simp at hraised

/-- `SequenceError` is the answer to a missing prerequisite and to nothing else (R190, R205). -/
theorem exec_sequence_iff (i : Instr) {s : State} (hb : s.stt.isBusy = false) :
    (∃ t, exec i s = .next t ∧ t.err = some .sequence) ↔ s.prereq i = false := by
  constructor
  · rintro ⟨t, ht, herr⟩
    by_contra hp
    rw [exec_of_accepted i hb (by simpa using hp)] at ht
    cases ht
    exact finish_err_ne_sequence i rfl herr
  · intro hp
    exact ⟨_, exec_of_missing i hb hp, rfl⟩

/-- How an accepted unit command ends: in `DONE` with what its body wrote, or in `ERROR` with the unit started (R192). -/
theorem exec_unit_cases {u : UnitOp} {s t : State} (hb : s.stt.isBusy = false) (hp : s.prereq u.command = true)
    (h : exec u.command s = .next t) :
    (∃ r, unitBody u (s.startUnit u) = .ok r ∧ t = { r.setFlag u.level with stt := .done, err := none })
    ∨ ∃ e, unitBody u (s.startUnit u) = .error e ∧ t = { s.startUnit u with stt := .error, err := some e } := by
  rcases runUnit_cases u s with ⟨r, hbody, -, -⟩ | ⟨e, hbody, -⟩
  · rw [exec_unit_ok hb hp hbody] at h
    cases h
    exact .inl ⟨r, hbody, rfl⟩
  · rw [exec_unit_error hb hp hbody] at h
    cases h
    exact .inr ⟨e, hbody, rfl⟩

/-- The levels around the one a unit writes: those below stay, those above are invalid (R192). -/
theorem SameBut.levels {u : UnitOp} {s r : State} (h : SameBut u.level (s.startUnit u) r) :
    SameBelow u.level.index s (r.setFlag u.level) ∧ InvalidFrom (u.level.index + 1) (r.setFlag u.level)
      ∧ r.phase = some u ∧ (r.setFlag u.level).flag u.level = true := by
  cases u <;>
    (simp only [SameBut, UnitOp.level] at h; rw [h]
     simp [SameBelow, InvalidFrom, UnitOp.level, Level.index, State.startUnit, State.invalidate, State.invalidateRange,
       State.setFlag, State.flag])

theorem startUnit_sameBelow (u : UnitOp) (s : State) : SameBelow u.level.index s (s.startUnit u) := by
  cases u <;>
    simp [SameBelow, UnitOp.level, Level.index, State.startUnit, State.invalidate, State.invalidateRange]

theorem InvalidFrom.mono {lo hi : Nat} {s : State} (h : InvalidFrom lo s) (hle : lo ≤ hi) : InvalidFrom hi s := by
  obtain ⟨h0, h1, h2, h3, h4⟩ := h
  exact ⟨fun h => h0 (hle.trans h), fun h => h1 (hle.trans h), fun h => h2 (hle.trans h), fun h => h3 (hle.trans h),
    fun h => h4 (hle.trans h)⟩

/-! ### One event of a busy core (R196, R239) -/

/-- Each step of a busy core ends its command, resets it, or takes one transaction off the command's time. -/
theorem step_of_busy_cases {s : State} {cmd : Instr} {n : Nat} (h : s.stt = .busy cmd n) :
    ∃ t, step s = .next t ∧ (t.stt.isBusy = false ∨ ∃ m, n = m + 1 ∧ t.stt = .busy cmd m) := by
  by_cases hend : n = 0 ∨ s.host = []
  · exact ⟨_, step_busy_end h hend, .inl (finish_not_busy cmd s)⟩
  · rw [not_or] at hend
    obtain ⟨hn, hne⟩ := hend
    obtain ⟨m, rfl⟩ := Nat.exists_eq_succ_of_ne_zero hn
    obtain ⟨op, rest, hh⟩ := List.exists_cons_of_ne_nil hne
    refine ⟨_, step_busy_txn h hh, ?_⟩
    rcases serveBusy_cases op { s with stt := .busy cmd m, host := rest } with ⟨r, he⟩ | ⟨-, he⟩ | he <;> rw [he]
    · exact .inr ⟨m, rfl, rfl⟩
    · exact .inl rfl
    · exact .inr ⟨m, rfl, rfl⟩

/-- A command with `n` transactions of its time left is over after at most `n + 1` steps, by induction on `n`. -/
theorem run_ends {cmd : Instr} (n : Nat) : ∀ s : State, s.stt = .busy cmd n →
    ∃ k ≤ n + 1, ∃ t : State, Sys2Proof.core.run k s = .next t ∧ t.stt.isBusy = false := by
  induction n with
  | zero =>
    intro s h
    exact ⟨1, le_rfl, _, run_next (M := Sys2Proof.core) 0 (step_busy_end h (.inl rfl)), finish_not_busy cmd s⟩
  | succ n ih =>
    intro s h
    obtain ⟨t, hstep, hidle | ⟨m, hm, hbusy⟩⟩ := step_of_busy_cases h
    · exact ⟨1, by omega, t, run_next (M := Sys2Proof.core) 0 hstep, hidle⟩
    · cases hm
      obtain ⟨k, hk, u, hrun, hidle⟩ := ih t hbusy
      exact ⟨k + 1, by omega, u, (run_next (M := Sys2Proof.core) k hstep).trans hrun, hidle⟩

/-! ### A composite command and its units, one after the other (R199) -/

theorem execAll_cons_done {i : Instr} {is : List Instr} {s t : State} (h : exec i s = .next t) (hd : t.stt = .done) :
    execAll (i :: is) s = execAll is t := by
  simp [execAll, h, hd]

theorem execAll_cons_error {i : Instr} {is : List Instr} {s t : State} (h : exec i s = .next t) (he : t.stt = .error) :
    execAll (i :: is) s = t := by
  simp [execAll, h, he]

/-- A unit within a running command does what its own command does: it leaves the state of that command, still running,
or the state that its command ends in with the error it raises (R192, R193). -/
theorem runUnit_of_exec {u : UnitOp} {s : State} (i : Instr) (hb : s.stt.isBusy = false)
    (hp : s.prereq u.command = true) :
    (∃ t, exec u.command s = .next t ∧ t.stt = .done ∧ t.err = none
        ∧ runUnit u (unitBody u) (s.accept i 0) = (t.accept i 0, none))
    ∨ ∃ r e, exec u.command s = .next (r.enterError e) ∧ runUnit u (unitBody u) (s.accept i 0) = (r, some e) := by
  have hrun := runUnit_recast (.busy i 0) none s.host s.replies s.tick u s
  have hside := runUnit_sameHostSide u s
  rw [← accept_eq_recast] at hrun
  rcases runUnit_cases u s with ⟨r, hbody, -, he⟩ | ⟨e, hbody, he⟩ <;> rw [he] at hrun hside
  · refine .inl ⟨_, exec_unit_ok hb hp hbody, rfl, rfl, hrun.trans ?_⟩
    rw [State.recast, ← hside.host, ← hside.replies, ← hside.tick]
    rfl
  · refine .inr ⟨_, e, ?_, hrun⟩
    exact exec_unit_error hb hp hbody

/-- Each unit of a path that is reached, each awaited, finds its prerequisite (R191). -/
def Fed : List UnitOp → State → Prop
  | [], _ => True
  | u :: us, s => s.prereq u.command = true ∧ ∀ t, exec u.command s = .next t → t.stt = .done → Fed us t

/-- The units of a command run to the same end as their own commands do. -/
theorem endCommand_runPath (i : Instr) (us : List UnitOp) : ∀ s : State, us ≠ [] → s.stt.isBusy = false → Fed us s →
    endCommand (runPath us (s.accept i 0)) = execAll (us.map UnitOp.command) s := by
  induction us with
  | nil => exact fun _ h => absurd rfl h
  | cons u us ih =>
    rintro s - hb ⟨hp, hfed⟩
    rw [runPath_cons, List.map_cons]
    rcases runUnit_of_exec i hb hp with ⟨t, hexec, hdone, herr, hrun⟩ | ⟨r, e, hexec, hrun⟩ <;> rw [hrun]
    · rw [execAll_cons_done hexec hdone]
      by_cases hus : us = []
      · subst hus
        change { t with stt := .done, err := none } = t
        rw [← hdone, ← herr]
      · exact ih t hus (by rw [hdone]; rfl) (hfed t hexec hdone)
    · rw [execAll_cons_error hexec rfl]
      rfl

theorem exec_eq_execAll {i : Instr} {s : State} (hb : s.stt.isBusy = false) (hp : s.prereq i = true) (hc : i ≠ .clear)
    (hfed : Fed (path i) s) : exec i s = .next (execAll ((path i).map UnitOp.command) s) := by
  have hne : path i ≠ [] := by
    cases i with
    | clear => exact absurd rfl hc
    | _ => exact List.cons_ne_nil _ _
  rw [exec_of_accepted i hb hp, finish_eq_runPath hc, endCommand_runPath i _ s hne hb hfed]

/-- What a unit command that ends in `DONE` makes ready (R192). -/
theorem exec_unit_ready {u : UnitOp} {s t : State} (hb : s.stt.isBusy = false) (hp : s.prereq u.command = true)
    (h : exec u.command s = .next t) (hd : t.stt = .done) : t.stt.isBusy = false ∧ Ready u s t := by
  refine ⟨by rw [hd]; rfl, ?_⟩
  rw [exec_of_accepted _ hb hp, finish_command] at h
  have hready := runUnit_ready (u := u) (s := s.accept u.command 0)
  generalize runUnit u (unitBody u) (s.accept u.command 0) = r at h hready
  obtain ⟨r, _ | e⟩ := r <;> cases h
  · cases u <;> exact hready rfl
  · cases hd

/-- On the encode path every unit finds what the one before it has made (R191, R193). -/
theorem encode_fed {s : State} (hb : s.stt.isBusy = false) : Fed (path .encode) s := by
  refine ⟨rfl, fun t1 h1 d1 => ?_⟩
  obtain ⟨b1, hfreq, henc⟩ := exec_unit_ready (u := .freq) hb rfl h1 d1
  refine ⟨hfreq, fun t2 h2 d2 => ?_⟩
  obtain ⟨b2, htree, hkeep2⟩ := exec_unit_ready (u := .build) b1 hfreq h2 d2
  refine ⟨htree, fun t3 h3 d3 => ?_⟩
  obtain ⟨b3, hcode, hkeep3⟩ := exec_unit_ready (u := .assign) b2 htree h3 d3
  have hpack : t3.prereq .pack = true := State.prereq_pack hcode (by rw [hkeep3, hkeep2, henc])
  refine ⟨hpack, fun t4 h4 d4 => ?_⟩
  obtain ⟨b4, hpay⟩ := exec_unit_ready (u := .pack) b3 hpack h4 d4
  exact ⟨hpay, fun _ _ _ => trivial⟩

/-- On the decode path likewise (R191, R194). -/
theorem decode_fed {s : State} (hb : s.stt.isBusy = false) : Fed (path .decode) s := by
  refine ⟨rfl, fun t1 h1 d1 => ?_⟩
  obtain ⟨b1, hfreq, hdec⟩ := exec_unit_ready (u := .deser) hb rfl h1 d1
  refine ⟨hfreq, fun t2 h2 d2 => ?_⟩
  obtain ⟨b2, htree, hkeep⟩ := exec_unit_ready (u := .build) b1 hfreq h2 d2
  exact ⟨State.prereq_walk htree (by rw [hkeep, hdec]), fun _ _ _ => trivial⟩

theorem exec_encode_eq_execAll {s : State} (hb : s.stt.isBusy = false) :
    exec .encode s = .next (execAll [.freq, .build, .assign, .pack, .ser] s) :=
  exec_eq_execAll hb rfl nofun (encode_fed hb)

theorem exec_decode_eq_execAll {s : State} (hb : s.stt.isBusy = false) :
    exec .decode s = .next (execAll [.deser, .build, .walk] s) :=
  exec_eq_execAll hb rfl nofun (decode_fed hb)

/-! ### Where `ENCODE` and `DECODE` can end (R193, R194) -/

/-- The state after a unit has raised an error (R192, R208). -/
def State.failed (u : UnitOp) (e : ErrCode) (s : State) : State :=
  { s.startUnit u with stt := .error, err := some e }

/-- The state after `FREQ`, `BUILD` and `ASSIGN` on the input of `s`. -/
def State.coded (s : State) : State := s.counted.built.assigned

/-- The end of `ENCODE`, one case for each unit that can fail (R193). -/
inductive EncodeEnds (s : State) : State → Prop
  | tooLong (h : s.params.inCap < s.inLen) : EncodeEnds s (s.failed .freq .capacity)
  | empty (h : s.inLen = 0) : EncodeEnds s (s.failed .freq .emptyInput)
  | payloadTooLong (h1 : 1 ≤ s.inLen) (h2 : s.inLen ≤ s.params.inCap)
      (h3 : s.params.payCap < ceil8 s.coded.streamLength) : EncodeEnds s (s.coded.failed .pack .capacity)
  | artifactTooLong (h1 : 1 ≤ s.inLen) (h2 : s.inLen ≤ s.params.inCap)
      (h3 : ceil8 s.coded.streamLength ≤ s.params.payCap) (h4 : s.params.outCap < s.coded.packed.artifact.length) :
      EncodeEnds s (s.coded.packed.failed .ser .capacity)
  | done (h1 : 1 ≤ s.inLen) (h2 : s.inLen ≤ s.params.inCap) (h3 : ceil8 s.coded.streamLength ≤ s.params.payCap)
      (h4 : s.coded.packed.artifact.length ≤ s.params.outCap) : EncodeEnds s s.coded.packed.serialised

theorem execAll_coded {s : State} (hb : s.stt.isBusy = false) (h1 : 1 ≤ s.inLen) (h2 : s.inLen ≤ s.params.inCap)
    (is : List Instr) : execAll (.freq :: .build :: .assign :: is) s = execAll is s.coded := by
  rw [execAll_cons_done (exec_freq_counted hb h1 h2) rfl, execAll_cons_done (exec_build_built rfl rfl) rfl,
    execAll_cons_done (exec_assign_assigned rfl rfl) rfl, State.coded]

theorem EncodeEnds.exec {s t : State} (h : EncodeEnds s t) (hb : s.stt.isBusy = false) : exec .encode s = .next t := by
  rw [exec_encode_eq_execAll hb]
  congr 1
  cases h with
  | tooLong h => exact execAll_cons_error (exec_unit_error (u := .freq) hb rfl (freqBody_capacity h)) rfl
  | empty h => exact execAll_cons_error (exec_unit_error (u := .freq) hb rfl (freqBody_emptyInput h)) rfl
  | payloadTooLong h1 h2 h3 =>
    rw [execAll_coded hb h1 h2]
    exact execAll_cons_error (exec_pack_capacity rfl rfl rfl h3) rfl
  | artifactTooLong h1 h2 h3 h4 =>
    rw [execAll_coded hb h1 h2, execAll_cons_done (exec_pack_packed rfl rfl rfl h3) rfl]
    exact execAll_cons_error (exec_ser_capacity rfl rfl h4) rfl
  | done h1 h2 h3 h4 =>
    rw [execAll_coded hb h1 h2, execAll_cons_done (exec_pack_packed rfl rfl rfl h3) rfl,
      execAll_cons_done (exec_ser_serialised rfl rfl h4) rfl]
    rfl

theorem exists_encodeEnds (s : State) : ∃ t, EncodeEnds s t := by
  rcases Nat.lt_or_ge s.params.inCap s.inLen with hlong | h2
  · exact ⟨_, .tooLong hlong⟩
  rcases Nat.eq_zero_or_pos s.inLen with hempty | h1
  · exact ⟨_, .empty hempty⟩
  rcases Nat.lt_or_ge s.params.payCap (ceil8 s.coded.streamLength) with hpay | h3
  · exact ⟨_, .payloadTooLong h1 h2 hpay⟩
  rcases Nat.lt_or_ge s.params.outCap s.coded.packed.artifact.length with hout | h4
  · exact ⟨_, .artifactTooLong h1 h2 h3 hout⟩
  · exact ⟨_, .done h1 h2 h3 h4⟩

theorem encodeEnds_of_exec {s t : State} (hb : s.stt.isBusy = false) (h : exec .encode s = .next t) : EncodeEnds s t := by
  obtain ⟨u, hu⟩ := exists_encodeEnds s
  rw [hu.exec hb] at h
  cases h
  exact hu

/-- The end of `DECODE`, one case for each unit that can fail (R194); the header that `DESER` accepts is the text of
admissible entries (R166). -/
inductive DecodeEnds (s : State) : State → Prop
  | tooLong (h : s.params.inCap < s.inLen) : DecodeEnds s (s.failed .deser .capacity)
  | malformed (h1 : s.inLen ≤ s.params.inCap)
      (h2 : ¬ ∃ entries payload, ValidEntries s.params.cmax entries ∧ s.inputBytes = headerText entries ++ payload) :
      DecodeEnds s (s.failed .deser .corruptStream)
  | outputTooLong {entries : List (Nat × Nat)} {payload : List Byte} (h1 : s.inLen ≤ s.params.inCap)
      (h2 : ValidEntries s.params.cmax entries) (h3 : s.inputBytes = headerText entries ++ payload)
      (h4 : s.params.outCap < (entries.map Prod.snd).sum) :
      DecodeEnds s ((s.parsed entries).built.failed .walk .capacity)
  | exhausted {entries : List (Nat × Nat)} {payload : List Byte} (h1 : s.inLen ≤ s.params.inCap)
      (h2 : ValidEntries s.params.cmax entries) (h3 : s.inputBytes = headerText entries ++ payload)
      (h4 : (entries.map Prod.snd).sum ≤ s.params.outCap) (h5 : (s.parsed entries).built.decoded = none) :
      DecodeEnds s ((s.parsed entries).built.failed .walk .corruptStream)
  | done {entries : List (Nat × Nat)} {payload : List Byte} {bytes : List Byte} (h1 : s.inLen ≤ s.params.inCap)
      (h2 : ValidEntries s.params.cmax entries) (h3 : s.inputBytes = headerText entries ++ payload)
      (h4 : (entries.map Prod.snd).sum ≤ s.params.outCap) (h5 : (s.parsed entries).built.decoded = some bytes) :
      DecodeEnds s ((s.parsed entries).built.walked bytes)

theorem execAll_parsed {s : State} {entries : List (Nat × Nat)} {payload : List Byte} (hb : s.stt.isBusy = false)
    (h1 : s.inLen ≤ s.params.inCap) (h2 : ValidEntries s.params.cmax entries)
    (h3 : s.inputBytes = headerText entries ++ payload) :
    execAll [.deser, .build, .walk] s = execAll [.walk] (s.parsed entries).built := by
  rw [execAll_cons_done (exec_deser_parsed hb h1 h2 h3) rfl, execAll_cons_done (exec_build_built rfl rfl) rfl]

theorem DecodeEnds.exec {s t : State} (h : DecodeEnds s t) (hb : s.stt.isBusy = false) : exec .decode s = .next t := by
  rw [exec_decode_eq_execAll hb]
  congr 1
  cases h with
  | tooLong h => exact execAll_cons_error (exec_unit_error (u := .deser) hb rfl (deserBody_capacity h)) rfl
  | malformed h1 h2 =>
    exact execAll_cons_error
      (exec_unit_error (u := .deser) hb rfl (deserBody_corruptStream h1 (parseHeader_eq_none h2))) rfl
  | @outputTooLong entries _ h1 h2 h3 h4 =>
    rw [execAll_parsed hb h1 h2 h3]
    exact execAll_cons_error (exec_unit_error (u := .walk) rfl rfl
      (walkBody_capacity (s := (s.parsed entries).built.startUnit .walk) h4)) rfl
  | @exhausted entries _ h1 h2 h3 h4 h5 =>
    rw [execAll_parsed hb h1 h2 h3]
    exact execAll_cons_error (exec_unit_error (u := .walk) rfl rfl
      (walkBody_corruptStream (s := (s.parsed entries).built.startUnit .walk) h4 h5)) rfl
  | done h1 h2 h3 h4 h5 =>
    rw [execAll_parsed hb h1 h2 h3, execAll_cons_done (exec_walk_walked rfl rfl rfl h4 h5) rfl]
    rfl

theorem exists_decodeEnds (s : State) : ∃ t, DecodeEnds s t := by
  rcases Nat.lt_or_ge s.params.inCap s.inLen with hlong | h1
  · exact ⟨_, .tooLong hlong⟩
  by_cases hheader : ∃ entries payload, ValidEntries s.params.cmax entries ∧ s.inputBytes = headerText entries ++ payload
  · obtain ⟨entries, payload, h2, h3⟩ := hheader
    rcases Nat.lt_or_ge s.params.outCap (entries.map Prod.snd).sum with hout | h4
    · exact ⟨_, .outputTooLong h1 h2 h3 hout⟩
    · cases h5 : (s.parsed entries).built.decoded with
      | none => exact ⟨_, .exhausted h1 h2 h3 h4 h5⟩
      | some bytes => exact ⟨_, .done h1 h2 h3 h4 h5⟩
  · exact ⟨_, .malformed h1 hheader⟩

theorem decodeEnds_of_exec {s t : State} (hb : s.stt.isBusy = false) (h : exec .decode s = .next t) : DecodeEnds s t := by
  obtain ⟨u, hu⟩ := exists_decodeEnds s
  rw [hu.exec hb] at h
  cases h
  exact hu

/-- `STATUS` of each end of `ENCODE`, with its error (R23, R193). -/
theorem EncodeEnds.status_err {s t : State} (h : EncodeEnds s t) :
    (t.status, t.err) ∈ [(0x057E, none), (0x0103, some ErrCode.capacity), (0x0103, some .emptyInput),
      (0x041F, some .capacity), (0x053F, some .capacity)] := by
  have hword : ∀ w : BitVec 16, t.status.toNat = w.toNat → t.status = w := fun w => BitVec.eq_of_toNat_eq
  rw [State.status_toNat] at hword
  cases h with
  | tooLong => rw [hword 0x0103 rfl]; simp [State.failed]
  | empty => rw [hword 0x0103 rfl]; simp [State.failed]
  | payloadTooLong => rw [hword 0x041F rfl]; simp [State.failed]
  | artifactTooLong => rw [hword 0x053F rfl]; simp [State.failed]
  | done => rw [hword 0x057E rfl]; simp [State.serialised]

/-- `STATUS` of each end of `DECODE`, with its error (R23, R194). -/
theorem DecodeEnds.status_err {s t : State} (h : DecodeEnds s t) :
    (t.status, t.err) ∈ [(0x07CE, none), (0x0603, some ErrCode.capacity), (0x0603, some .corruptStream),
      (0x078F, some .capacity), (0x078F, some .corruptStream)] := by
  have hword : ∀ w : BitVec 16, t.status.toNat = w.toNat → t.status = w := fun w => BitVec.eq_of_toNat_eq
  rw [State.status_toNat] at hword
  cases h with
  | tooLong => rw [hword 0x0603 rfl]; simp [State.failed]
  | malformed => rw [hword 0x0603 rfl]; simp [State.failed]
  | outputTooLong => rw [hword 0x078F rfl]; simp [State.failed]
  | exhausted => rw [hword 0x078F rfl]; simp [State.failed]
  | done => rw [hword 0x07CE rfl]; simp [State.walked]

/-! ### Two cores with the same input (R198) -/

/-- The same input, whatever else the cores hold. -/
structure SameInput (s t : State) : Prop where
  inLen : t.inLen = s.inLen
  inputBytes : t.inputBytes = s.inputBytes

/-- Two cores at the same point of a command: the same input and the same results so far. -/
structure SameRun (s t : State) : Prop extends SameInput s t, SameOutcome s t

theorem SameRun.symm {s t : State} (h : SameRun s t) : SameRun t s :=
  ⟨⟨h.inLen.symm, h.inputBytes.symm⟩, ⟨h.stt.symm, h.phase.symm, h.err.symm, h.freq.symm, h.tree.symm, h.code.symm,
    h.pay.symm, h.out.symm⟩⟩

theorem SameRun.trans {s t u : State} (h : SameRun s t) (k : SameRun t u) : SameRun s u :=
  ⟨⟨k.inLen.trans h.inLen, k.inputBytes.trans h.inputBytes⟩,
    ⟨k.stt.trans h.stt, k.phase.trans h.phase, k.err.trans h.err, k.freq.trans h.freq, k.tree.trans h.tree,
      k.code.trans h.code, k.pay.trans h.pay, k.out.trans h.out⟩⟩

/-- A unit that fails leaves the same of two cores that are the same below its level (R192). -/
theorem failed_sameOutcome {s t : State} (u : UnitOp) (e : ErrCode) (h : SameBelow u.level.index s t) :
    SameOutcome (s.failed u e) (t.failed u e) := by
  obtain ⟨hf, ht, hc, hy, -⟩ := h
  cases u
  case freq => exact ⟨rfl, rfl, rfl, rfl, rfl, rfl, rfl, rfl⟩
  case deser => exact ⟨rfl, rfl, rfl, rfl, rfl, rfl, rfl, rfl⟩
  case build => exact ⟨rfl, rfl, rfl, hf (by decide), rfl, rfl, rfl, rfl⟩
  case assign => exact ⟨rfl, rfl, rfl, hf (by decide), ht (by decide), rfl, rfl, rfl⟩
  case pack => exact ⟨rfl, rfl, rfl, hf (by decide), ht (by decide), hc (by decide), rfl, rfl⟩
  case ser => exact ⟨rfl, rfl, rfl, hf (by decide), ht (by decide), hc (by decide), hy (by decide), rfl⟩
  case walk => exact ⟨rfl, rfl, rfl, hf (by decide), ht (by decide), hc (by decide), hy (by decide), rfl⟩

theorem sameBelow_zero (s t : State) : SameBelow 0 s t :=
  ⟨fun h => absurd h (by decide), fun h => absurd h (by decide), fun h => absurd h (by decide),
    fun h => absurd h (by decide), fun h => absurd h (by decide)⟩

theorem SameOutcome.sameBelow {s t : State} (h : SameOutcome s t) (hi : Nat) : SameBelow hi s t :=
  ⟨fun _ => h.freq, fun _ => h.tree, fun _ => h.code, fun _ => h.pay, fun _ => h.out⟩

/-! What the units read of two cores with the same results: of a table, the entries that are written. -/

theorem SameOutcome.count {s t : State} (h : SameOutcome s t) {x : Nat} (hw : (Store.read s.freq.freqt x).isSome) :
    t.count x = s.count x := by
  obtain ⟨c, hc⟩ := Option.isSome_iff_exists.1 hw
  simp [State.count, h.freq, hc]

theorem SameOutcome.node {s t : State} (h : SameOutcome s t) {i : Nat} (hw : (Store.read s.tree.nodet i).isSome) :
    t.node i = s.node i := by
  obtain ⟨n, hn⟩ := Option.isSome_iff_exists.1 hw
  simp [State.node, h.tree, hn]

theorem SameOutcome.codeOf {s t : State} (h : SameOutcome s t) {x : Nat} (hw : (Store.read s.code.codet x).isSome) :
    t.codeOf x = s.codeOf x := by
  obtain ⟨c, hc⟩ := Option.isSome_iff_exists.1 hw
  simp [State.codeOf, h.code, hc]

theorem inputBytes_getElem (s : State) {a : Nat} (h : a < s.inputBytes.length) : s.inputBytes[a] = s.inByte a := by
  simp [State.inputBytes]

/-- No byte from `IN_LEN` on is a payload byte, so the payload bits follow from the input (R182). -/
theorem payloadBits_eq {s t : State} (h : SameInput s t) (hp : t.freq.payOff = s.freq.payOff) :
    t.payloadBits = s.payloadBits := by
  have havail : t.availBits = s.availBits := by rw [State.availBits, State.availBits, h.inLen, hp]
  rw [State.payloadBits, State.payloadBits, havail]
  refine List.map_congr_left fun k hk => ?_
  rw [List.mem_range, State.availBits] at hk
  have hs : s.freq.payOff + k / 8 < s.inputBytes.length := by rw [State.inputBytes_length]; omega
  have ht : s.freq.payOff + k / 8 < t.inputBytes.length := by rw [h.inputBytes]; exact hs
  rw [State.payloadBit, State.payloadBit, hp, ← inputBytes_getElem s hs, ← inputBytes_getElem t ht,
    List.getElem_of_eq h.inputBytes]

/-! A tree is read from the root down, so two arenas that agree on the tree give the same codes and the same output. -/

section Arenas

variable {f g : Nat → Node} {n : Nat} (hs : Shape f n) (hfg : ∀ i < 2 * n - 1, g i = f i)
include hfg

theorem descend_congr {i : Nat} (hi : i < 2 * n - 1) (b : Bool) : descend g i b = descend f i b := by
  rw [descend, descend, hfg i hi]

include hs

theorem visit_congr {i : Nat} (hi : i < 2 * n - 1) (d : Nat) (q : List Bool) : visit g d i q = visit f d i q := by
  induction d generalizing i q with
  | zero => rfl
  | succ d ih =>
    cases hk : (f i).kind with
    | leaf => rw [visit_leaf hk, visit_leaf (by rw [hfg i hi, hk]), hfg i hi]
    | internal =>
      have hl : (f i).left < i := hs.descend_lt hi hk false
      have hr : (f i).right < i := hs.descend_lt hi hk true
      rw [visit_internal hk, visit_internal (by rw [hfg i hi, hk]), hfg i hi, ih (hl.trans hi), ih (hr.trans hi)]

theorem treeCodes_congr : treeCodes g (2 * n - 2) = treeCodes f (2 * n - 2) := by
  have hroot : 2 * n - 2 < 2 * n - 1 := by have := hs.pos; omega
  rw [treeCodes, treeCodes, hfg _ hroot, visit_congr hs hfg hroot]

theorem leafPath_of_agree {i : Nat} {q : List Bool} {x : Byte} (hi : i < 2 * n - 1) (hl : LeafPath g i q x) :
    LeafPath f i q x := by
  induction q generalizing i with
  | nil =>
    rw [leafPath_nil, hfg i hi] at hl
    exact (leafPath_nil ..).2 hl
  | cons b q ih =>
    rw [leafPath_cons, hfg i hi, descend_congr hfg hi] at hl
    obtain ⟨hk, hl⟩ := hl
    exact (leafPath_cons ..).2 ⟨hk, ih ((hs.descend_lt hi hk b).trans hi) hl⟩

theorem walkBits_congr (bits : List Bool) {cur : Nat} (m : Nat) (hroot : (f (2 * n - 2)).kind = .internal)
    (hcur : cur < 2 * n - 1) (hk : (f cur).kind = .internal) :
    walkBits g (2 * n - 2) bits cur m = walkBits f (2 * n - 2) bits cur m := by
  induction bits generalizing cur m with
  | nil => cases m <;> rfl
  | cons b bits ih =>
    cases m with
    | zero => rfl
    | succ m =>
      have hnext : descend f cur b < 2 * n - 1 := (hs.descend_lt hcur hk b).trans hcur
      rw [walkBits, walkBits, descend_congr hfg hcur, hfg _ hnext]
      cases hd : (f (descend f cur b)).kind with
      | leaf =>
        have hpos := hs.pos
        simp only [ih m (by omega) hroot]
      | internal => exact ih (m + 1) hnext hd

end Arenas

/-! The units on two cores with the same input. -/

theorem SameInput.counted {s t : State} (h : SameInput s t) : SameRun s.counted t.counted := by
  have hfreq : FreqLevel.counted t = FreqLevel.counted s := by
    rw [FreqLevel.counted, FreqLevel.counted, h.inLen, h.inputBytes]
  exact ⟨⟨h.inLen, h.inputBytes⟩, ⟨rfl, rfl, rfl, hfreq, rfl, rfl, rfl, rfl⟩⟩

theorem SameInput.parsed {s t : State} (h : SameInput s t) (entries : List (Nat × Nat)) :
    SameRun (s.parsed entries) (t.parsed entries) :=
  ⟨⟨h.inLen, h.inputBytes⟩, ⟨rfl, rfl, rfl, rfl, rfl, rfl, rfl, rfl⟩⟩

theorem SameRun.built {s t : State} (h : SameRun s t) (hF : FreqFacts s) : SameRun s.built t.built := by
  have hsymbol : ∃ x < 256, s.count x ≠ 0 := distinctSymbols_pos.1 (hF.nsym ▸ hF.nsym_range.1)
  have htree := TreeLevel.built_congr (fun x hx => h.count (hF.written x hx)) hsymbol
  exact ⟨⟨h.inLen, h.inputBytes⟩, ⟨rfl, rfl, rfl, h.freq, htree, rfl, rfl, rfl⟩⟩

/-- The nodes of the tree are written, so they are the same in both cores. -/
theorem SameOutcome.tree_nodes {s t : State} (h : SameOutcome s t) (hT : TreeFacts s) :
    ∀ i < 2 * s.freq.nsym - 1, t.node i = s.node i :=
  fun i hi => h.node (hT.written i (by rw [hT.nnodes]; exact hi))

theorem SameRun.assigned {s t : State} (h : SameRun s t) (hF : FreqFacts s) (hT : TreeFacts s) :
    SameRun s.assigned t.assigned := by
  have hcode : CodeLevel.assigned t = CodeLevel.assigned s := by
    rw [CodeLevel.assigned, CodeLevel.assigned, h.tree, hT.root, treeCodes_congr (hT.shape hF) (h.tree_nodes hT)]
  exact ⟨⟨h.inLen, h.inputBytes⟩, ⟨rfl, rfl, rfl, h.freq, h.tree, hcode, rfl, rfl⟩⟩

/-- What `WALK` decodes follows from the tree and the input (R182, R184). -/
theorem SameRun.decoded {s t : State} (h : SameRun s t) (hF : FreqFacts s) (hT : TreeFacts s) :
    t.decoded = s.decoded := by
  have hs := hT.shape hF
  have hfg := h.tree_nodes hT
  have hroot : 2 * s.freq.nsym - 2 < 2 * s.freq.nsym - 1 := by have := hs.pos; omega
  have hbits := payloadBits_eq h.toSameInput (by rw [h.freq])
  rw [State.decoded, State.decoded, h.tree, h.freq, hbits, hT.root, hfg _ hroot]
  cases hk : (s.node (2 * s.freq.nsym - 2)).kind with
  | leaf => rfl
  | internal => exact walkBits_congr hs hfg s.payloadBits s.freq.total hk hroot hk

/-! ### The codes of an input (R110, R120, R140) -/

section Coded

variable {s : State} (h1 : 1 ≤ s.inLen) (h2 : s.inLen ≤ s.params.inCap) (hmax : s.inLen ≤ s.params.cmax)
include h1 h2 hmax

theorem State.counted_facts : FreqFacts s.counted := .of_counted h1 h2 hmax rfl rfl rfl rfl rfl

theorem State.counted_built_facts : TreeFacts s.counted.built := .built (State.counted_facts h1 h2 hmax)

theorem State.coded_freqFacts : FreqFacts s.coded := (State.counted_facts h1 h2 hmax).built.assigned

theorem State.coded_treeFacts : TreeFacts s.coded := (State.counted_built_facts h1 h2 hmax).assigned

theorem State.coded_codeFacts : CodeFacts s.coded :=
  .of_assigned (State.coded_freqFacts h1 h2 hmax) (State.coded_treeFacts h1 h2 hmax) rfl

theorem SameInput.coded_of_countable {t : State} (h : SameInput s t) : SameRun s.coded t.coded :=
  (h.counted.built (State.counted_facts h1 h2 hmax)).assigned (State.counted_facts h1 h2 hmax).built
    (State.counted_built_facts h1 h2 hmax)

end Coded

/-- The same core with counters that are wide enough for its input. -/
def State.widened (s : State) : State := { s with params := { s.params with cntW := s.inLen } }

/-- The codes follow from the input. The facts of the tree ask for counters that hold `IN_LEN`, as legal parameters have
them (R7); where they are narrower, both cores are compared with a third that has wide ones. -/
theorem SameInput.coded {s t : State} (h : SameInput s t) (h1 : 1 ≤ s.inLen) (h2 : s.inLen ≤ s.params.inCap) :
    SameRun s.coded t.coded := by
  have hmax : s.widened.inLen ≤ s.widened.params.cmax := Nat.le_pred_of_lt Nat.lt_two_pow_self
  have hs : SameInput s.widened s := ⟨rfl, rfl⟩
  have ht : SameInput s.widened t := ⟨h.inLen, h.inputBytes⟩
  exact (hs.coded_of_countable (s := s.widened) h1 h2 hmax).symm.trans (ht.coded_of_countable (s := s.widened) h1 h2 hmax)

/-- The counts of a coded input are those of its bytes. -/
theorem State.coded_count (s : State) {x : Nat} (hx : x < 256) : s.coded.count x = occurrences s.inputBytes x :=
  s.counted_count hx

/-- Every record of a coded input is written. -/
theorem State.coded_codet_written (s : State) {x : Nat} (hx : x < 256) : (Store.read s.coded.code.codet x).isSome := by
  obtain ⟨-, -, hw⟩ := codeTable_ok (treeCodes s.counted.built.node s.counted.built.tree.root)
  obtain ⟨c, hc, -⟩ := hw x hx
  exact Option.isSome_iff_exists.2 ⟨c, hc⟩

/-- The codes of a coded input are the same in two cores with the same results. -/
theorem SameRun.coded_codeOf {s t : State} (hc : SameRun s.coded t.coded) {x : Nat} (hx : x < 256) :
    t.coded.codeOf x = s.coded.codeOf x :=
  hc.codeOf (s.coded_codet_written hx)

theorem SameRun.coded_codeStream {s t : State} (hc : SameRun s.coded t.coded) :
    t.coded.codeStream = s.coded.codeStream := by
  rw [State.codeStream, State.codeStream, hc.inputBytes]
  exact List.flatMap_congr fun b _ => by rw [hc.coded_codeOf b.isLt]

section CodedTwice

variable {s t : State} (h : SameInput s t) (hc : SameRun s.coded t.coded)
include h

theorem SameInput.coded_count {x : Nat} (hx : x < 256) : t.coded.count x = s.coded.count x := by
  rw [s.coded_count hx, t.coded_count hx, h.inputBytes]

include hc

theorem SameInput.coded_streamLength : t.coded.streamLength = s.coded.streamLength := by
  rw [State.streamLength, State.streamLength]
  exact congrArg List.sum (map_symbols_congr fun x hx => by
    rw [h.coded_count hx, hc.coded_codeOf hx])

theorem SameInput.packed : SameRun s.coded.packed t.coded.packed := by
  have hpay : PayLevel.packed t.coded = PayLevel.packed s.coded := by
    rw [PayLevel.packed, PayLevel.packed, h.coded_streamLength hc, hc.coded_codeStream]
  exact ⟨⟨h.inLen, h.inputBytes⟩, ⟨rfl, rfl, rfl, hc.freq, hc.tree, hc.code, hpay, rfl⟩⟩

end CodedTwice

/-- The payload read back is the packed bitstream. -/
theorem State.packed_payloadBytes (s : State) : s.packed.payloadBytes = packBits s.codeStream :=
  payloadBytes_of_stored rfl rfl

theorem SameInput.packed_artifact {s t : State} (h : SameInput s t) (hc : SameRun s.coded t.coded) :
    t.coded.packed.artifact = s.coded.packed.artifact := by
  have hheader : header t.coded.packed.freq.nsym t.coded.packed.count
      = header s.coded.packed.freq.nsym s.coded.packed.count := by
    rw [(h.packed hc).freq]
    exact header_congr _ fun x hx => h.coded_count hx
  rw [State.artifact, State.artifact, hheader, State.packed_payloadBytes, State.packed_payloadBytes,
    hc.coded_codeStream]

theorem SameInput.serialised {s t : State} (h : SameInput s t) (hc : SameRun s.coded t.coded) :
    SameOutcome s.coded.packed.serialised t.coded.packed.serialised := by
  have hp := h.packed hc
  have hout : OutLevel.serialised t.coded.packed = OutLevel.serialised s.coded.packed := by
    rw [OutLevel.serialised, OutLevel.serialised, ← State.artifact_length, ← State.artifact_length,
      h.packed_artifact hc]
  exact ⟨rfl, rfl, rfl, hp.freq, hp.tree, hp.code, hp.pay, hout⟩

/-- The end of `ENCODE` follows from the parameters and the input. -/
theorem EncodeEnds.same {s s' t : State} (he : EncodeEnds s t) (hp : s'.params = s.params) (h : SameInput s s') :
    ∃ t', EncodeEnds s' t' ∧ SameOutcome t t' := by
  cases he with
  | tooLong h1 => exact ⟨_, .tooLong (by rwa [hp, h.inLen]), failed_sameOutcome .freq _ (sameBelow_zero s s')⟩
  | empty h1 => exact ⟨_, .empty (by rwa [h.inLen]), failed_sameOutcome .freq _ (sameBelow_zero s s')⟩
  | payloadTooLong h1 h2 h3 =>
    have hc := h.coded h1 h2
    exact ⟨_, .payloadTooLong (by rwa [h.inLen]) (by rwa [hp, h.inLen]) (by rwa [hp, h.coded_streamLength hc]),
      failed_sameOutcome .pack _ (hc.sameBelow _)⟩
  | artifactTooLong h1 h2 h3 h4 =>
    have hc := h.coded h1 h2
    exact ⟨_, .artifactTooLong (by rwa [h.inLen]) (by rwa [hp, h.inLen]) (by rwa [hp, h.coded_streamLength hc])
      (by rwa [hp, h.packed_artifact hc]), failed_sameOutcome .ser _ ((h.packed hc).sameBelow _)⟩
  | done h1 h2 h3 h4 =>
    have hc := h.coded h1 h2
    exact ⟨_, .done (by rwa [h.inLen]) (by rwa [hp, h.inLen]) (by rwa [hp, h.coded_streamLength hc])
      (by rwa [hp, h.packed_artifact hc]), h.serialised hc⟩

section Parsed

variable {s : State} {entries : List (Nat × Nat)} {payload : List Byte} (h1 : s.inLen ≤ s.params.inCap)
  (h2 : ValidEntries s.params.cmax entries) (h3 : s.inputBytes = headerText entries ++ payload)
include h1 h2 h3

theorem State.parsed_facts : FreqFacts (s.parsed entries) :=
  .of_parsed (entries := entries) (payload := payload) h2 h3 h1 rfl rfl rfl rfl rfl

theorem State.parsed_built_facts : TreeFacts (s.parsed entries).built := .built (State.parsed_facts h1 h2 h3)

theorem SameInput.parsed_built {t : State} (h : SameInput s t) :
    SameRun (s.parsed entries).built (t.parsed entries).built :=
  (h.parsed entries).built (State.parsed_facts h1 h2 h3)

theorem SameInput.parsed_decoded {t : State} (h : SameInput s t) :
    (t.parsed entries).built.decoded = (s.parsed entries).built.decoded :=
  (h.parsed_built h1 h2 h3).decoded (State.parsed_facts h1 h2 h3).built (State.parsed_built_facts h1 h2 h3)

end Parsed

/-- The end of `DECODE` follows from the parameters and the input. -/
theorem DecodeEnds.same {s s' t : State} (he : DecodeEnds s t) (hp : s'.params = s.params) (h : SameInput s s') :
    ∃ t', DecodeEnds s' t' ∧ SameOutcome t t' := by
  cases he with
  | tooLong h1 => exact ⟨_, .tooLong (by rwa [hp, h.inLen]), failed_sameOutcome .deser _ (sameBelow_zero s s')⟩
  | malformed h1 h2 =>
    exact ⟨_, .malformed (by rwa [hp, h.inLen]) (by rwa [hp, h.inputBytes]),
      failed_sameOutcome .deser _ (sameBelow_zero s s')⟩
  | outputTooLong h1 h2 h3 h4 =>
    exact ⟨_, .outputTooLong (by rwa [hp, h.inLen]) (by rwa [hp]) (by rwa [h.inputBytes]) (by rwa [hp]),
      failed_sameOutcome .walk _ ((h.parsed_built h1 h2 h3).sameBelow _)⟩
  | exhausted h1 h2 h3 h4 h5 =>
    exact ⟨_, .exhausted (by rwa [hp, h.inLen]) (by rwa [hp]) (by rwa [h.inputBytes]) (by rwa [hp])
      (by rwa [h.parsed_decoded h1 h2 h3]), failed_sameOutcome .walk _ ((h.parsed_built h1 h2 h3).sameBelow _)⟩
  | done h1 h2 h3 h4 h5 =>
    have hb := h.parsed_built h1 h2 h3
    exact ⟨_, .done (by rwa [hp, h.inLen]) (by rwa [hp]) (by rwa [h.inputBytes]) (by rwa [hp])
      (by rwa [h.parsed_decoded h1 h2 h3]), ⟨rfl, rfl, rfl, hb.freq, hb.tree, hb.code, hb.pay, rfl⟩⟩

/-! ### `ENCODE` with room enough (R170, R193) -/

/-- The bound of R170: a count line of three digits, and at most 256 entry lines. -/
theorem headerText_length_le {cmax : Nat} {entries : List (Nat × Nat)} (h : ValidEntries cmax entries) :
    (headerText entries).length ≤ 4 + 256 * (5 + (dec cmax).length) := by
  have hcount : (countLine entries.length).length ≤ 4 := by
    have := dec_length_byte h.at_most_256
    rw [countLine, List.length_append, List.length_singleton]
    omega
  have hline : ∀ n ∈ entries.map fun e => (entryLine e.1 e.2).length, n ≤ 5 + (dec cmax).length := by
    rintro n hn
    obtain ⟨e, he, rfl⟩ := List.mem_map.1 hn
    have hsym : (dec e.1).length ≤ 3 := dec_length_byte ((h.symbol_range e he).trans (by decide))
    have hfreq : (dec e.2).length ≤ (dec cmax).length := dec_length_mono (h.freq_range e he).2
    simp only [entryLine, List.length_append, List.length_singleton]
    omega
  have hlines := List.sum_le_card_nsmul _ _ hline
  rw [List.length_map, smul_eq_mul] at hlines
  rw [headerText, List.length_append, List.length_flatMap]
  exact Nat.add_le_add hcount (hlines.trans (Nat.mul_le_mul_right _ h.at_most_256))

theorem State.coded_codeStream_length (s : State) : s.coded.codeStream.length = s.coded.streamLength :=
  codeStream_length fun _ hx => s.coded_count hx

section CodedRoom

variable {s : State} (h1 : 1 ≤ s.inLen) (h2 : s.inLen ≤ s.params.inCap) (hmax : s.inLen ≤ s.params.cmax)
include h1 h2 hmax

/-- No code is longer than `CODE_MAX = 255` bits (R8). -/
theorem State.coded_streamLength_le : s.coded.streamLength ≤ 255 * s.inLen := by
  have hcode := State.coded_codeFacts h1 h2 hmax
  have hlen : ∀ n ∈ s.coded.inputBytes.map fun b => (s.coded.codeOf b.toNat).len, n ≤ 255 := by
    rintro n hn
    obtain ⟨b, -, rfl⟩ := List.mem_map.1 hn
    exact hcode.len_range b.toNat b.isLt
  have hsum := List.sum_le_card_nsmul _ _ hlen
  rw [List.length_map, State.inputBytes_length, smul_eq_mul] at hsum
  rw [← s.coded_codeStream_length, State.codeStream_length_eq_sum, Nat.mul_comm]
  exact hsum

/-- The entries of a coded input are admissible (R171). -/
theorem State.coded_entries_valid : ValidEntries s.params.cmax (entriesOf (occurrences s.inputBytes)) := by
  have hvalid := (State.coded_freqFacts h1 h2 hmax).entriesOf_valid
  rwa [entriesOf_congr fun x hx => s.coded_count hx] at hvalid

/-- The artifact of an input: the header of its counts, and its packed codes (R193). -/
theorem State.coded_artifact :
    s.coded.packed.artifact = headerText (entriesOf (occurrences s.inputBytes)) ++ packBits s.coded.codeStream := by
  have hF : FreqFacts s.coded.packed := (State.coded_freqFacts h1 h2 hmax).congr rfl rfl rfl rfl rfl
  have hentries : entriesOf s.coded.packed.count = entriesOf (occurrences s.inputBytes) :=
    entriesOf_congr fun x hx => s.coded_count hx
  rw [hF.artifact_eq, State.packed_payloadBytes, hentries]

/-- With two symbols or more, each byte's code is the path to its leaf (R141). -/
theorem State.coded_leafPath (hn : 2 ≤ s.coded.freq.nsym) {b : Byte} (hb : b ∈ s.inputBytes) :
    LeafPath s.coded.node s.coded.tree.root (s.coded.codeOf b.toNat).path b := by
  have hc : 0 < s.coded.count b.toNat := by
    rw [s.coded_count b.isLt]
    exact occurrences_pos.2 ⟨b, hb, rfl⟩
  obtain ⟨q, hq, -, -, -, hpath⟩ := codeOf_leafPath (State.coded_freqFacts h1 h2 hmax)
    (State.coded_treeFacts h1 h2 hmax) rfl hn b.isLt hc
  rw [BitVec.ofNat_toNat, BitVec.setWidth_eq] at hq
  rwa [hpath]

/-- With one symbol its code is `"0"` (R142). -/
theorem State.coded_single (hn : s.coded.freq.nsym = 1) {b : Byte} (hb : b ∈ s.inputBytes) :
    (s.coded.codeOf b.toNat).path = [false] := by
  have hc : 0 < s.coded.count b.toNat := by
    rw [s.coded_count b.isLt]
    exact occurrences_pos.2 ⟨b, hb, rfl⟩
  exact (State.coded_codeFacts h1 h2 hmax).single hn b.toNat b.isLt hc

theorem State.coded_payload_fits (hpay : 255 * s.inLen ≤ 8 * s.params.payCap) :
    ceil8 s.coded.streamLength ≤ s.params.payCap := by
  have hlen := State.coded_streamLength_le h1 h2 hmax
  rw [ceil8]
  omega

theorem State.coded_artifact_fits (hpay : 255 * s.inLen ≤ 8 * s.params.payCap)
    (hout : s.params.payCap + (4 + 256 * (5 + (dec s.params.cmax).length)) ≤ s.params.outCap) :
    s.coded.packed.artifact.length ≤ s.params.outCap := by
  have hpayload := State.coded_payload_fits h1 h2 hmax hpay
  have hheader := headerText_length_le (State.coded_entries_valid h1 h2 hmax)
  rw [State.coded_artifact h1 h2 hmax, List.length_append, packBits_length, s.coded_codeStream_length]
  omega

end CodedRoom

/-! ### What `DECODE` makes of a payload (R182 to R184, R194) -/

/-- The arena that `BUILD` has made, node by node. -/
theorem State.built_arena (s : State) {i : Nat} (hi : i < s.built.tree.nnodes) :
    (buildArena s.count).1[i]? = some (s.built.node i) := by
  have hread : Store.read s.built.tree.nodet i = (buildArena s.count).1[i]? := Store.read_ofList_zero _ _
  have hget := List.getElem?_eq_getElem (l := (buildArena s.count).1) hi
  rw [State.node, hread, hget, Option.getD_some]

/-- The payload bits behind a header are the bits of the bytes behind it (R182). -/
theorem payloadBits_of_suffix {s : State} {hdr payload : List Byte} (hi : s.inputBytes = hdr ++ payload)
    (hp : s.freq.payOff = hdr.length) :
    s.payloadBits = (List.range (8 * payload.length)).map (streamBit payload) := by
  have hl := congrArg List.length hi
  rw [State.inputBytes_length, List.length_append] at hl
  have havail : s.availBits = 8 * payload.length := by rw [State.availBits, hl, hp, Nat.add_sub_cancel_left]
  rw [State.payloadBits, havail]
  refine List.map_congr_left fun k hk => ?_
  rw [List.mem_range] at hk
  have hin : hdr.length + k / 8 < s.inputBytes.length := by rw [State.inputBytes_length]; omega
  have hbyte : s.inByte (hdr.length + k / 8) = payload.getD (k / 8) 0 := by
    rw [← inputBytes_getElem s hin, List.getElem_of_eq hi, List.getElem_append_right (by omega),
      List.getD_eq_getElem _ _ (by omega)]
    simp only [Nat.add_sub_cancel_left]
  rw [State.payloadBit, hp, hbyte, streamBit]

/-- The bits of a packed bitstream: the bitstream, then zeros (R152, R153). -/
theorem streamBits_packBits (bits : List Bool) : ∃ pad,
    (List.range (8 * (packBits bits).length)).map (streamBit (packBits bits)) = bits ++ pad := by
  obtain ⟨hlen, hbit⟩ := packBits_spec bits
  have hfits : bits.length ≤ 8 * (packBits bits).length := by rw [hlen, ceil8]; omega
  have hprefix : bits <+: (List.range (8 * (packBits bits).length)).map (streamBit (packBits bits)) := by
    rw [List.prefix_iff_eq_take]
    apply List.ext_getElem
    · simp [hfits]
    · intro k hk _
      rw [List.getElem_take, List.getElem_map, List.getElem_range, hbit k (by omega), List.getD_eq_getElem _ _ hk]
  obtain ⟨pad, hpad⟩ := hprefix
  exact ⟨pad, hpad.symm⟩

/-- From a leaf the only leaf path is the empty one. -/
theorem LeafPath.sym_of_leaf {node : Nat → Node} {i : Nat} {q : List Bool} {x : Byte} (hl : LeafPath node i q x)
    (hk : (node i).kind = .leaf) : (node i).sym = x := by
  cases q with
  | nil => exact ((leafPath_nil ..).1 hl).2
  | cons b q =>
    obtain ⟨hin, -⟩ := (leafPath_cons ..).1 hl
    rw [hk] at hin
    cases hin

section Payload

variable {s : State} {entries : List (Nat × Nat)} {payload : List Byte} (h1 : s.inLen ≤ s.params.inCap)
  (h2 : ValidEntries s.params.cmax entries) (h3 : s.inputBytes = headerText entries ++ payload)
include h1 h2 h3

/-- Payload paths decode to the symbols that they lead to, from a leaf root too. -/
theorem PayloadPaths.decoded {steps : List (List Bool × Byte)} (hp : PayloadPaths entries payload steps) :
    (s.parsed entries).built.decoded = some (steps.map Prod.snd) := by
  obtain ⟨node, surplus, harena, hleaf, hlen, hbits⟩ := hp
  have hF := (State.parsed_facts h1 h2 h3).built
  have hT := State.parsed_built_facts h1 h2 h3
  have hs : Shape (s.parsed entries).built.node entries.length := hT.shape hF
  have hroot : 2 * entries.length - 2 < 2 * entries.length - 1 := by have := hs.pos; omega
  have hagree : ∀ i < 2 * entries.length - 1, node i = (s.parsed entries).built.node i := fun i hi => by
    have harena' := harena i hi
    rw [← buildArena_congr fun x hx => s.parsed_count h2 hx,
      State.built_arena _ (by rw [hT.nnodes]; exact hi)] at harena'
    exact (Option.some.inj harena').symm
  have hsteps : ∀ e ∈ steps, LeafPath (s.parsed entries).built.node (s.parsed entries).built.tree.root e.1 e.2 :=
    fun e he => by
      rw [hT.root]
      exact leafPath_of_agree hs hagree hroot (hleaf e he)
  cases hk : ((s.parsed entries).built.node (s.parsed entries).built.tree.root).kind with
  | internal =>
    exact State.decoded_of_leafPaths hsteps hk hlen
      ((payloadBits_of_suffix (s := (s.parsed entries).built) h3 rfl).trans hbits)
  | leaf =>
    have hsymbols : steps.map Prod.snd = List.replicate steps.length
        ((s.parsed entries).built.node (s.parsed entries).built.tree.root).sym :=
      List.eq_replicate_iff.2 ⟨List.length_map _, fun b hb => by
        obtain ⟨e, he, rfl⟩ := List.mem_map.1 hb
        exact ((hsteps e he).sym_of_leaf hk).symm⟩
    rw [State.decoded_of_leafRoot hk, hsymbols, hlen]
    rfl

end Payload

/-- A header of one entry decodes to its symbol, whatever the payload (R125, R184). -/
theorem State.parsed_decoded_single {s : State} {x n : Nat} {payload : List Byte} (h1 : s.inLen ≤ s.params.inCap)
    (h2 : ValidEntries s.params.cmax [(x, n)]) (h3 : s.inputBytes = headerText [(x, n)] ++ payload) :
    (s.parsed [(x, n)]).built.decoded = some (List.replicate n (BitVec.ofNat 8 x)) := by
  have hF := (State.parsed_facts h1 h2 h3).built
  have hT := State.parsed_built_facts h1 h2 h3
  have hx : x < 256 := Nat.lt_succ_of_le (h2.symbol_range (x, n) List.mem_cons_self)
  have hn : 1 ≤ n := (h2.freq_range (x, n) List.mem_cons_self).1
  have hcount : (s.parsed [(x, n)]).built.count x = n := by
    refine (s.parsed_count h2 hx).trans ?_
    rw [freqOf_cons, if_pos rfl]
  obtain ⟨i, hi, hleaf⟩ := mem_leaves (count := (s.parsed [(x, n)]).built.count) hx (by omega)
  have hi' : i < 1 := by rw [hF.leaves_length] at hi; exact hi
  have hroot : (s.parsed [(x, n)]).built.node (s.parsed [(x, n)]).built.tree.root = Node.leafOf x n := by
    obtain rfl : i = 0 := by omega
    rw [hT.root]
    exact (hT.leaf_node hF hi').trans (hleaf.trans (by rw [hcount]))
  rw [State.decoded_of_leafRoot (by rw [hroot]; rfl), hroot]
  rfl

/-! ### The round trip (R197) -/

theorem mem_entriesOf_of_pos {count : Nat → Nat} {x : Nat} (hx : x < 256) (hc : 0 < count x) :
    (x, count x) ∈ entriesOf count :=
  List.mem_map_of_mem (List.mem_filter.2 ⟨mem_symbols.2 hx, bne_iff_ne.2 hc.ne'⟩)

/-- An input of one symbol is that symbol, as often as its entry says. -/
theorem inputBytes_of_single_entry {s : State} {x n : Nat} (h : entriesOf (occurrences s.inputBytes) = [(x, n)]) :
    s.inputBytes = List.replicate n (BitVec.ofNat 8 x) := by
  have hsum := entriesOf_sum (occurrences s.inputBytes)
  rw [sum_occurrences, h] at hsum
  refine List.eq_replicate_iff.2 ⟨hsum.symm, fun b hb => ?_⟩
  have hmem := mem_entriesOf_of_pos b.isLt (occurrences_pos.2 ⟨b, hb, rfl⟩)
  rw [h, List.mem_singleton, Prod.mk.injEq] at hmem
  rw [← hmem.1, BitVec.ofNat_toNat, BitVec.setWidth_eq]

section RoundTrip

variable {s : State} (h1 : 1 ≤ s.inLen) (h2 : s.inLen ≤ s.params.inCap) (hmax : s.inLen ≤ s.params.cmax)
include h1 h2 hmax

/-- The codes of an input are paths of the tree that `BUILD` makes of the header's table. -/
theorem State.coded_payloadPaths (hn : 2 ≤ s.coded.freq.nsym) :
    PayloadPaths (entriesOf (occurrences s.inputBytes)) (packBits s.coded.codeStream)
      (s.inputBytes.map fun b => ((s.coded.codeOf b.toNat).path, b)) := by
  have hT := State.counted_built_facts h1 h2 hmax
  have hlen : (entriesOf (occurrences s.inputBytes)).length = s.coded.freq.nsym := entriesOf_length _
  have hcount : ∀ x < 256, freqOf (entriesOf (occurrences s.inputBytes)) x = s.counted.count x := fun x hx => by
    rw [freqOf_entriesOf _ hx, s.counted_count hx]
  obtain ⟨pad, hpad⟩ := streamBits_packBits s.coded.codeStream
  refine ⟨s.coded.node, pad, fun i hi => ?_, fun e he => ?_, ?_, ?_⟩
  · rw [hlen] at hi
    rw [buildArena_congr hcount]
    exact s.counted.built_arena (by rw [hT.nnodes]; exact hi)
  · obtain ⟨b, hb, rfl⟩ := List.mem_map.1 he
    have hleaf := State.coded_leafPath h1 h2 hmax hn hb
    rw [(State.coded_treeFacts h1 h2 hmax).root] at hleaf
    rwa [hlen]
  · rw [List.length_map, entriesOf_sum, sum_occurrences]
  · rw [hpad, List.flatMap_map]
    rfl

/-- The decode path on the artifact of an input makes that input (R197). -/
theorem State.parsed_decoded_artifact {s' : State} (h1' : s'.inLen ≤ s'.params.inCap) (hp : s'.params = s.params)
    (hi : s'.inputBytes = s.coded.packed.artifact) :
    (s'.parsed (entriesOf (occurrences s.inputBytes))).built.decoded = some s.inputBytes := by
  have hv := State.coded_entries_valid h1 h2 hmax
  rw [← hp] at hv
  rw [State.coded_artifact h1 h2 hmax] at hi
  by_cases hn : 2 ≤ s.coded.freq.nsym
  · rw [(State.coded_payloadPaths h1 h2 hmax hn).decoded h1' hv hi, List.map_map]
    exact congrArg some (List.map_id _)
  · have hone : (entriesOf (occurrences s.inputBytes)).length = 1 := by
      have hpos := hv.some_entry
      have hlen : (entriesOf (occurrences s.inputBytes)).length = s.coded.freq.nsym := entriesOf_length _
      omega
    obtain ⟨⟨x, n⟩, hentries⟩ := List.length_eq_one_iff.1 hone
    rw [hentries] at hv hi ⊢
    rw [State.parsed_decoded_single h1' hv hi, inputBytes_of_single_entry hentries]

end RoundTrip

/-- What fits `IBUF` is countable (R7). -/
theorem inCap_le_cmax {p : Params} (h : p.wellFormed = true) : p.inCap ≤ p.cmax := by
  simp only [Params.wellFormed, Params.inCapOk, Bool.and_eq_true, decide_eq_true_eq] at h
  obtain ⟨⟨⟨-, -, hin⟩, -⟩, -⟩ := h
  exact hin

/-! ### The statements of the family -/

/-- Settles O51: the bounds of R8 and R170 rule out the failing ends, and in the last (`EncodeEnds.done`) the output is the
artifact of the input (`State.coded_artifact`). -/
theorem encodeCompletes : Obligations.EncodeCompletes := by
  unfold Obligations.EncodeCompletes
  intro s hp hb h1 h2 hpay hout
  have hmax : s.inLen ≤ s.params.cmax := h2.trans (inCap_le_cmax hp)
  have hT := State.coded_treeFacts h1 h2 hmax
  have hfits := State.coded_payload_fits h1 h2 hmax hpay
  have hroom := State.coded_artifact_fits h1 h2 hmax hpay hout
  have hstream := s.coded_codeStream_length
  obtain ⟨hbytes, hbits⟩ := packBits_spec s.coded.codeStream
  have hexec := (EncodeEnds.done h1 h2 hfits hroom).exec hb
  have hpayload : s.coded.packed.serialised.payloadBytes = packBits s.coded.codeStream := s.coded.packed_payloadBytes
  have hstatus : s.coded.packed.serialised.status = 0x057E :=
    BitVec.eq_of_toNat_eq s.coded.packed.serialised.status_toNat
  obtain ⟨-, houtput⟩ := State.serialised_out (s := s.coded.packed) hroom
  refine ⟨_, hexec, rfl, rfl, hstatus, rfl, rfl, fun x hx => s.coded_count hx, hT.nnodes, ?_, hstream.symm, ?_, ?_, ?_,
    fun b hb hn => State.coded_leafPath h1 h2 hmax hn hb, fun b hb hn => State.coded_single h1 h2 hmax hn hb,
    exec_sameHostSide hexec⟩
  · rw [houtput, State.coded_artifact h1 h2 hmax, hpayload]
    rfl
  · rw [hpayload, hbytes, hstream]
    rfl
  · intro k hk
    change k < s.coded.streamLength at hk
    rw [hpayload]
    exact hbits k (by rw [hbytes, hstream, ceil8]; omega)
  · intro k hn hk
    change s.coded.streamLength ≤ k at hn
    rw [hpayload] at hk ⊢
    rw [hbits k hk]
    exact List.getD_eq_default _ _ (hstream.trans_le hn)

/-- Settles O52: the header gives the tree, and the payload decodes to the symbols of its paths (`PayloadPaths.decoded`),
or the one symbol (`State.parsed_decoded_single`). -/
theorem decodeCompletes : Obligations.DecodeCompletes := by
  unfold Obligations.DecodeCompletes
  intro s entries payload hp hb h1 hv hi hcap hpaths
  have hT := State.parsed_built_facts h1 hv hi
  have hdecoded : ∃ bytes, (s.parsed entries).built.decoded = some bytes := by
    rcases hpaths with hone | ⟨steps, hsteps⟩
    · obtain ⟨⟨x, n⟩, rfl⟩ := List.length_eq_one_iff.1 hone
      exact ⟨_, State.parsed_decoded_single h1 hv hi⟩
    · exact ⟨_, hsteps.decoded h1 hv hi⟩
  obtain ⟨bytes, hd⟩ := hdecoded
  have hexec := (DecodeEnds.done h1 hv hi hcap hd).exec hb
  have hstatus : ((s.parsed entries).built.walked bytes).status = 0x07CE :=
    BitVec.eq_of_toNat_eq ((s.parsed entries).built.walked bytes).status_toNat
  obtain ⟨-, houtput⟩ := State.walked_out (s := (s.parsed entries).built) hcap hd
  refine ⟨_, hexec, rfl, rfl, hstatus, rfl, rfl, rfl, rfl, hT.root, ?_, ?_, rfl, rfl, exec_sameHostSide hexec⟩
  · rintro x n rfl
    rw [houtput]
    exact Option.some.inj (hd.symm.trans (State.parsed_decoded_single h1 hv hi))
  · intro steps hsteps
    rw [houtput]
    exact Option.some.inj (hd.symm.trans (hsteps.decoded h1 hv hi))

/-- Settles O56: an `ENCODE` that ends in `DONE` has written the artifact of its input, which the decode path turns back into
that input (`State.parsed_decoded_artifact`). -/
theorem roundTrip : Obligations.RoundTrip := by
  unfold Obligations.RoundTrip
  intro s t s' hp hb ht hdone hb' hparams hinput hin hout
  cases encodeEnds_of_exec hb ht with
  | tooLong => cases hdone
  | empty => cases hdone
  | payloadTooLong => cases hdone
  | artifactTooLong => cases hdone
  | done h1 h2 h3 h4 =>
    have hmax : s.inLen ≤ s.params.cmax := h2.trans (inCap_le_cmax hp)
    obtain ⟨-, houtput⟩ := State.serialised_out (s := s.coded.packed) h4
    have hcap' : s'.inLen ≤ s'.params.inCap := by
      rw [← s'.inputBytes_length, hinput, State.outputBytes_length, hparams]
      exact hin
    rw [houtput] at hinput
    have hvalid : ValidEntries s'.params.cmax (entriesOf (occurrences s.inputBytes)) := by
      rw [hparams]
      exact State.coded_entries_valid h1 h2 hmax
    have hsum : ((entriesOf (occurrences s.inputBytes)).map Prod.snd).sum ≤ s'.params.outCap := by
      rw [entriesOf_sum, sum_occurrences, State.inputBytes_length, hparams]
      exact hout
    have hd := State.parsed_decoded_artifact h1 h2 hmax hcap' hparams hinput
    rw [State.coded_artifact h1 h2 hmax] at hinput
    obtain ⟨-, houtput'⟩ := State.walked_out (s := (s'.parsed (entriesOf (occurrences s.inputBytes))).built) hsum hd
    exact ⟨_, (DecodeEnds.done hcap' hvalid hinput hsum hd).exec hb', rfl, rfl, houtput'⟩

/-- Settles O55: each end of a composite command is an end of the other core's, with the same results (`EncodeEnds.same`,
`DecodeEnds.same`). -/
theorem compositesDependOnTheInputAlone : Obligations.CompositesDependOnTheInputAlone := by
  unfold Obligations.CompositesDependOnTheInputAlone
  intro s s' i hi hb hb' hp hl hbytes
  have hin : SameInput s s' := ⟨hl, hbytes⟩
  rcases hi with rfl | rfl
  · obtain ⟨t, ht⟩ := exists_encodeEnds s
    obtain ⟨t', ht', hsame⟩ := ht.same hp hin
    exact ⟨t, t', ht.exec hb, ht'.exec hb', hsame⟩
  · obtain ⟨t, ht⟩ := exists_decodeEnds s
    obtain ⟨t', ht', hsame⟩ := ht.same hp hin
    exact ⟨t, t', ht.exec hb, ht'.exec hb', hsame⟩

/-- Settles O53: the statuses of the ends there are (`EncodeEnds`, `DecodeEnds`). -/
theorem compositeOutcomes : Obligations.CompositeOutcomes := by
  unfold Obligations.CompositeOutcomes
  exact ⟨fun s t hb h => (encodeEnds_of_exec hb h).status_err, fun s t hb h => (decodeEnds_of_exec hb h).status_err⟩

/-- Settles O57: the end of `CLEAR` is written out field by field. -/
theorem clearForgets : Obligations.ClearForgets := by
  unfold Obligations.ClearForgets
  intro s hb
  have hexec := exec_of_accepted .clear hb rfl
  have hlevels : InvalidFrom 0 (finish .clear (s.accept .clear 0)) :=
    ⟨fun _ => rfl, fun _ => rfl, fun _ => rfl, fun _ => rfl, fun _ => rfl⟩
  exact ⟨_, hexec, rfl, rfl, rfl, status_of_invalid rfl rfl hlevels, hlevels, exec_sameHostSide hexec⟩

/-- Settles O6: `SequenceError` is a missing prerequisite (`exec_sequence_iff`), and the prerequisites are those of the
table in R191. -/
theorem prerequisitesDecide : Obligations.PrerequisitesDecide := by
  unfold Obligations.PrerequisitesDecide
  intro s hb
  refine ⟨fun i h => exec_of_missing i hb ((exec_sequence_iff i hb).1 h), exec_sequence_iff .build hb,
    exec_sequence_iff .assign hb, ?_, exec_sequence_iff .ser hb, ?_, ?_⟩
  · rw [exec_sequence_iff .pack hb, State.prereq]
    cases s.code.valid <;> cases s.freq.origin <;> decide
  · rw [exec_sequence_iff .walk hb, State.prereq]
    cases s.tree.valid <;> cases s.freq.origin <;> decide
  · intro i hi t ht herr
    have hmissing := (exec_sequence_iff i hb).1 ⟨t, ht, herr⟩
    simp only [List.mem_cons, List.not_mem_nil, or_false] at hi
    rcases hi with rfl | rfl | rfl | rfl | rfl <;> exact absurd hmissing (by simp [State.prereq])

/-- Settles O7: the tests of R190 in their order, as `State.present` makes them. -/
theorem commandWriteFollowsTheAcceptanceRule : Obligations.CommandWriteFollowsTheAcceptanceRule := by
  unfold Obligations.CommandWriteFollowsTheAcceptanceRule
  intro s v n rest hh
  refine ⟨fun cmd m hs => step_busy_txn hs hh, fun hb e hd => ?_, fun hb i hd hp => ?_, fun hb i hd hp => ⟨?_, ?_⟩⟩
  · exact (step_txn hb hh).trans (present_illegal hd n _)
  · have hp' : ({ s with host := rest } : State).prereq i = false := (prereq_host i rest s).trans hp
    exact (step_txn hb hh).trans ((present_missing hd n hp').trans (exec_of_missing i hb hp'))
  · rintro rfl
    have hp' : ({ s with host := rest } : State).prereq i = true := (prereq_host i rest s).trans hp
    exact ⟨_, (step_cmd_now hb hh hd).trans (exec_of_accepted i hb hp'), rfl, finish_not_busy i _⟩
  · exact fun hn => step_cmd_later hb hh hd hn hp

/-- Settles O20: by induction on the transactions that are left (`run_ends`); with none pending the next event is the end
of the command. -/
theorem everyCommandEnds : Obligations.EveryCommandEnds := by
  unfold Obligations.EveryCommandEnds
  exact ⟨fun s cmd n h => run_ends n s h, fun s cmd n h hh => ⟨_, step_busy_end h (.inr hh), finish_not_busy cmd s⟩⟩

/-- Settles O24: a body writes its own level and nothing else (`unitBody_frame`), and one that raises leaves the unit
started. -/
theorem unitCommandsTouchTheirLevelUp : Obligations.UnitCommandsTouchTheirLevelUp := by
  unfold Obligations.UnitCommandsTouchTheirLevelUp
  intro u s t hb hp h
  rcases exec_unit_cases hb hp h with ⟨r, hbody, rfl⟩ | ⟨e, hbody, rfl⟩
  · obtain ⟨hbelow, habove, hphase, hflag⟩ := (unitBody_frame hbody).levels
    refine ⟨hbelow, habove, (r.setFlag_phase u.level).trans hphase, .inl ⟨rfl, rfl, ?_⟩⟩
    cases u <;> exact hflag
  · have hinvalid := startUnit_invalid u s
    exact ⟨startUnit_sameBelow u s, hinvalid.mono (Nat.le_succ _), rfl, .inr ⟨rfl, ⟨e, rfl⟩, hinvalid⟩⟩

/-- Settles O54: the units of a composite command find their prerequisites (`encode_fed`, `decode_fed`), so they do what
their own commands do (`endCommand_runPath`). -/
theorem compositeIsStepwise : Obligations.CompositeIsStepwise := by
  unfold Obligations.CompositeIsStepwise
  exact fun s hb => ⟨exec_encode_eq_execAll hb, exec_decode_eq_execAll hb⟩

end Sys2Proof.Machine
end

section
/-! PROOFS. The family `60_exceptions`: no event stops the machine, an illegal word is rejected, and nothing happens that
no transaction caused (spec/60_exceptions.md R204, R208, R212). -/

namespace Sys2Proof.Machine

/-! ### An error is the way a command ends (R208) -/

/-- A command is ignored, rejected or run to its end (R190); all three are next states. -/
theorem exists_exec_next (i : Instr) (s : State) : ∃ t, exec i s = .next t := by
  cases hb : s.stt.isBusy with
  | true => exact ⟨_, exec_of_busy i hb⟩
  | false =>
    cases hp : s.prereq i with
    | true => exact ⟨_, exec_of_accepted i hb hp⟩
    | false => exact ⟨_, exec_of_missing i hb hp⟩

theorem exists_present_next (w : CmdWord) (n : Nat) {s : State} (hb : s.stt.isBusy = false) :
    ∃ t, s.present w n = .next t := by
  rcases present_cases w n hb with h | h | ⟨i, -, -, ⟨-, h⟩ | ⟨-, h⟩⟩ <;> exact ⟨_, h⟩

/-- Of the transactions only a write to `CMD` is more than an access, and it presents a word (R61, R62). -/
theorem exists_serve_next (op : HostOp) {s : State} (hb : s.stt.isBusy = false) : ∃ t, s.serve op = .next t := by
  rcases serve_cases op s with ⟨r, h⟩ | ⟨v, -, h⟩ | ⟨v, h⟩ | ⟨a, b, -, h⟩ | ⟨-, h⟩ | h
  case inr.inl =>
    rw [h]
    exact exists_present_next _ _ hb
  all_goals exact ⟨_, h⟩

/-! ### One event (R196, R212) -/

/-- Without a transaction there is no event (R212, R231). -/
theorem step_of_host_nil {s : State} (hb : s.stt.isBusy = false) (h : s.host = []) : step s = .next s := by
  rw [step_of_idle hb, State.runIdle, h]

theorem exists_step_next (s : State) : ∃ t, step s = .next t := by
  cases hb : s.stt.isBusy with
  | true =>
    cases hs : s.stt with
    | busy cmd n => exact ⟨_, step_of_busy hs⟩
    | _ => rw [hs] at hb; cases hb
  | false =>
    cases hh : s.host with
    | nil => exact ⟨_, step_of_host_nil hb hh⟩
    | cons op rest =>
      rw [step_txn hb hh]
      exact exists_serve_next op hb

/-! ### Illegal words (R204) -/

/-- The low byte of a value written to `CMD` is the word (R61), and it is illegal outside `0x01` to `0x0A` (R92). -/
theorem decodeWord_ofNat_error_iff (v : Nat) :
    (∃ e, decodeWord (BitVec.ofNat 8 v) = .error e) ↔ v % 256 = 0x00 ∨ 0x0B ≤ v % 256 := by
  have hword := illegalWordsAreTheOthers (BitVec.ofNat 8 v)
  rwa [BitVec.toNat_ofNat] at hword

/-! ### The statements of the family -/

/-- Settles O21: each event of a busy core and of one that is not is a next state (`exists_step_next`), and so is each
answer of the acceptance rule (`exists_exec_next`). -/
theorem everyStepHasANextState : Obligations.EveryStepHasANextState := by
  unfold Obligations.EveryStepHasANextState
  exact ⟨exists_step_next, exists_exec_next⟩

/-- Settles O5: the decoder refuses the low byte (`decodeWord_ofNat_error_iff`), and a word it refuses is rejected
(`present_illegal`). -/
theorem illegalWordIsRejected : Obligations.IllegalWordIsRejected := by
  unfold Obligations.IllegalWordIsRejected
  intro s v window rest hb hh hv
  obtain ⟨e, hd⟩ := (decodeWord_ofNat_error_iff v).mpr hv
  exact (step_txn hb hh).trans (present_illegal hd window _)

/-- Settles O19: a core that is not busy takes the host's next transaction, and there is none (`step_of_host_nil`). -/
theorem nothingHappensByItself : Obligations.NothingHappensByItself := by
  unfold Obligations.NothingHappensByItself
  exact fun _ => step_of_host_nil

end Sys2Proof.Machine
end

section
/-! PROOFS. The family `70_reset_and_hazards`: `Reset` in any state, also while a command runs or is about to end
(spec/70_reset_and_hazards.md R230). -/

namespace Sys2Proof.Machine

/-- All that is left of a core after `Reset` is its parameters, the host's side and the counter of free values (log 10);
so a command that writes none of them is forgotten, half done or ended. -/
theorem resetCore_congr {s t : State} (params : t.params = s.params) (host : t.host = s.host)
    (replies : t.replies = s.replies) (tick : t.tick = s.tick) : t.resetCore = s.resetCore := by
  rw [State.resetCore, State.resetCore, params, host, replies, tick]

/-- `Reset` lands in this step, unless the time of a running command is over before (log 6). -/
theorem step_reset {s : State} {k : Nat} {rest : List HostOp} (hh : s.host = ⟨.reset, k⟩ :: rest)
    (hs : ∀ cmd, s.stt ≠ .busy cmd 0) : step s = .next ({ s with host := rest } : State).resetCore := by
  cases hstt : s.stt with
  | busy cmd n =>
    cases n with
    | zero => exact absurd hstt (hs cmd)
    | succ n => exact step_busy_txn hstt hh
  | _ => exact step_txn (by rw [hstt]; rfl) hh

/-- Where the time of the running command is over, one step ends it and the next resets; `Reset` then leaves what it
leaves of the core that has not run the command, since the command keeps the host's side (`finish_sameHostSide`). -/
theorem run_end_then_reset {s : State} {cmd : Instr} {k : Nat} {rest : List HostOp}
    (hh : s.host = ⟨.reset, k⟩ :: rest) (hs : s.stt = .busy cmd 0) :
    Sys2Proof.core.run 2 s = .next ({ s with host := rest } : State).resetCore := by
  have hside := finish_sameHostSide cmd s
  have hend : step s = .next (finish cmd s) := step_busy_end hs (.inl rfl)
  have hreset : step (finish cmd s) = .next ({ finish cmd s with host := rest } : State).resetCore :=
    step_txn (finish_not_busy cmd s) (hside.host.trans hh)
  rw [run_next (M := Sys2Proof.core) 1 hend, run_next (M := Sys2Proof.core) 0 hreset]
  exact congrArg Host.Outcome.next (resetCore_congr hside.params rfl hside.replies hside.tick)

/-! ### The statement of the family -/

/-- Settles O10: in one step (`step_reset`) or in two (`run_end_then_reset`) the core is what `Reset` leaves of it, which
is blank. -/
theorem resetAbandonsEverything : Obligations.ResetAbandonsEverything := by
  unfold Obligations.ResetAbandonsEverything
  intro s k rest hh
  have h := blank_resetCore { s with host := rest }
  exact ⟨_, step_reset hh, fun ⟨_, hs⟩ => run_end_then_reset hh hs, h.stt, h.status, h.err, h.inLen, h.levels,
    h.regValue, h.specified, rfl, rfl, rfl⟩

end Sys2Proof.Machine
end
